-- ==== Sys2Proof/Word.lean ====
section
/-! DEFINITION. The words of the block's formats (spec/30_encoding.md R70) and the level of a line
(spec/00_scope.md R14). One-bit registers and ports are `Bool`, with `true` = 1. -/

namespace Sys2Proof

/-- A 5-bit brightness, 0..31 (R25, R26, R71). -/
abbrev Bright := BitVec 5

/-- A 9-bit word of the 3-wire bus (R78). -/
abbrev W9 := BitVec 9

/-- A request word (R71). -/
abbrev Req7 := BitVec 7

/-- A command-table entry (R73). -/
abbrev Cmd16 := BitVec 16

/-- A brightness frame (R75). -/
abbrev Frame16 := BitVec 16

/-- The level of an output line as seen at the pin: low, high, or not driven by the block (R14). -/
inductive Level where
  | low
  | high
  | z
  deriving DecidableEq, Repr

end Sys2Proof
end

