-- ==== Sys2Proof/Config.lean ====
section
/-! DEFINITION. The parameters of the block (spec/00_scope.md R6 to R8), the values of its input ports
in one cycle (spec/10_state.md R20), and the one free value of the model: the inputs of a cycle that
nothing describes. -/

namespace Sys2Proof

/-- The command ROM: the entries of `CMD_TABLE` by index (R50, R51). There are no bytes and no byte
order (R53, R54). Log entry 6. -/
abbrev Memory := List Cmd16

/-- The parameters of R6 (all in nanoseconds) and R8. It is a field of the state, so that a statement
about every state holds for every configuration. Log entry 2. -/
structure Config where
  /-- `T_HS_RESET_LOW_NS` -/
  hsResetLow : Nat
  /-- `T_HS_HIGH_NS` -/
  hsHigh : Nat
  /-- `T_HS_DETECT_NS` -/
  hsDetect : Nat
  /-- `T_FE_START_NS` -/
  feStart : Nat
  /-- `T_FE_SHORT_NS` -/
  feShort : Nat
  /-- `T_FE_LONG_NS` -/
  feLong : Nat
  /-- `T_FE_GAP_LOW_NS` -/
  feGapLow : Nat
  /-- `T_FE_GAP_HIGH_NS` -/
  feGapHigh : Nat
  /-- `T_FE_EOS_NS` -/
  feEos : Nat
  /-- `T_ACK_BUDGET_NS` -/
  ackBudget : Nat
  /-- `T_ACK_POLL_NS` -/
  ackPoll : Nat
  /-- `T_CSP_HALF_NS` -/
  cspHalf : Nat
  /-- `T_CSP_GAP_NS` -/
  cspGap : Nat
  /-- `T_CSP_DELAY_NS` -/
  cspDelay : Nat
  /-- `CLK_PERIOD_NS` -/
  clkPeriod : Nat
  /-- `INIT_LAST_BRIGHTNESS`, an integer whose range R9 checks -/
  initLastBrightness : Nat
  /-- `CMD_TABLE` -/
  cmdTable : Memory
  deriving DecidableEq, Repr

/-- The defaults of R6 and R8. R8 leaves two parameters OPEN: `INIT_LAST_BRIGHTNESS` is 31 here and
`CMD_TABLE` is empty (DESIGN CHOICE, log entries 3 and 4). -/
def Config.default : Config where
  hsResetLow := 4000000
  hsHigh := 100000
  hsDetect := 450000
  feStart := 4000
  feShort := 5000
  feLong := 15000
  feGapLow := 4000
  feGapHigh := 4000
  feEos := 4000
  ackBudget := 900000
  ackPoll := 3500
  cspHalf := 4000
  cspGap := 4000
  cspDelay := 100000000
  clkPeriod := 500
  initLastBrightness := 31
  cmdTable := []

/-- Every duration of R6. -/
def Config.durations (c : Config) : List Nat :=
  [c.hsResetLow, c.hsHigh, c.hsDetect, c.feStart, c.feShort, c.feLong, c.feGapLow, c.feGapHigh,
   c.feEos, c.ackBudget, c.ackPoll, c.cspHalf, c.cspGap, c.cspDelay]

/-! The constants of R7, fixed at the values every rule of the spec uses (log entry 12). -/

/-- `FRAME_BASE` -/
def frameBase : Frame16 := 0x5800#16
/-- `FRAME_ACK_BIT` -/
def frameAckBit : Frame16 := 0x0080#16
/-- `BRIGHT_MASK` -/
def brightMask : Frame16 := 0x001F#16
/-- `MAX_BRIGHTNESS` -/
def maxBrightness : Bright := 31#5
/-- `CMD_DELAY_SENTINEL` -/
def delaySentinel : Cmd16 := 0xFFFF#16

/-- The values on the input ports in one cycle (R20). `clk` is the step itself. -/
structure Pins where
  rst : Bool
  cfgAckEn : Bool
  reqValid : Bool
  reqUnblank : Bool
  reqBlank : Bool
  reqBright : Bright
  blIn : Bool
  deriving DecidableEq, Repr, Inhabited

/-- A run of cycles with the same input values: one cycle, and `more` further ones. -/
structure PinRun where
  pins : Pins
  more : Nat
  deriving DecidableEq, Repr

/-- FREE VALUE (log entry 1): the input values of a cycle that `State.inputs` does not list. Nothing
constrains them; every input port is free in every cycle (R20, D24, U3, U4). -/
opaque Config.freePins : Nat → Pins

end Sys2Proof
end

