-- ==== Sys2Proof/Syntax.lean ====
section
/-! DEFINITION. The instructions of the block (one constructor per row of spec/opcode_table.json), their
code words, and the script language of spec/10_state.md R32 that their meanings are written in. -/

namespace Sys2Proof

/-- One constructor per row of the opcode table. One-bit fields are `Bool`. -/
inductive Instr where
  /-- SET_OFF_NOT_UNBLANKED, `0kbbbbb` (R72, R142) -/
  | setOffNotUnblanked (k : Bool) (b : Bright)
  /-- SET_OFF_BLANKED, `11bbbbb` (R72, R142) -/
  | setOffBlanked (b : Bright)
  /-- SET_ON.POWER_UP, `10bbbbb` with `pwr_state` = OFF (R72, R143) -/
  | setOnPowerUp (b : Bright)
  /-- SET_ON.UPDATE, `10bbbbb` with `pwr_state` = ON (R72, R144) -/
  | setOnUpdate (b : Bright)
  /-- GET_MAX_BRIGHTNESS, the constant port (R146) -/
  | getMaxBrightness
  /-- XMIT, `0000000ddddddddd` (R73, R162) -/
  | xmit (d : W9)
  /-- DELAY, 0xFFFF (R73, R163) -/
  | delay
  /-- FRAME_TX, `01011000a00bbbbb` (R75, R111) -/
  | frameTx (a : Bool) (b : Bright)
  /-- HANDSHAKE, no encoding (R100) -/
  | handshake
  /-- ATTACH, no encoding (R160) -/
  | attach
  deriving DecidableEq, Repr

/-- A code word of one of the formats that a decoder or reader of the block can meet (R70). -/
inductive Code where
  | req7 (w : Req7)
  | port5 (w : Bright)
  | cmd16 (w : Cmd16)
  | frame16 (w : Frame16)
  deriving DecidableEq, Repr

/-- Why a code word stands for no instruction (R79). -/
inductive DecodeError where
  /-- A command-table entry in 0x0200..0xFFFE (R74). -/
  | malformedEntry (w : Cmd16)
  /-- A 16-bit value of another shape than `01011000a00bbbbb` (R79). -/
  | notAFrame (w : Frame16)
  /-- A value the constant port `max_brightness` never shows (R146). -/
  | notMaxBrightness (w : Bright)
  deriving DecidableEq, Repr

/-- A line of a command table as text (R81). -/
inductive TableLine where
  | xmit (v : Nat)
  | delay
  | reg (x : Nat)
  | val (x : Nat)
  deriving DecidableEq, Repr

/-- A line of a request program as text (R81). -/
inductive RequestLine where
  | req (u k : Bool) (b : Bright)
  | on (b : Bright)
  | off
  | blank
  | getmax
  deriving DecidableEq, Repr

/-- `pwr_state` (R24). -/
inductive PwrState where
  | off
  | on
  deriving DecidableEq, Repr

/-- `csp_state` (R29). -/
inductive CspState where
  | notStarted
  | transmitting
  | delaying
  | done
  deriving DecidableEq, Repr

/-- `ack_status` (R28); the reserved code 0b11 has no constructor, as it is never produced. -/
inductive AckStatus where
  | none
  | ok
  | timeout
  deriving DecidableEq, Repr

/-- `mode` (R31). -/
inductive Mode where
  | boot
  | run
  | idle
  deriving DecidableEq, Repr

/-- The four lines (R22, R50). -/
inductive Line where
  | bl
  | sck
  | mosi
  | cs
  deriving DecidableEq, Repr

/-- The two lines that `REL` may release (R32). -/
inductive FloatLine where
  | bl
  | sck
  deriving DecidableEq, Repr

/-- `SET(r, v)`, for the five registers a script may write (R32). -/
inductive RegWrite where
  | pwrState (v : PwrState)
  | lastBrightness (v : Bright)
  | reportedBrightness (v : Bright)
  | cspState (v : CspState)
  | pc (v : Nat)
  deriving DecidableEq, Repr

/-- The events of `EV(e)` (R32). -/
inductive Event where
  | handshake
  | ackTimeout
  deriving DecidableEq, Repr

/-- The micro-ops (R32). `wait` carries its duration in nanoseconds. -/
inductive MicroOp where
  | drv (l : Line) (v : Bool)
  | rel (l : FloatLine)
  | set (r : RegWrite)
  | ev (e : Event)
  | wait (d : Nat)
  | ackwin
  deriving DecidableEq, Repr

/-- A script is a finite list of micro-ops (R32). -/
abbrev Script := List MicroOp

end Sys2Proof
end

