-- ==== Sys2Proof/WellFormed.lean ====
section
/-! DEFINITION. Well-formedness. Operands are words of their fields' widths, so no instruction has an
operand out of range; what can be ill formed is the configuration (spec/00_scope.md R9), an entry of the
command table (spec/30_encoding.md R74), and an instruction that the power state does not select
(spec/opcode_table.json, column `condition`; spec/30_encoding.md R72). -/

namespace Sys2Proof

/-- A duration of R6 is a positive multiple of the clock period (R9). -/
def durationLegal (clk d : Nat) : Bool :=
  0 < d && d % clk == 0

/-- The first check of R9, with R8's positive `CLK_PERIOD_NS`. -/
def Config.timingLegal (c : Config) : Bool :=
  0 < c.clkPeriod && c.durations.all (durationLegal c.clkPeriod)

/-- The second check of R9. -/
def Config.pollLegal (c : Config) : Bool :=
  c.ackPoll ≤ c.ackBudget

/-- The third check of R9. -/
def Config.initBrightnessLegal (c : Config) : Bool :=
  c.initLastBrightness ≤ 31

/-- The patterns of R73: XMIT has bits 15:9 zero, DELAY is 0xFFFF. -/
def entryLegal (e : Cmd16) : Bool :=
  e.extractLsb' 9 7 == 0#7 || e == delaySentinel

/-- The command ROM in its only form: every entry legal (fourth check of R9). The ROM is a list by index,
so equal ROMs are equal lists. -/
def Memory.wf (m : Memory) : Bool :=
  m.all entryLegal

/-- R9: a legal configuration. -/
def Config.legal (c : Config) : Bool :=
  c.timingLegal && c.pollLegal && c.initBrightnessLegal && Memory.wf c.cmdTable

/-- The column `condition` of the opcode table: which power state selects the instruction. -/
def Instr.selectedBy (p : PwrState) : Instr → Bool
  | .setOffNotUnblanked _ _ => true
  | .setOffBlanked _ => true
  | .setOnPowerUp _ => p == .off
  | .setOnUpdate _ => p == .on
  | .getMaxBrightness => true
  | .xmit _ => true
  | .delay => true
  | .frameTx _ _ => true
  | .handshake => true
  | .attach => true

end Sys2Proof
end

