-- ==== Sys2Proof/Decode.lean ====
section
/-! DEFINITION. The decoders of the block's formats (spec/30_encoding.md R71 to R75, R79, R80) and, after
them, the encoder, written from the same tables, and the words of the textual forms (R81). -/

namespace Sys2Proof

/-- REQ7 (R71, R72): all 128 values are legal. The power state selects POWER_UP or UPDATE (R80). -/
def decodeReq7 (p : PwrState) (w : Req7) : Instr :=
  let b := w.extractLsb' 0 5
  match w.getLsbD 6, w.getLsbD 5 with
  | false, k => .setOffNotUnblanked k b
  | true, true => .setOffBlanked b
  | true, false =>
    match p with
    | .off => .setOnPowerUp b
    | .on => .setOnUpdate b

/-- CMD16 (R74). -/
def decodeCmd16 (e : Cmd16) : Except DecodeError Instr :=
  if e = delaySentinel then .ok .delay
  else if e.extractLsb' 9 7 = 0#7 then .ok (.xmit (e.extractLsb' 0 9))
  else .error (.malformedEntry e)

/-- FRAME16 (R75, R79). The block emits frames and decodes none; this reads the shape it emits. -/
def decodeFrame16 (f : Frame16) : Except DecodeError Instr :=
  if f.extractLsb' 8 8 = 0x58#8 ∧ f.extractLsb' 5 2 = 0#2 then
    .ok (.frameTx (f.getLsbD 7) (f.extractLsb' 0 5))
  else .error (.notAFrame f)

/-- The constant port (R70, R146): its one value. -/
def decodePort5 (w : Bright) : Except DecodeError Instr :=
  if w = 31#5 then .ok .getMaxBrightness else .error (.notMaxBrightness w)

/-- Decoding of any code word, in power state `p`. -/
def decode (p : PwrState) : Code → Except DecodeError Instr
  | .req7 w => .ok (decodeReq7 p w)
  | .port5 w => decodePort5 w
  | .cmd16 w => decodeCmd16 w
  | .frame16 w => decodeFrame16 w

/-- A number of `nbits` bits as a code word. The format is told from the length (R80); of the two 16-bit
formats, a value of the frame's shape is a frame, since it is no legal entry (R79). A length of 5 bits is
the constant port; 7 bits, or 7 bits in one whole byte, is a request (log entry 8). -/
def codeOfBits (nbits w : Nat) : Option Code :=
  if nbits = 5 ∧ w < 2 ^ 5 then some (.port5 (BitVec.ofNat 5 w))
  else if (nbits = 7 ∨ nbits = 8) ∧ w < 2 ^ 7 then some (.req7 (BitVec.ofNat 7 w))
  else if nbits = 16 ∧ w < 2 ^ 16 then
    match decodeFrame16 (BitVec.ofNat 16 w) with
    | .ok _ => some (.frame16 (BitVec.ofNat 16 w))
    | .error _ => some (.cmd16 (BitVec.ofNat 16 w))
  else none

/-- The instruction of a table word. A SET_ON word is read as in the power state after reset, OFF (R24);
log entry 8. -/
def decodeTableWord (nbits w : Nat) : Option Instr :=
  match codeOfBits nbits w with
  | none => none
  | some c => (decode .off c).toOption

/-- The code word of an instruction; none for the two rows of format INTERNAL, which have no encoding. -/
def encode : Instr → Option Code
  | .setOffNotUnblanked k b => some (.req7 (BitVec.ofBool false ++ BitVec.ofBool k ++ b))
  | .setOffBlanked b => some (.req7 (BitVec.ofBool true ++ BitVec.ofBool true ++ b))
  | .setOnPowerUp b => some (.req7 (BitVec.ofBool true ++ BitVec.ofBool false ++ b))
  | .setOnUpdate b => some (.req7 (BitVec.ofBool true ++ BitVec.ofBool false ++ b))
  | .getMaxBrightness => some (.port5 0b11111#5)
  | .xmit d => some (.cmd16 (0#7 ++ d))
  | .delay => some (.cmd16 0xFFFF#16)
  | .frameTx a b => some (.frame16 (0b01011000#8 ++ BitVec.ofBool a ++ 0#2 ++ b))
  | .handshake => none
  | .attach => none

/-- The entry a table line stands for (R81); none for a word above 0x1FF. -/
def assembleEntry : TableLine → Option Cmd16
  | .xmit v => if v ≤ 0x1FF then some (BitVec.ofNat 16 v) else none
  | .delay => some delaySentinel
  | .reg x => some (BitVec.ofNat 16 (x &&& 0xFF))
  | .val x => some (BitVec.ofNat 16 (0x100 ||| (x &&& 0xFF)))

/-- The request word a program line stands for (R81); none for GETMAX, which is no request. -/
def assembleRequest : RequestLine → Option Req7
  | .req u k b => some (BitVec.ofBool u ++ BitVec.ofBool k ++ b)
  | .on b => some (BitVec.ofBool true ++ BitVec.ofBool false ++ b)
  | .off => some (BitVec.ofBool false ++ BitVec.ofBool false ++ 0#5)
  | .blank => some (BitVec.ofBool true ++ BitVec.ofBool true ++ 0#5)
  | .getmax => none

end Sys2Proof
end

