-- ==== Sys2Proof/Machine/State.lean ====
section
/-! DEFINITION. The state of the block (spec/10_state.md R24 to R31), the configuration and the input
values, the reset state (R33, R40), the output ports (R21), and the reasons a step can stop. -/

namespace Sys2Proof.Machine

/-- The state. Fields carry the spec's names. `cfg` is the parameters of R6 and R8; `inputs` and `cycle`
are the model's own (log entry 1). -/
structure State where
  /-- R31 -/
  mode : Mode
  /-- `Q` (R31) -/
  q : Script
  /-- R31 -/
  w : Nat
  /-- R31 -/
  aw : Bool
  /-- R31 -/
  ao : Nat
  /-- `aw_seen` (R31) -/
  awSeen : Bool
  /-- `from_req` (R31) -/
  fromReq : Bool
  /-- `ev_hs` (R31) -/
  evHs : Bool
  /-- `ev_to` (R31) -/
  evTo : Bool
  /-- R31 -/
  rsp : Bool
  /-- R24 -/
  pwrState : PwrState
  /-- R25 -/
  lastBrightness : Bright
  /-- R26 -/
  reportedBrightness : Bright
  /-- R27 -/
  ackEn : Bool
  /-- R28 -/
  ackStatus : AckStatus
  /-- R29 -/
  cspState : CspState
  /-- R29 -/
  pc : Nat
  /-- R30 -/
  blOut : Bool
  /-- R30 -/
  blOe : Bool
  /-- R30 -/
  sckOut : Bool
  /-- R30 -/
  sckOe : Bool
  /-- R30 -/
  mosiOut : Bool
  /-- R30 -/
  csOut : Bool
  /-- the configuration (R6, R8), with the command ROM (R51) -/
  cfg : Config
  /-- the input values of this and the coming cycles -/
  inputs : List PinRun
  /-- the number of the cycle, by which free input values are drawn -/
  cycle : Nat
  deriving DecidableEq, Repr

/-- There is no fault: no request, entry or input value makes the block fault in a legal configuration
(R180, and spec/93_implementation_defined.md after U16). -/
inductive Fault where
  deriving DecidableEq, Repr

/-- Why a step gives no behaviour. All but the first are checks of R9 (R183); each is safe, since the
spec gives an illegal configuration no behaviour. -/
inductive Refusal where
  /-- Raised by an arm of `exec` whose instruction has no meaning yet; safe. -/
  | notModelled (mnemonic : String)
  /-- Raised by `step` when a duration is not a positive multiple of a positive `CLK_PERIOD_NS`; safe. -/
  | illegalDuration
  /-- Raised by `step` when `T_ACK_POLL_NS > T_ACK_BUDGET_NS`; safe. -/
  | pollExceedsBudget
  /-- Raised by `step` when `INIT_LAST_BRIGHTNESS` is outside 0..31; safe. -/
  | initBrightnessOutOfRange
  /-- Raised by `step`, and by ATTACH, when `CMD_TABLE` holds a malformed entry (R74); safe. -/
  | malformedTable
  deriving DecidableEq, Repr

/-- The values on the output ports (R21). -/
structure Outputs where
  blOut : Bool
  blOe : Bool
  sckOut : Bool
  sckOe : Bool
  mosiOut : Bool
  csOut : Bool
  reqReady : Bool
  busy : Bool
  rspValid : Bool
  rspOk : Bool
  pwrOn : Bool
  reportedBrightness : Bright
  ackStatus : BitVec 2
  evAckTimeout : Bool
  evHandshake : Bool
  cspDone : Bool
  maxBrightness : Bright
  deriving DecidableEq, Repr

/-- `S_reset(a)` of R33 in configuration `c`; the values of the input ports still to come are no state of
the block and are carried along. -/
def State.afterReset (c : Config) (a : Bool) (inputs : List PinRun) (cycle : Nat) : State where
  mode := .boot
  q := []
  w := 0
  aw := false
  ao := 0
  awSeen := false
  fromReq := false
  evHs := false
  evTo := false
  rsp := false
  pwrState := .off
  lastBrightness := BitVec.ofNat 5 c.initLastBrightness
  reportedBrightness := 0#5
  ackEn := a
  ackStatus := .none
  cspState := .notStarted
  pc := 0
  blOut := false
  blOe := true
  sckOut := true
  sckOe := true
  mosiOut := false
  csOut := true
  cfg := c
  inputs := inputs
  cycle := cycle

/-- The machine right after reset, in the default configuration (DESIGN CHOICE for the values the spec
leaves open: `INIT_LAST_BRIGHTNESS` log entry 3, `CMD_TABLE` log entry 4, `cfg_ack_en` log entry 5, the
input values log entry 1). -/
def State.reset : State :=
  State.afterReset Config.default false [] 0

end Sys2Proof.Machine
end

