-- ==== Sys2Proof/Machine/Operands.lean ====
section
/-! DEFINITION. Operand assembly: durations in ticks (spec/00_scope.md R10), the request word
(spec/30_encoding.md R71), the frame (spec/41_frame_encoder.md R110), the ROM read
(spec/20_memory.md R52) and the input values of a cycle (spec/10_state.md R20). -/

namespace Sys2Proof.Machine

/-- `ticks(d) = d / CLK_PERIOD_NS` (R10). -/
def ticks (c : Config) (d : Nat) : Nat :=
  d / c.clkPeriod

/-- `REQ7 = {req_unblank, req_blank, req_bright[4:0]}` (R71). -/
def reqWord (i : Pins) : Req7 :=
  BitVec.ofBool i.reqUnblank ++ BitVec.ofBool i.reqBlank ++ i.reqBright

/-- `frame(b, a) = FRAME_BASE | (a ? FRAME_ACK_BIT : 0) | (b & BRIGHT_MASK)` (R110). -/
def frameWord (b : Bright) (a : Bool) : Frame16 :=
  frameBase ||| (if a then frameAckBit else 0#16) ||| (b.setWidth 16 &&& brightMask)

/-- `RomRead(i)` (R52): the entry of index `i`, and nothing for `i >= N`. -/
def romRead (m : Memory) (i : Nat) : Option Cmd16 :=
  m[i]?

/-- The input values of the current cycle: the first listed ones, else free (log entry 1). -/
def State.pins (s : State) : Pins :=
  match s.inputs with
  | [] => Config.freePins s.cycle
  | r :: _ => r.pins

/-- The input values still to come after one cycle. -/
def laterInputs : List PinRun → List PinRun
  | [] => []
  | r :: rs =>
    match r.more with
    | 0 => rs
    | n + 1 => ⟨r.pins, n⟩ :: rs

/-- The state with the current cycle's input values used up. It touches no state of the block. -/
def State.tick (s : State) : State :=
  { s with inputs := laterInputs s.inputs, cycle := s.cycle + 1 }

end Sys2Proof.Machine
end

