-- ==== Sys2Proof/Machine/Flags.lean ====
section
/-! DEFINITION. Status and events: the pulse registers, the acknowledgement sample and outcome
(spec/10_state.md R34, R35), the codes of R24, R28 and R29, and the output functions of R39. -/

namespace Sys2Proof.Machine

/-- `S with ev_hs = 0, ev_to = 0, rsp = 0` (R34, R36, R37). -/
def State.clearPulses (s : State) : State :=
  { s with evHs := false, evTo := false, rsp := false }

/-- `EV(e)` (R32). -/
def State.raiseEvent (e : Event) (s : State) : State :=
  match e with
  | .handshake => { s with evHs := true }
  | .ackTimeout => { s with evTo := true }

/-- A sample point of the window: offsets 0, p, 2p, ... (R34, R118). -/
def samplePoint (s : State) : Bool :=
  s.ao % ticks s.cfg s.cfg.ackPoll == 0

/-- The acknowledgement sample of one window cycle (R34). -/
def sampleAck (blIn : Bool) (s : State) : State :=
  { s with
    awSeen := s.awSeen || (samplePoint s && !blIn)
    ao := s.ao + 1 }

/-- The outcome of a window that saw a low sample (R35, R119). -/
def recordAckOk (s : State) : State :=
  { s with aw := false, ackStatus := .ok }

/-- What an acknowledgement timeout records (R35, R181). -/
def recordAckTimeout (s : State) : State :=
  { s with aw := false, ackStatus := .timeout, evTo := true }

/-- `pwr_state` as its bit (R24). -/
def pwrBit : PwrState → Bool
  | .off => false
  | .on => true

/-- The codes of `ack_status` (R28). -/
def ackCode : AckStatus → BitVec 2
  | .none => 0b00#2
  | .ok => 0b01#2
  | .timeout => 0b10#2

/-- The codes of `csp_state` (R29). -/
def cspCode : CspState → BitVec 2
  | .notStarted => 0b00#2
  | .transmitting => 0b01#2
  | .delaying => 0b10#2
  | .done => 0b11#2

/-- The output functions (R39). -/
def outputs (s : State) : Outputs where
  blOut := s.blOut
  blOe := s.blOe
  sckOut := s.sckOut
  sckOe := s.sckOe
  mosiOut := s.mosiOut
  csOut := s.csOut
  reqReady := s.mode == .idle
  busy := s.mode != .idle
  rspValid := s.rsp
  rspOk := true
  pwrOn := pwrBit s.pwrState
  reportedBrightness := s.reportedBrightness
  ackStatus := ackCode s.ackStatus
  evAckTimeout := s.evTo
  evHandshake := s.evHs
  cspDone := s.cspState == .done
  maxBrightness := maxBrightness

/-- The level at the pin of a line with an output enable (R14, R39). -/
def pinLevel (out oe : Bool) : Level :=
  if oe then (if out then .high else .low) else .z

/-- The levels of the four lines (R22, R39); MOSI and CS are always driven. -/
def lineLevel (s : State) : Line → Level
  | .bl => pinLevel s.blOut s.blOe
  | .sck => pinLevel s.sckOut s.sckOe
  | .mosi => pinLevel s.mosiOut true
  | .cs => pinLevel s.csOut true

end Sys2Proof.Machine
end

