-- ==== Sys2Proof/Machine/Scripts.lean ====
section
/-! DEFINITION. The scripts of the block, as the spec writes them: the handshake
(spec/40_handshake.md R100), the frame (spec/41_frame_encoder.md R111 to R117), the arbiter's operations
(spec/42_power_arbiter.md R142 to R144) and the player (spec/43_command_player.md R160 to R164). -/

namespace Sys2Proof.Machine

/-- `HS_SCRIPT` (R100). -/
def hsScript (c : Config) : Script :=
  [.ev .handshake,
   .drv .bl false, .wait c.hsResetLow,
   .drv .bl true, .wait c.hsHigh,
   .drv .bl false, .wait c.hsDetect,
   .drv .bl true]

/-- `SYM(bit)` (R113). -/
def symScript (c : Config) (bit : Bool) : Script :=
  if bit then [.drv .bl false, .wait c.feShort, .drv .bl true, .wait c.feLong]
  else [.drv .bl false, .wait c.feLong, .drv .bl true, .wait c.feShort]

/-- The acknowledgement window of a frame (R117), present only with `a` = 1. -/
def ackScript (a : Bool) : Script :=
  if a then [.rel .bl, .ackwin] else []

/-- `FRAME_SCRIPT(f, a)` (R111). -/
def frameScript (c : Config) (f : Frame16) (a : Bool) : Script :=
  [.drv .bl true, .wait c.feStart]
  ++ [15, 14, 13, 12, 11, 10, 9, 8].flatMap (fun j => symScript c (f.getLsbD j))
  ++ [.drv .bl false, .wait c.feGapLow, .drv .bl true, .wait c.feGapHigh]
  ++ [7, 6, 5, 4, 3, 2, 1, 0].flatMap (fun j => symScript c (f.getLsbD j))
  ++ [.drv .bl false, .wait c.feEos]
  ++ ackScript a
  ++ [.drv .bl true]

/-- `OFF_SCRIPT` (R142). -/
def offScript : Script :=
  [.drv .bl false, .set (.reportedBrightness 0#5), .set (.pwrState .off)]

/-- `POWER_UP_SCRIPT(l, a)` (R143). -/
def powerUpScript (c : Config) (l : Bright) (a : Bool) : Script :=
  hsScript c
  ++ [.set (.reportedBrightness l), .set (.pwrState .on)]
  ++ frameScript c (frameWord l a) a

/-- `UPDATE_SCRIPT(b, a)` (R144). -/
def updateScript (c : Config) (b : Bright) (a : Bool) : Script :=
  [.set (.reportedBrightness b), .set (.lastBrightness b)]
  ++ frameScript c (frameWord b a) a

/-- One bit of a word on the 3-wire bus: data, clock low, clock high (R162). -/
def bitScript (c : Config) (bit : Bool) : Script :=
  [.drv .mosi bit, .drv .sck false, .wait c.cspHalf, .drv .sck true, .wait c.cspHalf]

/-- `XMIT_SCRIPT(w)` (R162). -/
def xmitScript (c : Config) (d : W9) : Script :=
  [.drv .cs false]
  ++ [8, 7, 6, 5, 4, 3, 2, 1, 0].flatMap (fun j => bitScript c (d.getLsbD j))
  ++ [.drv .mosi false, .drv .cs true, .wait c.cspGap]

/-- `DELAY_SCRIPT` (R163). -/
def delayScript (c : Config) : Script :=
  [.wait c.cspDelay]

/-- An XMIT entry as it plays (R161, R162). -/
def xmitEntryScript (c : Config) (d : W9) : Script :=
  .set (.cspState .transmitting) :: xmitScript c d

/-- A DELAY entry as it plays (R161, R163). -/
def delayEntryScript (c : Config) : Script :=
  .set (.cspState .delaying) :: delayScript c

/-- `ENTRY_SCRIPT(i, e)` (R161); none for a malformed entry, which never reaches it. -/
def entryScript (c : Config) (i : Nat) (e : Cmd16) : Option Script :=
  match decodeCmd16 e with
  | .ok (.xmit d) => some (.set (.pc i) :: xmitEntryScript c d)
  | .ok .delay => some (.set (.pc i) :: delayEntryScript c)
  | _ => none

/-- The entries from index `i` on, in table order (R160, R161). -/
def entriesScript (c : Config) : Nat → Memory → Option Script
  | _, [] => some []
  | i, e :: es =>
    match entryScript c i e, entriesScript c (i + 1) es with
    | some a, some b => some (a ++ b)
    | _, _ => none

/-- The end of the player: the clock released, `pc` at N, DONE (R164). -/
def doneScript (c : Config) : Script :=
  [.rel .sck, .set (.pc c.cmdTable.length), .set (.cspState .done)]

/-- `ATTACH_SCRIPT` (R160). -/
def attachScript (c : Config) : Option Script :=
  match entriesScript c 0 c.cmdTable with
  | some es => some (es ++ doneScript c ++ hsScript c)
  | none => none

end Sys2Proof.Machine
end

