-- ==== Sys2Proof/Machine/Ops.lean ====
section
/-! DEFINITION. The shared operations of the machine: the micro-ops (spec/10_state.md R32), `advance`
(R38), starting and inserting a script (R35 to R37), the recovery from an acknowledgement timeout (R35;
spec/60_exceptions.md R186, R187) and the check of the configuration (spec/00_scope.md R9). -/

namespace Sys2Proof.Machine

/-- `DRV(L, v)` (R32). -/
def State.drive (l : Line) (v : Bool) (s : State) : State :=
  match l with
  | .bl => { s with blOut := v, blOe := true }
  | .sck => { s with sckOut := v, sckOe := true }
  | .mosi => { s with mosiOut := v }
  | .cs => { s with csOut := v }

/-- `REL(L)` (R32). -/
def State.release (l : FloatLine) (s : State) : State :=
  match l with
  | .bl => { s with blOe := false }
  | .sck => { s with sckOe := false }

/-- `SET(r, v)` (R32). -/
def State.setReg (r : RegWrite) (s : State) : State :=
  match r with
  | .pwrState v => { s with pwrState := v }
  | .lastBrightness v => { s with lastBrightness := v }
  | .reportedBrightness v => { s with reportedBrightness := v }
  | .cspState v => { s with cspState := v }
  | .pc v => { s with pc := v }

/-- `WAIT(d)` starts: `w` is loaded and `rest` is what stays queued (R38). -/
def State.startWait (d : Nat) (rest : Script) (s : State) : State :=
  { s with q := rest, w := ticks s.cfg d }

/-- `ACKWIN` starts (R38). -/
def State.startWindow (rest : Script) (s : State) : State :=
  { s with q := rest, w := ticks s.cfg s.cfg.ackBudget, aw := true, ao := 0, awSeen := false }

/-- The script has ended: IDLE, with the response when it came from a request (R38). -/
def State.finish (s : State) : State :=
  { s with q := [], mode := .idle, rsp := s.rsp || s.fromReq }

/-- `advance` on the script `q` (R38): the zero-cycle micro-ops up to a timed one or the end. -/
def advanceOn : Script → State → State
  | [], s => s.finish
  | .drv l v :: q, s => advanceOn q (s.drive l v)
  | .rel l :: q, s => advanceOn q (s.release l)
  | .set r :: q, s => advanceOn q (s.setReg r)
  | .ev e :: q, s => advanceOn q (s.raiseEvent e)
  | .wait d :: q, s => s.startWait d q
  | .ackwin :: q, s => s.startWindow q

/-- `advance(T)` (R38). -/
def advance (s : State) : State :=
  advanceOn s.q s

/-- RUN is entered for a script from a request or from attach, with the pulses cleared (R36, R37). -/
def State.beginRun (fromReq : Bool) (s : State) : State :=
  { s.clearPulses with mode := .run, fromReq := fromReq }

/-- The machine is in RUN. -/
def State.resume (s : State) : State :=
  { s with mode := .run }

/-- `w <- n` (R34). -/
def State.setTimer (n : Nat) (s : State) : State :=
  { s with w := n }

/-- A script starts in place of whatever was queued, and runs up to its first timed micro-op (R36, R37). -/
def startScript (q : Script) (fromReq : Bool) (s : State) : State :=
  advanceOn q (s.beginRun fromReq)

/-- The script of an accepted request starts (R36). -/
def acceptRequest (q : Script) (s : State) : State :=
  startScript q true s

/-- A script is put in front of the rest of the running one and runs up to its first timed micro-op
(R35: `Q := HS_SCRIPT ++ Q`). -/
def insertScript (q : Script) (s : State) : State :=
  advanceOn (q ++ s.q) s.resume

/-- Recovery entry, in the place of trap entry (R35, R186): the timeout is recorded, and the handshake
goes in front of what remains. Nothing is saved. The return (R187) is the rest of the queue: once the
inserted handshake has ended, the frame's closing `DRV(BL, 1)` runs and nothing is restored. -/
def takeAckTimeout (s : State) : State :=
  insertScript (hsScript s.cfg) (recordAckTimeout s)

/-- The first check of R9 that the configuration fails, by name (R183). -/
def configRefusal (c : Config) : Option Refusal :=
  if !c.timingLegal then some .illegalDuration
  else if !c.pollLegal then some .pollExceedsBudget
  else if !c.initBrightnessLegal then some .initBrightnessOutOfRange
  else if !Memory.wf c.cmdTable then some .malformedTable
  else none

end Sys2Proof.Machine
end

