-- ==== Sys2Proof/Machine/Arbiter.lean ====
section
/-! DEFINITION. The meanings of the requests and of the constant port (spec/42_power_arbiter.md). -/

namespace Sys2Proof.Machine

/-- SET_OFF_NOT_UNBLANKED (R141, R142); `k` and `b` are ignored. -/
def execSetOffNotUnblanked (_k : Bool) (_b : Bright) (s : State) : Host.Outcome State Fault Refusal :=
  .next (acceptRequest offScript s)

/-- SET_OFF_BLANKED (R141, R142); `b` is ignored. -/
def execSetOffBlanked (_b : Bright) (s : State) : Host.Outcome State Fault Refusal :=
  .next (acceptRequest offScript s)

/-- SET_ON.POWER_UP (R141, R143); `b` is ignored (R207). -/
def execSetOnPowerUp (_b : Bright) (s : State) : Host.Outcome State Fault Refusal :=
  .next (acceptRequest (powerUpScript s.cfg s.lastBrightness s.ackEn) s)

/-- SET_ON.UPDATE (R141, R144). -/
def execSetOnUpdate (b : Bright) (s : State) : Host.Outcome State Fault Refusal :=
  .next (acceptRequest (updateScript s.cfg b s.ackEn) s)

/-- GET_MAX_BRIGHTNESS (R146): the port `max_brightness` of `outputs` is read; no state is written and no
cycle passes. Log entry 11. -/
def execGetMaxBrightness (s : State) : Host.Outcome State Fault Refusal :=
  .next s

end Sys2Proof.Machine
end

