-- ==== Sys2Proof/Machine/Frame.lean ====
section
/-! DEFINITION. The meaning of FRAME_TX (spec/41_frame_encoder.md). -/

namespace Sys2Proof.Machine

/-- FRAME_TX (R111): the frame of `b` and `a` is built (R110) and its script goes in front of the rest
of the running script. -/
def execFrameTx (a : Bool) (b : Bright) (s : State) : Host.Outcome State Fault Refusal :=
  .next (insertScript (frameScript s.cfg (frameWord b a) a) s)

end Sys2Proof.Machine
end

