-- ==== Sys2Proof/Machine/Handshake.lean ====
section
/-! DEFINITION. The meaning of HANDSHAKE (spec/40_handshake.md). -/

namespace Sys2Proof.Machine

/-- HANDSHAKE (R100): `HS_SCRIPT`, in front of the rest of the running script (R101). -/
def execHandshake (s : State) : Host.Outcome State Fault Refusal :=
  .next (insertScript (hsScript s.cfg) s)

end Sys2Proof.Machine
end

