-- ==== Sys2Proof/Machine/Player.lean ====
section
/-! DEFINITION. The meanings of the command-table entries and of ATTACH (spec/43_command_player.md). -/

namespace Sys2Proof.Machine

/-- XMIT (R161, R162): the entry plays, in front of the rest of the running script. `pc` is already the
entry's index. -/
def execXmit (d : W9) (s : State) : Host.Outcome State Fault Refusal :=
  .next (insertScript (xmitEntryScript s.cfg d) s)

/-- DELAY (R161, R163). -/
def execDelay (s : State) : Host.Outcome State Fault Refusal :=
  .next (insertScript (delayEntryScript s.cfg) s)

/-- ATTACH (R37, R160). -/
def execAttach (s : State) : Host.Outcome State Fault Refusal :=
  match attachScript s.cfg with
  | some q => .next (startScript q false s)
  | none => .refused .malformedTable

end Sys2Proof.Machine
end

