-- ==== Sys2Proof/Machine/Dispatch.lean ====
section
/-! DEFINITION. The meaning of every instruction, by one arm each. -/

namespace Sys2Proof.Machine

def exec (i : Instr) (s : State) : Host.Outcome State Fault Refusal :=
  match i with
  | .setOffNotUnblanked k b => Sys2Proof.Machine.execSetOffNotUnblanked k b s
  | .setOffBlanked b => Sys2Proof.Machine.execSetOffBlanked b s
  | .setOnPowerUp b => Sys2Proof.Machine.execSetOnPowerUp b s
  | .setOnUpdate b => Sys2Proof.Machine.execSetOnUpdate b s
  | .getMaxBrightness => Sys2Proof.Machine.execGetMaxBrightness s
  | .xmit d => Sys2Proof.Machine.execXmit d s
  | .delay => Sys2Proof.Machine.execDelay s
  | .frameTx a b => Sys2Proof.Machine.execFrameTx a b s
  | .handshake => Sys2Proof.Machine.execHandshake s
  | .attach => Sys2Proof.Machine.execAttach s

end Sys2Proof.Machine
end

