-- ==== Sys2Proof/Machine/Cycle.lean ====
section
/-! DEFINITION. One cycle of the block, given its input values: `step(S, I)` of spec/10_state.md R33 to
R37; and where a code word stands for the next step to run it. -/

namespace Sys2Proof.Machine

/-- R34, before the end of the timed micro-op is looked at: the pulses are cleared and the window samples. -/
def runSample (i : Pins) (s : State) : State :=
  if s.aw then sampleAck i.blIn s.clearPulses else s.clearPulses

/-- R35 and the end of R34: the timed micro-op has ended. -/
def endTimed (s : State) : State :=
  if s.aw then
    if s.awSeen then advance (recordAckOk s) else takeAckTimeout s
  else advance s

/-- R34. A RUN state with `w` = 0 is reached by no run (R41); it is treated as the pseudocode does (log
entry 14). -/
def runCycle (i : Pins) (s : State) : State :=
  if 1 < s.w then (runSample i s).setTimer (s.w - 1) else endTimed ((runSample i s).setTimer 0)

/-- `step(S, I)`: R33 under reset, else R34, R36 or R37 by `mode`. -/
def cycleOn (i : Pins) (s : State) : Host.Outcome State Fault Refusal :=
  if i.rst then .next (State.afterReset s.cfg i.cfgAckEn s.inputs s.cycle)
  else
    match s.mode with
    | .boot => exec .attach s
    | .run => .next (runCycle i s)
    | .idle =>
      if i.reqValid then exec (decodeReq7 s.pwrState (reqWord i)) s
      else .next s.clearPulses

/-- One step: an illegal configuration has no behaviour (R9, R183; log entry 7); else one cycle on the
current input values. -/
def cycleStep (s : State) : Host.Outcome State Fault Refusal :=
  match configRefusal s.cfg with
  | some r => .refused r
  | none => cycleOn s.pins s.tick

/-- Input values with no reset and no request, the reset/data line high. -/
def quietPins : Pins where
  rst := false
  cfgAckEn := false
  reqValid := false
  reqUnblank := false
  reqBlank := false
  reqBright := 0#5
  blIn := true

/-- Input values that offer the request word `w` (R71). -/
def requestPins (w : Req7) : Pins :=
  { quietPins with
    reqValid := true
    reqUnblank := w.getLsbD 6
    reqBlank := w.getLsbD 5
    reqBright := w.extractLsb' 0 5 }

/-- Where each format stands for the next step to run it (log entry 9): a request at the request port of
an IDLE block; a table entry as the whole table of a block about to attach; a frame as the script queued
behind the last cycle of a timed micro-op. The constant port takes nothing. -/
def placeCode (c : Code) (s : State) : State :=
  match c with
  | .req7 w =>
    { s with mode := .idle, q := [], w := 0, aw := false, inputs := ⟨requestPins w, 0⟩ :: s.inputs }
  | .port5 _ => { s with inputs := ⟨quietPins, 0⟩ :: s.inputs }
  | .cmd16 e =>
    { s with
      mode := .boot, q := [], w := 0, aw := false
      cfg := { s.cfg with cmdTable := [e] }
      inputs := ⟨quietPins, 0⟩ :: s.inputs }
  | .frame16 f =>
    { s with
      mode := .run, q := frameScript s.cfg f (f.getLsbD 7), w := 1, aw := false, ackEn := f.getLsbD 7
      inputs := ⟨quietPins, 0⟩ :: s.inputs }

end Sys2Proof.Machine
end

