-- ==== Sys2Proof/Machine/Step.lean ====
section
/-! DEFINITION. The step, and the state in which the next step runs a given code word. -/

namespace Sys2Proof.Machine

/-- One cycle of the block. -/
def step (s : State) : Host.Outcome State Fault Refusal :=
  cycleStep s

/-- The state in which the next step runs the instruction of the table word `w` (log entries 8 and 9). -/
def State.withFetchWord (s : State) (nbits w : Nat) : State :=
  match codeOfBits nbits w with
  | some c => placeCode c s
  | none => s

end Sys2Proof.Machine
end

