-- ==== Sys2Proof/Safety.lean ====
section
/-! DEFINITION. The terms in which claims about the block are stated: runs and their input values,
reachable states, the lengths of scripts, the invariant every step keeps, the waveform a script stands
for, and the receivers that read a waveform back. -/

namespace Sys2Proof.Safety

open Sys2Proof.Machine

/-! ## Runs -/

/-- The input values of the `n`-th cycle from now. -/
def pinsAt (s : State) : Nat → Pins
  | 0 => s.pins
  | n + 1 => pinsAt s.tick n

/-- No reset in the next `n` cycles. -/
def NoReset (s : State) (n : Nat) : Prop :=
  ∀ k, k < n → (pinsAt s k).rst = false

/-- `n` steps, stopping at the first refusal (`Host.Core.run`, on the model's own types). -/
def runFor : Nat → State → Host.Outcome State Fault Refusal
  | 0, s => .next s
  | n + 1, s =>
    match Machine.step s with
    | .next t => runFor n t
    | .fault r => .fault r
    | .refused r => .refused r

/-- The states of runs that begin in reset (R41, R204, R205), in any legal configuration and with any
input values. -/
inductive Reachable : State → Prop where
  | reset (c : Config) (a : Bool) (inputs : List PinRun) (cycle : Nat) (h : c.legal = true) :
      Reachable (State.afterReset c a inputs cycle)
  | step (s t : State) (hs : Reachable s) (h : Machine.step s = .next t) : Reachable t

/-- The request inputs of the current cycle offer the word `w` (R71, R140). -/
def Offers (s : State) (w : Req7) : Prop :=
  s.pins.rst = false ∧ s.pins.reqValid = true ∧ reqWord s.pins = w

/-! ## Lengths, in ticks -/

/-- The cycles that a script's timed micro-ops take (R32). -/
def scriptTicks (c : Config) : Script → Nat
  | [] => 0
  | .wait d :: q => ticks c d + scriptTicks c q
  | .ackwin :: q => ticks c c.ackBudget + scriptTicks c q
  | .drv _ _ :: q => scriptTicks c q
  | .rel _ :: q => scriptTicks c q
  | .set _ :: q => scriptTicks c q
  | .ev _ :: q => scriptTicks c q

/-- H of R149: the handshake (R103). -/
def handshakeTicks (c : Config) : Nat :=
  ticks c c.hsResetLow + ticks c c.hsHigh + ticks c c.hsDetect

/-- F of R149: the frame without its window (R125). -/
def frameTicks (c : Config) : Nat :=
  ticks c c.feStart + 16 * (ticks c c.feShort + ticks c c.feLong)
    + ticks c c.feGapLow + ticks c c.feGapHigh + ticks c c.feEos

/-- W of R149: the acknowledgement window (R117). -/
def windowTicks (c : Config) : Nat :=
  ticks c c.ackBudget

/-- The duration of one table entry (R168). -/
def entryTicks (c : Config) (e : Cmd16) : Nat :=
  if e = delaySentinel then ticks c c.cspDelay
  else 18 * ticks c c.cspHalf + ticks c c.cspGap

/-- The duration of the player (R168). -/
def tableTicks (c : Config) : Memory → Nat
  | [] => 0
  | e :: es => entryTicks c e + tableTicks c es

/-- The largest tick count of a duration (R42). -/
def maxTicks (c : Config) : Nat :=
  c.durations.foldl (fun m d => max m (ticks c d)) 0

/-- A low sample falls on a sample point of the window whose first cycle is the `n`-th from now (R34, R118). -/
abbrev AckSeen (s : State) (n : Nat) : Prop :=
  ∃ k, k < windowTicks s.cfg ∧ k % ticks s.cfg s.cfg.ackPoll = 0 ∧ (pinsAt s (n + k)).blIn = false

/-- How the acknowledgement of a frame ends whose window begins in the `n`-th cycle from now: no window
(`none`, R117), acknowledged (R119), or timed out (R120). -/
def AckResult (s : State) (n : Nat) : AckStatus → Prop
  | .none => s.ackEn = false
  | .ok => s.ackEn = true ∧ AckSeen s n
  | .timeout => s.ackEn = true ∧ ¬ AckSeen s n

/-- `a*(W + t*H)` of R149. -/
def ackTicks (c : Config) : AckStatus → Nat
  | .none => 0
  | .ok => windowTicks c
  | .timeout => windowTicks c + handshakeTicks c

/-! ## The invariant -/

/-- What the invariant follows through a script. -/
structure View where
  ackEn : Bool
  pwr : PwrState
  last : Bright
  rep : Bright
  csp : CspState
  pc : Nat
  blOut : Bool
  blOe : Bool
  sckOe : Bool
  mosi : Bool
  cs : Bool
  /-- `ev_hs` or `ev_to` is set -/
  ev : Bool
  fromReq : Bool
  deriving DecidableEq, Repr

/-- The view of a state. -/
def view (s : State) : View where
  ackEn := s.ackEn
  pwr := s.pwrState
  last := s.lastBrightness
  rep := s.reportedBrightness
  csp := s.cspState
  pc := s.pc
  blOut := s.blOut
  blOe := s.blOe
  sckOe := s.sckOe
  mosi := s.mosiOut
  cs := s.csOut
  ev := s.evHs || s.evTo
  fromReq := s.fromReq

/-- R41.7, with R164 (after DONE), R169 and R165 (before it) and R163, R164 (the data and chip-select lines
move during XMIT only). -/
def View.Consistent (c : Config) (v : View) : Prop :=
  (v.pwr = .off → v.rep = 0#5) ∧ (v.pwr = .on → v.rep = v.last) ∧
  (v.csp = .done → v.pc = c.cmdTable.length ∧ v.sckOe = false) ∧
  (v.csp ≠ .done → v.pwr = .off ∧ v.sckOe = true ∧ v.blOe = true ∧ v.blOut = false) ∧
  (v.csp ≠ .transmitting → v.mosi = false ∧ v.cs = true) ∧
  (v.csp = .notStarted → v.pc = 0) ∧
  (v.csp = .transmitting ∨ v.csp = .delaying → v.pc < c.cmdTable.length)

/-- The rest of a running script keeps the invariant: at every timed micro-op and at the end the view is
as it must be, on both outcomes of a window. A running script writes neither `last_brightness` nor OFF: UPDATE
and OFF write them in the step that accepts the request (R142, R144); it writes ON only for a request (R143) and never goes back to NOT_STARTED (R165). -/
def ScriptOk (c : Config) : Script → View → Prop
  | [], v => v.Consistent c ∧ v.csp = .done ∧ v.blOe = true ∧ v.ev = false
  | .drv .bl x :: q, v => ScriptOk c q { v with blOut := x, blOe := true }
  | .drv .sck _ :: q, v => ScriptOk c q { v with sckOe := true }
  | .drv .mosi x :: q, v => ScriptOk c q { v with mosi := x }
  | .drv .cs x :: q, v => ScriptOk c q { v with cs := x }
  | .rel .bl :: q, v => ScriptOk c q { v with blOe := false }
  | .rel .sck :: q, v => ScriptOk c q { v with sckOe := false }
  | .set (.pwrState .on) :: q, v => v.fromReq = true ∧ ScriptOk c q { v with pwr := .on }
  | .set (.pwrState .off) :: _, _ => False
  | .set (.lastBrightness _) :: _, _ => False
  | .set (.reportedBrightness x) :: q, v => ScriptOk c q { v with rep := x }
  | .set (.cspState x) :: q, v => x ≠ .notStarted ∧ ScriptOk c q { v with csp := x }
  | .set (.pc x) :: q, v => v.pc ≤ x ∧ ScriptOk c q { v with pc := x }
  | .ev .handshake :: q, v => ScriptOk c q { v with ev := true }
  | .ev .ackTimeout :: _, _ => False
  | .wait d :: q, v =>
      d ∈ c.durations ∧ v.Consistent c ∧ v.blOe = true ∧ ScriptOk c q { v with ev := false }
  | .ackwin :: q, v =>
      v.Consistent c ∧ v.csp = .done ∧ v.ackEn = true ∧ v.blOe = false ∧
      ScriptOk c q { v with ev := false } ∧
      ScriptOk c q { v with ev := false, blOut := true, blOe := true }

/-- The invariant in BOOT (R40). -/
def BootInv (s : State) : Prop :=
  s.q = [] ∧ s.w = 0 ∧ s.aw = false ∧ s.cspState = .notStarted ∧
  s.evHs = false ∧ s.evTo = false ∧ s.rsp = false

/-- The invariant in IDLE (R41.1, R41.8, R185). -/
def IdleInv (s : State) : Prop :=
  s.q = [] ∧ s.w = 0 ∧ s.aw = false ∧ s.cspState = .done ∧ s.blOe = true ∧
  s.evHs = false ∧ s.evTo = false

/-- The invariant in RUN (R41.2, R41.3, R42, R185), with what the rest of the script keeps. -/
def RunInv (s : State) : Prop :=
  1 ≤ s.w ∧ s.w ≤ maxTicks s.cfg ∧ s.rsp = false ∧ (s.evTo = true → s.evHs = true) ∧
  (s.aw = false → s.blOe = true) ∧
  ScriptOk s.cfg s.q { view s with ev := false } ∧
  (s.aw = true →
    s.ackEn = true ∧ s.blOe = false ∧ s.cspState = .done ∧
    s.ao + s.w = windowTicks s.cfg ∧
    ScriptOk s.cfg s.q { view s with ev := false, blOut := true, blOe := true })

/-- The part of the invariant that depends on the mode. -/
def ModeInv (s : State) : Prop :=
  match s.mode with
  | .boot => BootInv s
  | .idle => IdleInv s
  | .run => RunInv s

/-- The invariant of the block. -/
def Inv (s : State) : Prop :=
  s.cfg.legal = true ∧ (view s).Consistent s.cfg ∧
  (s.ackEn = false → s.ackStatus = .none) ∧ s.ao ≤ windowTicks s.cfg ∧ ModeInv s

/-! ## Waveforms -/

/-- The six line registers (R30). -/
structure Lines where
  blOut : Bool
  blOe : Bool
  sckOut : Bool
  sckOe : Bool
  mosi : Bool
  cs : Bool
  deriving DecidableEq, Repr

/-- The line registers of a state. -/
def linesOf (s : State) : Lines where
  blOut := s.blOut
  blOe := s.blOe
  sckOut := s.sckOut
  sckOe := s.sckOe
  mosi := s.mosiOut
  cs := s.csOut

/-- The levels after a micro-op (R32). -/
def Lines.after (l : Lines) : MicroOp → Lines
  | .drv .bl x => { l with blOut := x, blOe := true }
  | .drv .sck x => { l with sckOut := x, sckOe := true }
  | .drv .mosi x => { l with mosi := x }
  | .drv .cs x => { l with cs := x }
  | .rel .bl => { l with blOe := false }
  | .rel .sck => { l with sckOe := false }
  | .set _ => l
  | .ev _ => l
  | .wait _ => l
  | .ackwin => l

/-- The levels at the end of a script. -/
def finalLines (q : Script) (l : Lines) : Lines :=
  q.foldl Lines.after l

/-- The waveform a script stands for, from the levels `l`: one segment for each timed micro-op, with the
levels it holds and its length in cycles (R32, R58). -/
def waveform (c : Config) : Script → Lines → List (Lines × Nat)
  | [], _ => []
  | .wait d :: q, l => (l, ticks c d) :: waveform c q l
  | .ackwin :: q, l => (l, ticks c c.ackBudget) :: waveform c q l
  | .drv x v :: q, l => waveform c q (l.after (.drv x v))
  | .rel x :: q, l => waveform c q (l.after (.rel x))
  | .set _ :: q, l => waveform c q l
  | .ev _ :: q, l => waveform c q l

/-- The levels a waveform shows, cycle by cycle. -/
def expand (wf : List (Lines × Nat)) : List Lines :=
  wf.flatMap (fun p => List.replicate p.2 p.1)

/-- A script with no acknowledgement window, all of whose waits are durations of the configuration. -/
def Windowless (c : Config) (q : Script) : Prop :=
  ∀ op ∈ q, op ≠ .ackwin ∧ ∀ d, op = .wait d → d ∈ c.durations

/-- Every wait of the script is a duration of the configuration. -/
def Timed (c : Config) (q : Script) : Prop :=
  ∀ d, .wait d ∈ q → d ∈ c.durations

/-- The script as it is played when its first micro-op runs in the `n`-th cycle from now: after a window that
sees no acknowledgement, the handshake stands in front of the rest (R35, R120). -/
def playedScript (s : State) : Nat → Script → Script
  | _, [] => []
  | n, .wait d :: q => .wait d :: playedScript s (n + ticks s.cfg d) q
  | n, .ackwin :: q =>
    .ackwin ::
      if AckSeen s n then playedScript s (n + windowTicks s.cfg) q
      else hsScript s.cfg ++ playedScript s (n + windowTicks s.cfg + handshakeTicks s.cfg) q
  | n, .drv x v :: q => .drv x v :: playedScript s n q
  | n, .rel x :: q => .rel x :: playedScript s n q
  | n, .set x :: q => .set x :: playedScript s n q
  | n, .ev x :: q => .ev x :: playedScript s n q

/-- Levels and lengths of the segments on the reset/data line. -/
def blSegments (wf : List (Lines × Nat)) : List (Level × Nat) :=
  wf.map (fun p => (pinLevel p.1.blOut p.1.blOe, p.2))

/-- The two phases of a bit on the reset/data line, as R113 gives them. -/
def bitSegments (c : Config) (bit : Bool) : List (Level × Nat) :=
  if bit then [(.low, ticks c c.feShort), (.high, ticks c c.feLong)]
  else [(.low, ticks c c.feLong), (.high, ticks c c.feShort)]

/-- A frame on the reset/data line up to the end of its end-of-sequence low, as the table of R125 gives it, row by row:
the start condition, the address byte (bits f[15] to f[8]), the gap, the data byte (bits f[7] to f[0]) and the end of
sequence (R112 to R116). It is written from the table and not from the script. -/
def frameSegments (c : Config) (f : Frame16) : List (Level × Nat) :=
  [(.high, ticks c c.feStart)]
  ++ (List.range 8).flatMap (fun j => bitSegments c (f.getLsbD (15 - j)))
  ++ [(.low, ticks c c.feGapLow), (.high, ticks c c.feGapHigh)]
  ++ (List.range 8).flatMap (fun j => bitSegments c (f.getLsbD (7 - j)))
  ++ [(.low, ticks c c.feEos)]

/-- The cycles that segments take. -/
def segmentTicks (segs : List (Level × Nat)) : Nat :=
  (segs.map Prod.snd).sum

/-- The reader of spec/95_test_vectors.md V23, at the default timing: a low of 10 ticks is a 1, a low of
30 ticks is a 0, any other segment carries no bit. -/
def readFrameBits : List (Level × Nat) → List Bool
  | [] => []
  | (l, n) :: rest =>
    if l = .low ∧ n = 10 then true :: readFrameBits rest
    else if l = .low ∧ n = 30 then false :: readFrameBits rest
    else readFrameBits rest

/-- A reader of the 3-wire bus: the data at each rising clock edge with chip-select low. `was` is the clock level
before the segments. That it samples at the rising edge is the model's choice (DESIGN CHOICE, log entry 17): which
edge the LCD controller samples on is not in the source (R78, N7), and no definition of the machine uses this reader. -/
def readWordBits (was : Bool) : List (Lines × Nat) → List Bool
  | [] => []
  | (l, _) :: rest =>
    if was = false ∧ l.sckOut = true ∧ l.cs = false then l.mosi :: readWordBits l.sckOut rest
    else readWordBits l.sckOut rest

/-- The bits of a word, most significant first. -/
def msbFirst {n : Nat} (w : BitVec n) : List Bool :=
  (List.range n).map (fun j => w.getLsbD (n - 1 - j))

end Sys2Proof.Safety
end

