-- ==== Sys2Proof/Certificates/Slice0/Obligations.lean ====
section
/-! DEFINITION. The statements about the block. Each says which rule of the spec it formalises; where it
rests on a choice of the model, it names the log entry. -/

open Sys2Proof Sys2Proof.Machine Sys2Proof.Safety

/-! ## Encodings -/

/-- Words written out from the encodings decode to the instructions they stand for
(spec/95_test_vectors.md V1 to V8d, V16, V17). -/
def Obligations.SpecWordsDecode : Prop :=
  decode .off (.req7 0x00#7) = .ok (.setOffNotUnblanked false 0#5) ∧
  decode .off (.req7 0x1F#7) = .ok (.setOffNotUnblanked false 31#5) ∧
  decode .on (.req7 0x31#7) = .ok (.setOffNotUnblanked true 17#5) ∧
  decode .on (.req7 0x60#7) = .ok (.setOffBlanked 0#5) ∧
  decode .off (.req7 0x5F#7) = .ok (.setOnPowerUp 31#5) ∧
  decode .on (.req7 0x5F#7) = .ok (.setOnUpdate 31#5) ∧
  decode .off (.port5 0x1F#5) = .ok .getMaxBrightness ∧
  decode .off (.cmd16 0x0198#16) = .ok (.xmit 0x198#9) ∧
  decode .off (.cmd16 0x01FF#16) = .ok (.xmit 0x1FF#9) ∧
  decode .off (.cmd16 0xFFFF#16) = .ok .delay ∧
  decode .off (.frame16 0x5814#16) = .ok (.frameTx false 20#5) ∧
  decode .off (.frame16 0x5895#16) = .ok (.frameTx true 21#5)

/-- Every instruction that has an encoding is read back from it, in every power state that selects it
(R72, R73, R75, R80, R82). -/
def Obligations.DecodeOfEncode : Prop :=
  ∀ (i : Instr) (p : PwrState) (c : Code),
    encode i = some c → i.selectedBy p = true → decode p c = .ok i

/-- Every code word has at most one meaning: what is decoded from it encodes to it again, and is selected by
the power state (R72, R74, R75, R80). -/
def Obligations.EncodeOfDecode : Prop :=
  ∀ (i : Instr) (p : PwrState) (c : Code),
    decode p c = .ok i → encode i = some c ∧ i.selectedBy p = true

/-- R74: what each of the 65 536 entries decodes to, and that a table holding a malformed one is refused. -/
def Obligations.EntryDecoding : Prop :=
  (∀ e : Cmd16, e.toNat = 0xFFFF → decodeCmd16 e = .ok .delay) ∧
  (∀ e : Cmd16, e.toNat ≤ 0x1FF → decodeCmd16 e = .ok (.xmit (e.setWidth 9))) ∧
  (∀ e : Cmd16, 0x200 ≤ e.toNat → e.toNat ≤ 0xFFFE →
    decodeCmd16 e = .error (.malformedEntry e) ∧
    ∀ s : State, e ∈ s.cfg.cmdTable → ∃ r, step s = .refused r)

/-! ## The configuration -/

/-- R9: which configurations are legal, that any other is given no behaviour, that a legal one never stops at
run time, and the facts about the defaults. -/
def Obligations.ConfigurationLegality : Prop :=
  (∀ c : Config, c.legal = true ↔
    (0 < c.clkPeriod ∧ (∀ d ∈ c.durations, 0 < d ∧ d % c.clkPeriod = 0)) ∧
    c.ackPoll ≤ c.ackBudget ∧ c.initLastBrightness ≤ 31 ∧
    ∀ e ∈ c.cmdTable, e.toNat ≤ 0x1FF ∨ e.toNat = 0xFFFF) ∧
  (∀ s : State, s.cfg.legal = false → ∃ r, step s = .refused r) ∧
  (∀ s : State, s.cfg.legal = true → ∃ t, step s = .next t) ∧
  (∀ d ∈ Config.default.durations, d % 500 = 0 ∧ Config.default.ackPoll ≤ d) ∧
  Config.default.ackPoll = 3500 ∧ ticks Config.default Config.default.ackPoll = 7

/-- R10: the ticks of a duration, and the table of default tick counts. -/
def Obligations.DefaultTicks : Prop :=
  (∀ (c : Config) (d : Nat), ticks c d = d / c.clkPeriod) ∧
  (let c := Config.default
   ticks c c.hsResetLow = 8000 ∧ ticks c c.hsHigh = 200 ∧ ticks c c.hsDetect = 900 ∧
   ticks c c.feStart = 8 ∧ ticks c c.feGapLow = 8 ∧ ticks c c.feGapHigh = 8 ∧ ticks c c.feEos = 8 ∧
   ticks c c.cspHalf = 8 ∧ ticks c c.cspGap = 8 ∧ ticks c c.feShort = 10 ∧ ticks c c.feLong = 30 ∧
   ticks c c.ackBudget = 1800 ∧ ticks c c.ackPoll = 7 ∧ ticks c c.cspDelay = 200000)

/-- The command ROM and every other parameter are never written, by a step or by an instruction (R51, R60). -/
def Obligations.ConfigurationNeverChanges : Prop :=
  (∀ s t : State, step s = .next t → t.cfg = s.cfg) ∧
  (∀ (i : Instr) (s t : State), exec i s = .next t → t.cfg = s.cfg)

/-! ## The frame value -/

/-- R110: the frame, its corner cases and its examples. -/
def Obligations.FrameValue : Prop :=
  (∀ (b : Bright) (a : Bool),
    frameWord b a = 0x5800#16 ||| (if a then 0x80#16 else 0#16) ||| (b.setWidth 16 &&& 0x1F#16) ∧
    b.setWidth 16 &&& 0x1F#16 = b.setWidth 16 ∧
    (frameWord b a).toNat = 0x5800 + (if a then 128 else 0) + b.toNat) ∧
  frameWord 0#5 false = 0x5800#16 ∧ frameWord 0#5 true = 0x5880#16 ∧
  frameWord 31#5 false = 0x581F#16 ∧ frameWord 31#5 true = 0x589F#16 ∧
  frameWord 20#5 false = 0x5814#16 ∧ frameWord 21#5 true = 0x5895#16

/-- The frame built from `b` and `a` is the code word of FRAME_TX: `01011000a00bbbbb` (R75, R79). -/
def Obligations.FrameShape : Prop :=
  ∀ (b : Bright) (a : Bool),
    encode (.frameTx a b) = some (.frame16 (frameWord b a)) ∧
    (frameWord b a).extractLsb' 8 8 = 0x58#8 ∧ (frameWord b a).getLsbD 7 = a ∧
    (frameWord b a).extractLsb' 5 2 = 0#2 ∧ (frameWord b a).extractLsb' 0 5 = b

/-! ## The step -/

/-- R33: a cycle with `rst` = 1 loads `S_reset(cfg_ack_en)`, from every state and whatever the other inputs. -/
def Obligations.ResetCycle : Prop :=
  ∀ s : State, s.cfg.legal = true → s.pins.rst = true →
    ∃ t, step s = .next t ∧
      t.mode = .boot ∧ t.q = [] ∧ t.w = 0 ∧ t.aw = false ∧ t.ao = 0 ∧ t.awSeen = false ∧ t.fromReq = false ∧
      t.evHs = false ∧ t.evTo = false ∧ t.rsp = false ∧
      t.pwrState = .off ∧ t.lastBrightness.toNat = s.cfg.initLastBrightness ∧ t.reportedBrightness = 0#5 ∧
      t.ackEn = s.pins.cfgAckEn ∧ t.ackStatus = .none ∧ t.cspState = .notStarted ∧ t.pc = 0 ∧
      t.blOut = false ∧ t.blOe = true ∧ t.sckOut = true ∧ t.sckOe = true ∧ t.mosiOut = false ∧ t.csOut = true

/-- The model's own reset state is `S_reset` in the default configuration; its `cfg_ack_en` = 0 (log entry 5),
`INIT_LAST_BRIGHTNESS` = 31 (log entry 3), empty table (log entry 4) and empty input list (log entry 1) are the
model's choices. -/
def Obligations.ModelResetState : Prop :=
  State.reset = State.afterReset Config.default false [] 0 ∧ Config.default.legal = true ∧
  State.reset.mode = .boot ∧ State.reset.pwrState = .off ∧ State.reset.reportedBrightness = 0#5 ∧
  lineLevel State.reset .bl = .low ∧ lineLevel State.reset .sck = .high ∧
  lineLevel State.reset .mosi = .low ∧ lineLevel State.reset .cs = .high

/-- R37: the step in BOOT, and that request inputs are ignored in BOOT and RUN. -/
def Obligations.BootStep : Prop :=
  (∀ s : State, s.cfg.legal = true → s.mode = .boot → s.pins.rst = false →
    ∃ q, attachScript s.cfg = some q ∧
      step s = .next (advance { s.tick with
        evHs := false, evTo := false, rsp := false, q := q, mode := .run, fromReq := false })) ∧
  (∀ (s : State) (i j : Pins), s.mode ≠ .idle → i.rst = j.rst → i.cfgAckEn = j.cfgAckEn → i.blIn = j.blIn →
    cycleOn i s = cycleOn j s)

/-- R36 and R141: the step in IDLE, with the dispatch on the state of the accepting cycle; a request is accepted in no
other mode, and IDLE is what `req_ready` shows. -/
def Obligations.IdleStep : Prop :=
  (∀ s : State, s.cfg.legal = true → s.mode = .idle → s.pins.rst = false →
    (s.pins.reqValid = false →
      step s = .next { s.tick with evHs := false, evTo := false, rsp := false }) ∧
    (s.pins.reqValid = true →
      step s = .next (advance { s.tick with
        evHs := false, evTo := false, rsp := false, mode := .run, fromReq := true
        q :=
          if s.pins.reqUnblank = false ∨ s.pins.reqBlank = true then offScript
          else if s.pwrState = .off then powerUpScript s.cfg s.lastBrightness s.ackEn
          else updateScript s.cfg s.pins.reqBright s.ackEn }))) ∧
  (∀ (s : State) (i : Pins), s.mode ≠ .idle → cycleOn i s = cycleOn { i with reqValid := false } s) ∧
  (∀ s : State, (outputs s).reqReady = true ↔ s.mode = .idle)

/-- R34 and R35: the step while a timed micro-op runs, and how an acknowledgement window resolves. -/
def Obligations.RunStep : Prop :=
  ∀ s : State, s.cfg.legal = true → s.mode = .run → s.pins.rst = false →
    (1 < s.w → s.aw = false →
      step s = .next { s.tick with evHs := false, evTo := false, rsp := false, w := s.w - 1 }) ∧
    (s.w ≤ 1 → s.aw = false →
      step s = .next (advance { s.tick with evHs := false, evTo := false, rsp := false, w := 0 })) ∧
    (∀ seen : Bool,
      (seen = true ↔ s.awSeen = true ∨ (s.ao % ticks s.cfg s.cfg.ackPoll = 0 ∧ s.pins.blIn = false)) →
      s.aw = true →
      (1 < s.w →
        step s = .next { s.tick with
          evHs := false, evTo := false, rsp := false, w := s.w - 1, ao := s.ao + 1, awSeen := seen }) ∧
      (s.w ≤ 1 → seen = true →
        step s = .next (advance { s.tick with
          evHs := false, evTo := false, rsp := false, w := 0, ao := s.ao + 1, awSeen := true
          aw := false, ackStatus := .ok })) ∧
      (s.w ≤ 1 → seen = false →
        step s = .next (advance { s.tick with
          evHs := false, evTo := true, rsp := false, w := 0, ao := s.ao + 1, awSeen := false
          aw := false, ackStatus := .timeout, q := hsScript s.cfg ++ s.q })))

/-- R38: `advance`, micro-op by micro-op (with the effects of R32). -/
def Obligations.AdvanceSteps : Prop :=
  ∀ (s : State) (q : Script),
    (s.q = [] → advance s = { s with mode := .idle, rsp := if s.fromReq then true else s.rsp }) ∧
    (∀ v, s.q = .drv .bl v :: q → advance s = advance { s with q := q, blOut := v, blOe := true }) ∧
    (∀ v, s.q = .drv .sck v :: q → advance s = advance { s with q := q, sckOut := v, sckOe := true }) ∧
    (∀ v, s.q = .drv .mosi v :: q → advance s = advance { s with q := q, mosiOut := v }) ∧
    (∀ v, s.q = .drv .cs v :: q → advance s = advance { s with q := q, csOut := v }) ∧
    (s.q = .rel .bl :: q → advance s = advance { s with q := q, blOe := false }) ∧
    (s.q = .rel .sck :: q → advance s = advance { s with q := q, sckOe := false }) ∧
    (∀ v, s.q = .set (.pwrState v) :: q → advance s = advance { s with q := q, pwrState := v }) ∧
    (∀ v, s.q = .set (.lastBrightness v) :: q → advance s = advance { s with q := q, lastBrightness := v }) ∧
    (∀ v, s.q = .set (.reportedBrightness v) :: q → advance s = advance { s with q := q, reportedBrightness := v }) ∧
    (∀ v, s.q = .set (.cspState v) :: q → advance s = advance { s with q := q, cspState := v }) ∧
    (∀ v, s.q = .set (.pc v) :: q → advance s = advance { s with q := q, pc := v }) ∧
    (s.q = .ev .handshake :: q → advance s = advance { s with q := q, evHs := true }) ∧
    (s.q = .ev .ackTimeout :: q → advance s = advance { s with q := q, evTo := true }) ∧
    (∀ d, s.q = .wait d :: q → advance s = { s with q := q, w := ticks s.cfg d }) ∧
    (s.q = .ackwin :: q →
      advance s = { s with q := q, w := ticks s.cfg s.cfg.ackBudget, aw := true, ao := 0, awSeen := false })

/-- R39: every output is a function of the state. -/
def Obligations.OutputFunctions : Prop :=
  ∀ s : State,
    outputs s =
      { blOut := s.blOut, blOe := s.blOe, sckOut := s.sckOut, sckOe := s.sckOe
        mosiOut := s.mosiOut, csOut := s.csOut
        reqReady := decide (s.mode = .idle), busy := decide (s.mode ≠ .idle)
        rspValid := s.rsp, rspOk := true
        pwrOn := decide (s.pwrState = .on), reportedBrightness := s.reportedBrightness
        ackStatus := (match s.ackStatus with | .none => 0b00#2 | .ok => 0b01#2 | .timeout => 0b10#2)
        evAckTimeout := s.evTo, evHandshake := s.evHs
        cspDone := decide (s.cspState = .done), maxBrightness := 31#5 } ∧
    lineLevel s .bl = (if s.blOe then (if s.blOut then .high else .low) else .z) ∧
    lineLevel s .sck = (if s.sckOe then (if s.sckOut then .high else .low) else .z)

/-- Which inputs a cycle without reset can depend on: none in BOOT; in RUN `bl_in` alone, and only at a sample
point of a window that has seen no low; in IDLE the request alone (R20, R27, R55, R104, R118). -/
def Obligations.OtherInputsIgnored : Prop :=
  ∀ (s : State) (i j : Pins), i.rst = false → j.rst = false →
    (s.mode = .boot → cycleOn i s = cycleOn j s) ∧
    (s.mode = .run →
      (s.aw = true → s.awSeen = false → s.ao % ticks s.cfg s.cfg.ackPoll = 0 → i.blIn = j.blIn) →
      cycleOn i s = cycleOn j s) ∧
    (s.mode = .idle → i.reqValid = j.reqValid → (i.reqValid = true → reqWord i = reqWord j) →
      cycleOn i s = cycleOn j s)

/-- A step runs the decoded instruction, at the request port and in BOOT: the input values are used up, and
nothing else is added around `exec` (R36, R37, R72). -/
def Obligations.StepRunsDecodedRequest : Prop :=
  (∀ (s : State) (w : Req7) (i : Instr), s.cfg.legal = true → s.mode = .idle → Offers s w →
    decode s.pwrState (.req7 w) = .ok i → step s = exec i s.tick) ∧
  (∀ s : State, s.cfg.legal = true → s.mode = .boot → s.pins.rst = false → step s = exec .attach s.tick)

/-- A step runs the decoded table entry: in BOOT the one of index 0, and later the one of index `n` when the
script before it ends. `pc` is set to the index, the pulses are cleared, and the rest of the script stays
queued (R52, R161). What `exec` of an entry takes from the state it runs on is log entry 13. -/
def Obligations.StepRunsTableEntry : Prop :=
  (∀ (s : State) (e : Cmd16) (es : Memory) (i : Instr), s.cfg.legal = true → s.mode = .boot → s.pins.rst = false →
    s.cfg.cmdTable = e :: es → decode s.pwrState (.cmd16 e) = .ok i →
    ∃ rest, entriesScript s.cfg 1 es = some rest ∧
      step s = exec i { s.tick with
        evHs := false, evTo := false, rsp := false, fromReq := false, pc := 0
        q := rest ++ doneScript s.cfg ++ hsScript s.cfg }) ∧
  (∀ (s : State) (n : Nat) (e : Cmd16) (es rest : Script) (i : Instr), s.cfg.legal = true → s.mode = .run →
    s.pins.rst = false → s.w ≤ 1 → s.aw = false →
    entryScript s.cfg n e = some es → s.q = es ++ rest → decode s.pwrState (.cmd16 e) = .ok i →
    step s = exec i { s.tick with evHs := false, evTo := false, rsp := false, w := 0, pc := n, q := rest })

/-- A step runs the inserted handshake and the frame: where a script goes on with the handshake or with the frame
of `b` and `a`, and where a window times out (R35, R101, R111, R120). -/
def Obligations.StepRunsInsertedScript : Prop :=
  ∀ (s : State) (rest : Script), s.cfg.legal = true → s.mode = .run → s.pins.rst = false → s.w ≤ 1 →
    (s.aw = false → s.q = hsScript s.cfg ++ rest →
      step s = exec .handshake { s.tick with evHs := false, evTo := false, rsp := false, w := 0, q := rest }) ∧
    (∀ (a : Bool) (b : Bright), s.aw = false → s.q = frameScript s.cfg (frameWord b a) a ++ rest →
      step s = exec (.frameTx a b) { s.tick with evHs := false, evTo := false, rsp := false, w := 0, q := rest }) ∧
    (s.aw = true → s.awSeen = false → (s.ao % ticks s.cfg s.cfg.ackPoll = 0 → s.pins.blIn = true) →
      step s = exec .handshake { s.tick with
        evHs := false, evTo := true, rsp := false, w := 0, ao := s.ao + 1
        aw := false, ackStatus := .timeout })

/-! ## What each instruction does -/

/-- R142: both OFF requests, on every state and all operands: the next state in full, so that all else is
unchanged; and a step that accepts either word does just that, in one cycle. -/
def Obligations.OffRequests : Prop :=
  ∀ s : State,
    (∀ (k : Bool) (b : Bright), exec (.setOffNotUnblanked k b) s = .next { s with
      blOut := false, blOe := true, reportedBrightness := 0#5, pwrState := .off
      evHs := false, evTo := false, rsp := true, mode := .idle, q := [], fromReq := true }) ∧
    (∀ b : Bright, exec (.setOffBlanked b) s = .next { s with
      blOut := false, blOe := true, reportedBrightness := 0#5, pwrState := .off
      evHs := false, evTo := false, rsp := true, mode := .idle, q := [], fromReq := true }) ∧
    (∀ w : Req7, s.cfg.legal = true → s.mode = .idle → Offers s w → w.getLsbD 6 = false ∨ w.getLsbD 5 = true →
      step s = .next { s.tick with
        blOut := false, blOe := true, reportedBrightness := 0#5, pwrState := .off
        evHs := false, evTo := false, rsp := true, q := [], fromReq := true })

/-- SET_ON.POWER_UP starts its handshake and queues the rest; `b` plays no part (R143, R207). R143 gives this for
`pwr_state` = OFF; that the meaning does not test `pwr_state`, so that this holds in every state, is the model's
choice (log entry 13). -/
def Obligations.PowerUpStarts : Prop :=
  ∀ (b : Bright) (s : State),
    exec (.setOnPowerUp b) s = .next { s with
      evHs := true, evTo := false, rsp := false, mode := .run, fromReq := true
      blOut := false, blOe := true, w := ticks s.cfg s.cfg.hsResetLow
      q :=
        [.drv .bl true, .wait s.cfg.hsHigh, .drv .bl false, .wait s.cfg.hsDetect, .drv .bl true,
         .set (.reportedBrightness s.lastBrightness), .set (.pwrState .on)]
        ++ frameScript s.cfg (frameWord s.lastBrightness s.ackEn) s.ackEn }

/-- SET_ON.UPDATE writes both brightness registers, starts the frame of `b` and queues its rest (R144). R144 gives
this for `pwr_state` = ON; that the meaning does not test `pwr_state`, so that this holds in every state, is the
model's choice (log entry 13). -/
def Obligations.UpdateStarts : Prop :=
  ∀ (b : Bright) (s : State),
    exec (.setOnUpdate b) s = .next { s with
      reportedBrightness := b, lastBrightness := b
      evHs := false, evTo := false, rsp := false, mode := .run, fromReq := true
      blOut := true, blOe := true, w := ticks s.cfg s.cfg.feStart
      q := (frameScript s.cfg (frameWord b s.ackEn) s.ackEn).drop 2 }

/-- The constant port shows 31 in every state (R146). That GET_MAX_BRIGHTNESS as an instruction takes no cycle and
leaves the state as it is, is the model's reading (log entry 11). -/
def Obligations.MaxBrightnessPort : Prop :=
  ∀ s : State, exec .getMaxBrightness s = .next s ∧ (outputs s).maxBrightness = 31#5

/-- XMIT starts: TRANSMITTING, chip-select low, the first bit on the data line, clock low (R161, R162). That the
meaning sets the mode to RUN, leaves `pc` and the pulses alone and puts the script in front of the rest of the queue
is the model's choice (log entry 13). -/
def Obligations.XmitStarts : Prop :=
  ∀ (d : W9) (s : State),
    exec (.xmit d) s = .next { s with
      mode := .run, cspState := .transmitting, csOut := false
      mosiOut := d.getLsbD 8, sckOut := false, sckOe := true, w := ticks s.cfg s.cfg.cspHalf
      q := (xmitScript s.cfg d).drop 4 ++ s.q }

/-- DELAY starts: DELAYING, and no line moves (R161, R163). That the meaning sets the mode to RUN, leaves `pc` and
the pulses alone and keeps the rest queued is the model's choice (log entry 13). -/
def Obligations.DelayStarts : Prop :=
  ∀ s : State,
    exec .delay s = .next { s with
      mode := .run, cspState := .delaying, w := ticks s.cfg s.cfg.cspDelay, q := s.q }

/-- FRAME_TX starts with its start condition (R111, R112). That it is an instruction of its own, which sets the mode
to RUN, leaves the pulses alone and puts its script in front of the rest of the queue, is the model's choice (log
entry 13). -/
def Obligations.FrameStarts : Prop :=
  ∀ (a : Bool) (b : Bright) (s : State),
    exec (.frameTx a b) s = .next { s with
      mode := .run, blOut := true, blOe := true, w := ticks s.cfg s.cfg.feStart
      q := (frameScript s.cfg (frameWord b a) a).drop 2 ++ s.q }

/-- HANDSHAKE starts with its event and the hard-reset low (R100, R182). That it is an instruction of its own, which
sets the mode to RUN, leaves the other pulses alone and puts its script in front of the rest of the queue, is the
model's choice (log entry 13). -/
def Obligations.HandshakeStarts : Prop :=
  ∀ s : State,
    exec .handshake s = .next { s with
      mode := .run, evHs := true, blOut := false, blOe := true, w := ticks s.cfg s.cfg.hsResetLow
      q :=
        [.drv .bl true, .wait s.cfg.hsHigh, .drv .bl false, .wait s.cfg.hsDetect, .drv .bl true]
        ++ s.q }

/-- ATTACH starts: with an empty table the clock floats and the handshake begins (R167); else entry 0 plays
(R160, R161). -/
def Obligations.AttachStarts : Prop :=
  ∀ s : State, s.cfg.legal = true →
    (s.cfg.cmdTable = [] →
      exec .attach s = .next { s with
        mode := .run, fromReq := false, evHs := true, evTo := false, rsp := false
        sckOe := false, pc := 0, cspState := .done
        blOut := false, blOe := true, w := ticks s.cfg s.cfg.hsResetLow
        q := [.drv .bl true, .wait s.cfg.hsHigh, .drv .bl false, .wait s.cfg.hsDetect, .drv .bl true] }) ∧
    (∀ (d : W9) (es : Memory), s.cfg.cmdTable = d.setWidth 16 :: es →
      ∃ q, exec .attach s = .next { s with
        mode := .run, fromReq := false, evHs := false, evTo := false, rsp := false
        pc := 0, cspState := .transmitting, csOut := false, mosiOut := d.getLsbD 8
        sckOut := false, sckOe := true, w := ticks s.cfg s.cfg.cspHalf, q := q }) ∧
    (∀ es : Memory, s.cfg.cmdTable = 0xFFFF#16 :: es →
      ∃ q, exec .attach s = .next { s with
        mode := .run, fromReq := false, evHs := false, evTo := false, rsp := false
        pc := 0, cspState := .delaying, w := ticks s.cfg s.cfg.cspDelay, q := q })

/-- The attach script plays the entry that `RomRead` gives for each index, once and in increasing order, then floats
the clock, sets `pc` to N and DONE, and runs the handshake (R52, R160, R161, R164). That `RomRead` gives nothing from
index N on, where no rule reads, is the model's choice (last clause; log entry 6). -/
def Obligations.AttachPlaysTheTable : Prop :=
  ∀ c : Config, c.legal = true →
    (∃ parts : List Script, parts.length = c.cmdTable.length ∧
      (∀ i, i < c.cmdTable.length → ∃ e, romRead c.cmdTable i = some e ∧
        ((e = 0xFFFF#16 ∧ parts[i]? = some (.set (.pc i) :: .set (.cspState .delaying) :: delayScript c)) ∨
          (∃ d : W9, e = d.setWidth 16 ∧
            parts[i]? = some (.set (.pc i) :: .set (.cspState .transmitting) :: xmitScript c d)))) ∧
      attachScript c = some (parts.flatten
        ++ [.rel .sck, .set (.pc c.cmdTable.length), .set (.cspState .done)] ++ hsScript c)) ∧
    ∀ i, c.cmdTable.length ≤ i → romRead c.cmdTable i = none

/-- Two UPDATEs with the same brightness start and queue the same frame, whatever else differs (R124). -/
def Obligations.UpdatesAreIdempotent : Prop :=
  ∀ (b : Bright) (s s' t t' : State), s.cfg = s'.cfg → s.ackEn = s'.ackEn →
    exec (.setOnUpdate b) s = .next t → exec (.setOnUpdate b) s' = .next t' →
    t.q = t'.q ∧ t.w = t'.w ∧ t.blOut = t'.blOut ∧ t.blOe = t'.blOe

/-- The lines of the 3-wire bus, the player's registers, the acknowledgement registers and the configuration are
moved by no request in the step that accepts it (R164, R169, R27, R28); a later step of the operation writes
`ack_status` when its window ends. -/
def Obligations.RequestFrame : Prop :=
  ∀ (i : Instr) (p : PwrState) (w : Req7) (s t : State),
    decode p (.req7 w) = .ok i → exec i s = .next t →
    t.sckOut = s.sckOut ∧ t.sckOe = s.sckOe ∧ t.mosiOut = s.mosiOut ∧ t.csOut = s.csOut ∧
    t.cspState = s.cspState ∧ t.pc = s.pc ∧ t.ackEn = s.ackEn ∧ t.ackStatus = s.ackStatus ∧ t.cfg = s.cfg ∧
    t.inputs = s.inputs ∧ t.cycle = s.cycle

/-! ## Whole operations -/

/-- An UPDATE, cycle by cycle, from the cycle after its acceptance to its response, for every way its
acknowledgement can end: the registers, the pulses, the six line registers and the duration (R117 to R122, R125, R144,
R145, R149). -/
def Obligations.UpdateOperation : Prop :=
  ∀ (s : State) (b : Bright) (r : AckStatus),
    s.cfg.legal = true → s.mode = .idle → s.aw = false → s.pwrState = .on →
    Offers s (BitVec.ofBool true ++ BitVec.ofBool false ++ b) →
    AckResult s (1 + frameTicks s.cfg) r →
    NoReset s (1 + frameTicks s.cfg + ackTicks s.cfg r) →
    ∀ k, 0 < k → k ≤ 1 + frameTicks s.cfg + ackTicks s.cfg r →
      ∃ u, runFor k s = .next u ∧
        u.reportedBrightness = b ∧ u.lastBrightness = b ∧ u.pwrState = .on ∧
        u.ackEn = s.ackEn ∧ u.cspState = s.cspState ∧ u.pc = s.pc ∧
        (u.mode = if k = 1 + frameTicks s.cfg + ackTicks s.cfg r then .idle else .run) ∧
        u.rsp = decide (k = 1 + frameTicks s.cfg + ackTicks s.cfg r) ∧
        (u.evTo = true ↔ r = .timeout ∧ k = 1 + frameTicks s.cfg + windowTicks s.cfg) ∧
        (u.evHs = true ↔ r = .timeout ∧ k = 1 + frameTicks s.cfg + windowTicks s.cfg) ∧
        (u.ackStatus =
          if r ≠ .none ∧ 1 + frameTicks s.cfg + windowTicks s.cfg ≤ k then r else s.ackStatus) ∧
        (k < 1 + frameTicks s.cfg + ackTicks s.cfg r →
          (expand (waveform s.cfg (playedScript s 1 (updateScript s.cfg b s.ackEn)) (linesOf s)))[k - 1]? =
            some (linesOf u)) ∧
        (k = 1 + frameTicks s.cfg + ackTicks s.cfg r →
          linesOf u = finalLines (playedScript s 1 (updateScript s.cfg b s.ackEn)) (linesOf s) ∧
          u.blOut = true ∧ u.blOe = true)

/-- A POWER_UP, cycle by cycle: the handshake, the status writes after it, the frame of the remembered
brightness, the acknowledgement, and the six line registers (R117 to R122, R125, R143, R145, R149, R207). -/
def Obligations.PowerUpOperation : Prop :=
  ∀ (s : State) (b : Bright) (r : AckStatus),
    s.cfg.legal = true → s.mode = .idle → s.aw = false → s.pwrState = .off →
    Offers s (BitVec.ofBool true ++ BitVec.ofBool false ++ b) →
    AckResult s (1 + handshakeTicks s.cfg + frameTicks s.cfg) r →
    NoReset s (1 + handshakeTicks s.cfg + frameTicks s.cfg + ackTicks s.cfg r) →
    ∀ k, 0 < k → k ≤ 1 + handshakeTicks s.cfg + frameTicks s.cfg + ackTicks s.cfg r →
      ∃ u, runFor k s = .next u ∧
        (u.reportedBrightness = if k ≤ handshakeTicks s.cfg then s.reportedBrightness else s.lastBrightness) ∧
        (u.pwrState = if k ≤ handshakeTicks s.cfg then .off else .on) ∧
        u.lastBrightness = s.lastBrightness ∧
        u.ackEn = s.ackEn ∧ u.cspState = s.cspState ∧ u.pc = s.pc ∧
        (k = 1 + handshakeTicks s.cfg →
          u.q = (frameScript s.cfg (frameWord s.lastBrightness s.ackEn) s.ackEn).drop 2) ∧
        (u.mode =
          if k = 1 + handshakeTicks s.cfg + frameTicks s.cfg + ackTicks s.cfg r then .idle else .run) ∧
        u.rsp = decide (k = 1 + handshakeTicks s.cfg + frameTicks s.cfg + ackTicks s.cfg r) ∧
        (u.evTo = true ↔
          r = .timeout ∧ k = 1 + handshakeTicks s.cfg + frameTicks s.cfg + windowTicks s.cfg) ∧
        (u.evHs = true ↔ k = 1 ∨
          r = .timeout ∧ k = 1 + handshakeTicks s.cfg + frameTicks s.cfg + windowTicks s.cfg) ∧
        (u.ackStatus =
          if r ≠ .none ∧ 1 + handshakeTicks s.cfg + frameTicks s.cfg + windowTicks s.cfg ≤ k then r
          else s.ackStatus) ∧
        (k < 1 + handshakeTicks s.cfg + frameTicks s.cfg + ackTicks s.cfg r →
          (expand (waveform s.cfg (playedScript s 1 (powerUpScript s.cfg s.lastBrightness s.ackEn))
            (linesOf s)))[k - 1]? = some (linesOf u)) ∧
        (k = 1 + handshakeTicks s.cfg + frameTicks s.cfg + ackTicks s.cfg r →
          linesOf u = finalLines (playedScript s 1 (powerUpScript s.cfg s.lastBrightness s.ackEn)) (linesOf s) ∧
          u.blOut = true ∧ u.blOe = true)

/-- The attach sequence, cycle by cycle, for every legal table: busy until the player and the handshake have
run, then IDLE with no response (R160, R164, R168, R202, R203, R214). -/
def Obligations.AttachOperation : Prop :=
  ∀ s : State, s.cfg.legal = true → s.mode = .boot → s.aw = false →
    NoReset s (1 + tableTicks s.cfg s.cfg.cmdTable + handshakeTicks s.cfg) →
    (∀ k, 0 < k → k < 1 + tableTicks s.cfg s.cfg.cmdTable + handshakeTicks s.cfg →
      ∃ u, runFor k s = .next u ∧ u.mode = .run ∧ u.rsp = false ∧ u.evTo = false ∧
        (u.evHs = true ↔ k = 1 + tableTicks s.cfg s.cfg.cmdTable) ∧
        (u.cspState = .done ↔ 1 + tableTicks s.cfg s.cfg.cmdTable ≤ k)) ∧
    ∃ t, runFor (1 + tableTicks s.cfg s.cfg.cmdTable + handshakeTicks s.cfg) s = .next t ∧
      t.mode = .idle ∧ t.rsp = false ∧ t.evHs = false ∧ t.evTo = false ∧
      t.cspState = .done ∧ t.pc = s.cfg.cmdTable.length ∧ t.sckOe = false ∧
      t.blOut = true ∧ t.blOe = true ∧
      t.pwrState = s.pwrState ∧ t.lastBrightness = s.lastBrightness ∧
      t.reportedBrightness = s.reportedBrightness ∧ t.ackStatus = s.ackStatus ∧ t.ackEn = s.ackEn

/-- The round trip UPDATE(b), OFF, SET_ON: however the last acknowledgement ends, the last frame starts with the same
queue, timer and line as the first. Where it does not time out, the last operation raises one handshake, in its first
cycle, from there to its response; where it does, one more, as the window ends (R148; 90_conflicts.md C2). `D` is the
number of cycles from the acceptance of the UPDATE to its response; OFF is accepted in that cycle and SET_ON in the
next. -/
def Obligations.RoundTrip : Prop :=
  ∀ (s : State) (b b' : Bright) (r : AckStatus) (off : Req7) (D : Nat),
    s.cfg.legal = true → s.mode = .idle → s.aw = false → s.pwrState = .on →
    Offers s (BitVec.ofBool true ++ BitVec.ofBool false ++ b) →
    AckResult s (1 + frameTicks s.cfg) r →
    D = 1 + frameTicks s.cfg + ackTicks s.cfg r →
    (off.getLsbD 6 = false ∨ off.getLsbD 5 = true) →
    (pinsAt s D).reqValid = true → reqWord (pinsAt s D) = off →
    (pinsAt s (D + 1)).reqValid = true →
    reqWord (pinsAt s (D + 1)) = BitVec.ofBool true ++ BitVec.ofBool false ++ b' →
    NoReset s (D + 2 + handshakeTicks s.cfg) →
    (∃ v u, runFor 1 s = .next v ∧ runFor (D + 2 + handshakeTicks s.cfg) s = .next u ∧
      v.q = u.q ∧ v.w = u.w ∧ v.blOut = u.blOut ∧ v.blOe = u.blOe ∧
      v.q = (frameScript s.cfg (frameWord b s.ackEn) s.ackEn).drop 2 ∧
      u.pwrState = .on ∧ u.reportedBrightness = b ∧ u.lastBrightness = b) ∧
    ∀ r' : AckStatus,
      AckResult s (D + 2 + handshakeTicks s.cfg + frameTicks s.cfg) r' →
      NoReset s (D + 2 + handshakeTicks s.cfg + frameTicks s.cfg + ackTicks s.cfg r') →
      ∀ j, j ≤ handshakeTicks s.cfg + frameTicks s.cfg + ackTicks s.cfg r' →
        ∃ x, runFor (D + 2 + j) s = .next x ∧
          (r' ≠ .timeout → (x.evHs = true ↔ j = 0)) ∧
          (r' = .timeout →
            (x.evHs = true ↔ j = 0 ∨ j = handshakeTicks s.cfg + frameTicks s.cfg + windowTicks s.cfg)) ∧
          x.rsp = decide (j = handshakeTicks s.cfg + frameTicks s.cfg + ackTicks s.cfg r')

/-- The lengths of the scripts in every configuration (R103, R125, R168). -/
def Obligations.ScriptDurations : Prop :=
  ∀ c : Config,
    scriptTicks c (hsScript c) = handshakeTicks c ∧
    (∀ (f : Frame16) (a : Bool),
      scriptTicks c (frameScript c f a) = frameTicks c + if a then windowTicks c else 0) ∧
    (∀ (n : Nat) (e : Cmd16) (q : Script), entryScript c n e = some q → scriptTicks c q = entryTicks c e) ∧
    (∀ q : Script, attachScript c = some q →
      scriptTicks c q = tableTicks c c.cmdTable + handshakeTicks c)

/-- The durations of R149, R103, R125 and R168 at the default timing. -/
def Obligations.DefaultDurations : Prop :=
  let c := Config.default
  handshakeTicks c = 9100 ∧ frameTicks c = 672 ∧ windowTicks c = 1800 ∧
  1 + frameTicks c + ackTicks c .none = 673 ∧ 1 + frameTicks c + ackTicks c .ok = 2473 ∧
  1 + frameTicks c + ackTicks c .timeout = 11573 ∧
  1 + handshakeTicks c + frameTicks c + ackTicks c .none = 9773 ∧
  1 + handshakeTicks c + frameTicks c + ackTicks c .ok = 11573 ∧
  1 + handshakeTicks c + frameTicks c + ackTicks c .timeout = 20673 ∧
  entryTicks c 0x198#16 = 152 ∧ entryTicks c 0xFFFF#16 = 200000

/-! ## Waveforms -/

/-- Any script, started in any state, shows on the six line registers exactly the waveform of the script as it is
played, one segment after the other with no cycle between, and then the block is IDLE with the script's last levels.
As it is played: after a window that ends with no acknowledgement the handshake stands in front of the rest; a script
without a window is played as it is (R5, R32, R34, R35, R38, R58, R104, R117, R126). -/
def Obligations.ScriptsRunAsTheirWaveforms : Prop :=
  ∀ (q : Script) (fromReq : Bool) (s : State), s.cfg.legal = true → s.aw = false → Timed s.cfg q →
    NoReset s (scriptTicks s.cfg (playedScript s 0 q)) →
    (.ackwin ∉ q → playedScript s 0 q = q) ∧
    (expand (waveform s.cfg (playedScript s 0 q) (linesOf s))).length = scriptTicks s.cfg (playedScript s 0 q) ∧
    (∀ k, k < scriptTicks s.cfg (playedScript s 0 q) →
      ∃ u, runFor k (startScript q fromReq s) = .next u ∧ u.mode = .run ∧ u.rsp = false ∧
        (expand (waveform s.cfg (playedScript s 0 q) (linesOf s)))[k]? = some (linesOf u)) ∧
    ∃ t, runFor (scriptTicks s.cfg (playedScript s 0 q)) (startScript q fromReq s) = .next t ∧
      t.mode = .idle ∧ t.rsp = fromReq ∧ t.q = [] ∧ linesOf t = finalLines (playedScript s 0 q) (linesOf s)

/-- The reset/data line of a frame, segment by segment, in every configuration: high for the start condition; the
bits f[15] to f[8]; one gap, low then high, there and nowhere else; the bits f[7] to f[0]; low for the end of sequence.
Without a window that is all, and it ends driven high; the other lines do not move. The two last clauses place each bit,
the gap and the end of sequence at the offsets of R125 (R111 to R116, R121, R125; S3, V21). -/
def Obligations.FrameWaveform : Prop :=
  ∀ (c : Config) (f : Frame16) (l : Lines),
    blSegments (waveform c (frameScript c f false) l) = frameSegments c f ∧
    (∀ p ∈ waveform c (frameScript c f false) l,
      p.1.sckOut = l.sckOut ∧ p.1.sckOe = l.sckOe ∧ p.1.mosi = l.mosi ∧ p.1.cs = l.cs) ∧
    finalLines (frameScript c f false) l = { l with blOut := true, blOe := true } ∧
    (∀ j, j ≤ 8 →
      segmentTicks ((blSegments (waveform c (frameScript c f false) l)).take (1 + 2 * j)) =
        ticks c c.feStart + j * (ticks c c.feShort + ticks c c.feLong)) ∧
    (∀ j, j ≤ 8 →
      segmentTicks ((blSegments (waveform c (frameScript c f false) l)).take (19 + 2 * j)) =
        ticks c c.feStart + 8 * (ticks c c.feShort + ticks c c.feLong) + ticks c c.feGapLow + ticks c c.feGapHigh
          + j * (ticks c c.feShort + ticks c c.feLong))

/-- The whole waveform of the frame 0x5814 without a window at the default timing (V21). -/
def Obligations.FrameExample : Prop :=
  ∀ l : Lines,
    blSegments (waveform Config.default (frameScript Config.default 0x5814#16 false) l) =
      [(.high, 8),
       (.low, 30), (.high, 10), (.low, 10), (.high, 30), (.low, 30), (.high, 10), (.low, 10), (.high, 30),
       (.low, 10), (.high, 30), (.low, 30), (.high, 10), (.low, 30), (.high, 10), (.low, 30), (.high, 10),
       (.low, 8), (.high, 8),
       (.low, 30), (.high, 10), (.low, 30), (.high, 10), (.low, 30), (.high, 10), (.low, 10), (.high, 30),
       (.low, 30), (.high, 10), (.low, 10), (.high, 30), (.low, 30), (.high, 10), (.low, 30), (.high, 10),
       (.low, 8)]

/-- The reset/data line of a frame with an acknowledgement window: the segments of R125's table, then the line
released for the window, then, where no low falls on a sample point, a handshake; it ends driven high (R111 to R117,
R119, R120, R121, R125; V22). -/
def Obligations.AckFrameWaveform : Prop :=
  ∀ (s : State) (n : Nat) (f : Frame16) (l : Lines),
    blSegments (waveform s.cfg (playedScript s n (frameScript s.cfg f true)) l) =
      frameSegments s.cfg f ++ [(.z, windowTicks s.cfg)] ++
        (if AckSeen s (n + frameTicks s.cfg) then []
         else [(.low, ticks s.cfg s.cfg.hsResetLow), (.high, ticks s.cfg s.cfg.hsHigh),
           (.low, ticks s.cfg s.cfg.hsDetect)]) ∧
    (finalLines (playedScript s n (frameScript s.cfg f true)) l).blOut = true ∧
    (finalLines (playedScript s n (frameScript s.cfg f true)) l).blOe = true

/-- The reset/data line of the two operations, segment by segment, as UpdateOperation and PowerUpOperation speak of it
(through `waveform` of `playedScript`): an UPDATE shows the frame of its `b`, and a POWER_UP first the three segments of
its handshake and then the frame of the remembered brightness; with `ack_en` = 1 the window follows, and where it sees
no low a handshake (R100, R103, R111, R117, R119, R120, R125, R143, R144). -/
def Obligations.OperationWaveforms : Prop :=
  ∀ (s : State) (n : Nat) (b : Bright) (l : Lines),
    let hs : List (Level × Nat) :=
      [(.low, ticks s.cfg s.cfg.hsResetLow), (.high, ticks s.cfg s.cfg.hsHigh), (.low, ticks s.cfg s.cfg.hsDetect)]
    let window : Nat → List (Level × Nat) := fun m =>
      if s.ackEn then (.z, windowTicks s.cfg) :: if AckSeen s m then [] else hs else []
    blSegments (waveform s.cfg (playedScript s n (updateScript s.cfg b s.ackEn)) l) =
      frameSegments s.cfg (frameWord b s.ackEn) ++ window (n + frameTicks s.cfg) ∧
    blSegments (waveform s.cfg (playedScript s n (powerUpScript s.cfg s.lastBrightness s.ackEn)) l) =
      hs ++ frameSegments s.cfg (frameWord s.lastBrightness s.ackEn)
        ++ window (n + handshakeTicks s.cfg + frameTicks s.cfg)

/-- The segments of the handshake: low, high, low, each with its own length; it ends by driving the line high
(R100, R103). -/
def Obligations.HandshakeWaveform : Prop :=
  ∀ (c : Config) (l : Lines),
    blSegments (waveform c (hsScript c) l) =
      [(.low, ticks c c.hsResetLow), (.high, ticks c c.hsHigh), (.low, ticks c c.hsDetect)] ∧
    (hsScript c).getLast? = some (.drv .bl true)

/-- A bit symbol is a low and a high phase whose split tells the bit and whose sum does not (R77, R113). -/
def Obligations.SymbolWaveform : Prop :=
  ∀ (c : Config) (l : Lines) (bit : Bool),
    blSegments (waveform c (symScript c bit) l) =
      (if bit then [(.low, ticks c c.feShort), (.high, ticks c c.feLong)]
       else [(.low, ticks c c.feLong), (.high, ticks c c.feShort)]) ∧
    scriptTicks c (symScript c bit) = ticks c c.feShort + ticks c c.feLong

/-- A receiver that measures the lows of a frame's waveform reads back the frame, most significant bit first, at the
default timing and with or without a window (R53, R77, R114, R115; V23). -/
def Obligations.FrameReadBack : Prop :=
  ∀ (f : Frame16) (a : Bool) (l : Lines),
    readFrameBits (blSegments (waveform Config.default (frameScript Config.default f a) l)) = msbFirst f

/-- The word on the 3-wire bus, in every configuration: for each bit, most significant first, the data line holds it
with the clock low and then with the clock high, each for one half-period, under chip-select; then the gap (R53, R78,
R162). A receiver that samples at the rising clock edges reads the nine bits back; that it samples at that edge is the
model's choice (log entry 17). -/
def Obligations.WordReadBack : Prop :=
  ∀ (c : Config) (d : W9) (l : Lines) (was : Bool),
    (waveform c (xmitScript c d) l).map (fun p => (p.1.mosi, p.1.sckOut, p.1.cs, p.2)) =
      (msbFirst d).flatMap (fun b => [(b, false, false, ticks c c.cspHalf), (b, true, false, ticks c c.cspHalf)])
        ++ [(false, true, true, ticks c c.cspGap)] ∧
    readWordBits was (waveform c (xmitScript c d) l) = msbFirst d ∧
    (waveform c (xmitScript c d) l).length = 19

/-! ## Invariants -/

/-- Every step keeps the invariant, from every state that meets it. -/
def Obligations.StepKeepsInvariant : Prop :=
  ∀ s t : State, Inv s → step s = .next t → Inv t

/-- The invariant holds right after reset, in every legal configuration. -/
def Obligations.ResetMeetsInvariant : Prop :=
  (∀ (c : Config) (a : Bool) (inputs : List PinRun) (cycle : Nat), c.legal = true →
    Inv (State.afterReset c a inputs cycle)) ∧ Inv State.reset

/-- R41: the nine invariants of every reachable state. -/
def Obligations.ReachableStates : Prop :=
  ∀ s : State, Reachable s →
    (s.mode = .idle → s.q = [] ∧ s.w = 0 ∧ s.aw = false) ∧
    (s.mode = .run → 1 ≤ s.w) ∧
    (s.aw = true → s.blOe = false ∧ s.ao < ticks s.cfg s.cfg.ackBudget) ∧
    (s.lastBrightness.toNat ≤ 31 ∧ s.reportedBrightness.toNat ≤ 31) ∧
    ((outputs s).ackStatus ≠ 0b11#2) ∧
    (s.ackEn = false → s.ackStatus = .none) ∧
    ((s.pwrState = .off → s.reportedBrightness = 0#5) ∧
      (s.pwrState = .on → s.reportedBrightness = s.lastBrightness)) ∧
    (s.mode = .idle → s.cspState = .done ∧ s.pc = s.cfg.cmdTable.length) ∧
    (∀ t, step s = .next t → s.pins.rst = false → t.ackEn = s.ackEn)

/-- The response pulse never comes with an event pulse, comes only in IDLE, and a timeout pulse always comes
with a handshake pulse (R185). -/
def Obligations.PulsesNeverCollide : Prop :=
  ∀ s : State, Reachable s →
    (s.rsp = true → s.evHs = false ∧ s.evTo = false ∧ s.mode = .idle) ∧
    (s.evTo = true → s.evHs = true ∧ s.mode = .run)

/-- The block drives the reset/data line in every cycle except those of a window; the 3-wire lines rest and the clock
floats once the player is DONE; until then the reset/data line is driven low (R164, R169, R211). -/
def Obligations.LineOwnership : Prop :=
  ∀ s : State, Reachable s →
    (lineLevel s .bl = .z ↔ s.aw = true) ∧
    (s.cspState = .done → lineLevel s .sck = .z ∧ lineLevel s .mosi = .low ∧ lineLevel s .cs = .high) ∧
    (s.cspState ≠ .done → lineLevel s .bl = .low ∧ lineLevel s .sck ≠ .z ∧ s.pwrState = .off)

/-- `last_brightness` is written only by an UPDATE, in the step that accepts it (R25). -/
def Obligations.LastBrightnessWriter : Prop :=
  ∀ s t : State, Inv s → step s = .next t → s.pins.rst = false →
    t.lastBrightness = s.lastBrightness ∨
    ∃ b, s.mode = .idle ∧ s.pwrState = .on ∧
      Offers s (BitVec.ofBool true ++ BitVec.ofBool false ++ b) ∧ t.lastBrightness = b

/-- The chip is turned off only by an OFF request that is accepted, and turned on only as a timed micro-op of a
request's script ends, by a write of ON that is queued behind it (R24, R142, R143). -/
def Obligations.PowerStateWriters : Prop :=
  ∀ s t : State, Inv s → step s = .next t → s.pins.rst = false →
    (s.pwrState = .on → t.pwrState = .off →
      s.mode = .idle ∧ s.pins.reqValid = true ∧ (s.pins.reqUnblank = false ∨ s.pins.reqBlank = true)) ∧
    (s.pwrState = .off → t.pwrState = .on →
      s.mode = .run ∧ s.w ≤ 1 ∧ s.fromReq = true ∧ .set (.pwrState .on) ∈ s.q)

/-- The player never goes back: `pc` never falls and never passes N, DONE lasts until a reset, and NOT_STARTED is not
entered again (R29, R165, R203). -/
def Obligations.PlayerNeverGoesBack : Prop :=
  ∀ s t : State, Inv s → step s = .next t → s.pins.rst = false →
    s.pc ≤ t.pc ∧ t.pc ≤ s.cfg.cmdTable.length ∧ (s.cspState = .done → t.cspState = .done) ∧
    (s.cspState ≠ .notStarted → t.cspState ≠ .notStarted)

/-- The counters stay within what R42 gives them: `w` within the largest tick count of a duration, `ao` within
the window. -/
def Obligations.CountersBounded : Prop :=
  ∀ s : State, Reachable s →
    s.w ≤ maxTicks s.cfg ∧ s.ao ≤ windowTicks s.cfg ∧ s.pc ≤ s.cfg.cmdTable.length ∧
    (s.cfg.durations = Config.default.durations → s.cfg.clkPeriod = 500 → s.w < 2 ^ 18 ∧ s.ao < 2 ^ 11)
end

