-- ==== Sys2Proof/Laws/Config.lean ====
section
/-! SUPPORT. The checks of the configuration, the ticks of its durations, and the table entries (spec/00_scope.md R9, R10;
spec/30_encoding.md R74). -/

namespace Sys2Proof.Laws

open Sys2Proof Sys2Proof.Machine Sys2Proof.Safety

/-! ## The configuration -/

theorem configRefusal_none_iff (c : Config) : configRefusal c = none ↔ c.legal = true := by
  unfold configRefusal Config.legal
  cases c.timingLegal <;> cases c.pollLegal <;> cases c.initBrightnessLegal <;>
    cases Memory.wf c.cmdTable <;> simp

theorem step_eq {s : State} (h : s.cfg.legal = true) : step s = cycleOn s.pins s.tick := by
  simp [step, cycleStep, (configRefusal_none_iff s.cfg).2 h]

theorem step_legal {s t : State} (h : step s = .next t) : s.cfg.legal = true := by
  rw [← configRefusal_none_iff]
  unfold step cycleStep at h
  split at h
  · cases h
  · assumption

theorem legal_timing {c : Config} (h : c.legal = true) : c.timingLegal = true := by
  simp only [Config.legal, Bool.and_eq_true] at h
  exact h.1.1.1

theorem ticks_pos {c : Config} (h : c.legal = true) {d : Nat} (hd : d ∈ c.durations) :
    1 ≤ ticks c d := by
  have ht := legal_timing h
  simp only [Config.timingLegal, Bool.and_eq_true, decide_eq_true_eq, List.all_eq_true] at ht
  have hl := ht.2 d hd
  simp only [durationLegal, Bool.and_eq_true, decide_eq_true_eq, beq_iff_eq] at hl
  exact Nat.div_pos (Nat.le_of_dvd hl.1 (Nat.dvd_of_mod_eq_zero hl.2)) ht.1

theorem le_foldl_max (f : Nat → Nat) (l : List Nat) (a : Nat) :
    a ≤ l.foldl (fun m d => max m (f d)) a ∧ ∀ d ∈ l, f d ≤ l.foldl (fun m d => max m (f d)) a := by
  induction l generalizing a with
  | nil => simp
  | cons x l ih =>
    have h := ih (max a (f x))
    refine ⟨le_trans (le_max_left _ _) h.1, fun d hd => ?_⟩
    rcases List.mem_cons.1 hd with rfl | hd
    · exact le_trans (le_max_right _ _) h.1
    · exact h.2 d hd

theorem ticks_le_maxTicks {c : Config} {d : Nat} (hd : d ∈ c.durations) : ticks c d ≤ maxTicks c :=
  (le_foldl_max (ticks c) c.durations 0).2 d hd

theorem entryLegal_iff (e : Cmd16) :
    entryLegal e = true ↔ decodeCmd16 e = .ok .delay ∨ ∃ d, decodeCmd16 e = .ok (.xmit d) := by
  unfold entryLegal decodeCmd16
  by_cases h1 : e = delaySentinel <;> by_cases h2 : e.extractLsb' 9 7 = 0#7 <;> simp [h1, h2]

theorem extract_zero (e : Cmd16) : e.extractLsb' 9 7 = 0#7 ↔ e.toNat ≤ 0x1FF := by
  rw [← BitVec.toNat_inj]
  simp [Nat.shiftRight_eq_div_pow]
  have := e.isLt
  omega

theorem entryLegal_range (e : Cmd16) : entryLegal e = true ↔ e.toNat ≤ 0x1FF ∨ e.toNat = 0xFFFF := by
  unfold entryLegal
  rw [Bool.or_eq_true, beq_iff_eq, beq_iff_eq, extract_zero, delaySentinel, ← BitVec.toNat_inj]
  rfl

/-- The command ROM of a legal configuration is in its form, and what a read of it gives is a legal entry. -/
theorem legal_rom {c : Config} (h : c.legal = true) : Memory.wf c.cmdTable = true := by
  simp only [Config.legal, Bool.and_eq_true] at h
  exact h.2

theorem romRead_legal {m : Memory} (h : Memory.wf m = true) {i : Nat} {e : Cmd16} (he : romRead m i = some e) :
    entryLegal e = true :=
  List.all_eq_true.1 h e (List.mem_of_getElem? he)

/-- `RomRead` reads the indices below N and no other. -/
theorem romRead_isSome_iff (m : Memory) (i : Nat) : (romRead m i).isSome = true ↔ i < m.length := by
  simp [romRead]

theorem rom_reset : Memory.wf State.reset.cfg.cmdTable = true := by decide

end Sys2Proof.Laws
end

