-- ==== Sys2Proof/Laws/State.lean ====
section
/-! SUPPORT. One lemma per field for each named update of the state, so that no proof unfolds one. -/

namespace Sys2Proof.Machine

variable (s : State)

@[simp] theorem tick_mode : (s.tick).mode = s.mode := rfl
@[simp] theorem tick_q : (s.tick).q = s.q := rfl
@[simp] theorem tick_w : (s.tick).w = s.w := rfl
@[simp] theorem tick_aw : (s.tick).aw = s.aw := rfl
@[simp] theorem tick_ao : (s.tick).ao = s.ao := rfl
@[simp] theorem tick_awSeen : (s.tick).awSeen = s.awSeen := rfl
@[simp] theorem tick_fromReq : (s.tick).fromReq = s.fromReq := rfl
@[simp] theorem tick_evHs : (s.tick).evHs = s.evHs := rfl
@[simp] theorem tick_evTo : (s.tick).evTo = s.evTo := rfl
@[simp] theorem tick_rsp : (s.tick).rsp = s.rsp := rfl
@[simp] theorem tick_pwrState : (s.tick).pwrState = s.pwrState := rfl
@[simp] theorem tick_lastBrightness : (s.tick).lastBrightness = s.lastBrightness := rfl
@[simp] theorem tick_reportedBrightness : (s.tick).reportedBrightness = s.reportedBrightness := rfl
@[simp] theorem tick_ackEn : (s.tick).ackEn = s.ackEn := rfl
@[simp] theorem tick_ackStatus : (s.tick).ackStatus = s.ackStatus := rfl
@[simp] theorem tick_cspState : (s.tick).cspState = s.cspState := rfl
@[simp] theorem tick_pc : (s.tick).pc = s.pc := rfl
@[simp] theorem tick_blOut : (s.tick).blOut = s.blOut := rfl
@[simp] theorem tick_blOe : (s.tick).blOe = s.blOe := rfl
@[simp] theorem tick_sckOut : (s.tick).sckOut = s.sckOut := rfl
@[simp] theorem tick_sckOe : (s.tick).sckOe = s.sckOe := rfl
@[simp] theorem tick_mosiOut : (s.tick).mosiOut = s.mosiOut := rfl
@[simp] theorem tick_csOut : (s.tick).csOut = s.csOut := rfl
@[simp] theorem tick_cfg : (s.tick).cfg = s.cfg := rfl
@[simp] theorem tick_inputs : (s.tick).inputs = laterInputs s.inputs := rfl
@[simp] theorem tick_cycle : (s.tick).cycle = s.cycle + 1 := rfl

@[simp] theorem clearPulses_mode : (s.clearPulses).mode = s.mode := rfl
@[simp] theorem clearPulses_q : (s.clearPulses).q = s.q := rfl
@[simp] theorem clearPulses_w : (s.clearPulses).w = s.w := rfl
@[simp] theorem clearPulses_aw : (s.clearPulses).aw = s.aw := rfl
@[simp] theorem clearPulses_ao : (s.clearPulses).ao = s.ao := rfl
@[simp] theorem clearPulses_awSeen : (s.clearPulses).awSeen = s.awSeen := rfl
@[simp] theorem clearPulses_fromReq : (s.clearPulses).fromReq = s.fromReq := rfl
@[simp] theorem clearPulses_evHs : (s.clearPulses).evHs = false := rfl
@[simp] theorem clearPulses_evTo : (s.clearPulses).evTo = false := rfl
@[simp] theorem clearPulses_rsp : (s.clearPulses).rsp = false := rfl
@[simp] theorem clearPulses_pwrState : (s.clearPulses).pwrState = s.pwrState := rfl
@[simp] theorem clearPulses_lastBrightness : (s.clearPulses).lastBrightness = s.lastBrightness := rfl
@[simp] theorem clearPulses_reportedBrightness : (s.clearPulses).reportedBrightness = s.reportedBrightness := rfl
@[simp] theorem clearPulses_ackEn : (s.clearPulses).ackEn = s.ackEn := rfl
@[simp] theorem clearPulses_ackStatus : (s.clearPulses).ackStatus = s.ackStatus := rfl
@[simp] theorem clearPulses_cspState : (s.clearPulses).cspState = s.cspState := rfl
@[simp] theorem clearPulses_pc : (s.clearPulses).pc = s.pc := rfl
@[simp] theorem clearPulses_blOut : (s.clearPulses).blOut = s.blOut := rfl
@[simp] theorem clearPulses_blOe : (s.clearPulses).blOe = s.blOe := rfl
@[simp] theorem clearPulses_sckOut : (s.clearPulses).sckOut = s.sckOut := rfl
@[simp] theorem clearPulses_sckOe : (s.clearPulses).sckOe = s.sckOe := rfl
@[simp] theorem clearPulses_mosiOut : (s.clearPulses).mosiOut = s.mosiOut := rfl
@[simp] theorem clearPulses_csOut : (s.clearPulses).csOut = s.csOut := rfl
@[simp] theorem clearPulses_cfg : (s.clearPulses).cfg = s.cfg := rfl
@[simp] theorem clearPulses_inputs : (s.clearPulses).inputs = s.inputs := rfl
@[simp] theorem clearPulses_cycle : (s.clearPulses).cycle = s.cycle := rfl

@[simp] theorem beginRun_mode (f : Bool) : (s.beginRun f).mode = .run := rfl
@[simp] theorem beginRun_q (f : Bool) : (s.beginRun f).q = s.q := rfl
@[simp] theorem beginRun_w (f : Bool) : (s.beginRun f).w = s.w := rfl
@[simp] theorem beginRun_aw (f : Bool) : (s.beginRun f).aw = s.aw := rfl
@[simp] theorem beginRun_ao (f : Bool) : (s.beginRun f).ao = s.ao := rfl
@[simp] theorem beginRun_awSeen (f : Bool) : (s.beginRun f).awSeen = s.awSeen := rfl
@[simp] theorem beginRun_fromReq (f : Bool) : (s.beginRun f).fromReq = f := rfl
@[simp] theorem beginRun_evHs (f : Bool) : (s.beginRun f).evHs = false := rfl
@[simp] theorem beginRun_evTo (f : Bool) : (s.beginRun f).evTo = false := rfl
@[simp] theorem beginRun_rsp (f : Bool) : (s.beginRun f).rsp = false := rfl
@[simp] theorem beginRun_pwrState (f : Bool) : (s.beginRun f).pwrState = s.pwrState := rfl
@[simp] theorem beginRun_lastBrightness (f : Bool) : (s.beginRun f).lastBrightness = s.lastBrightness := rfl
@[simp] theorem beginRun_reportedBrightness (f : Bool) : (s.beginRun f).reportedBrightness = s.reportedBrightness := rfl
@[simp] theorem beginRun_ackEn (f : Bool) : (s.beginRun f).ackEn = s.ackEn := rfl
@[simp] theorem beginRun_ackStatus (f : Bool) : (s.beginRun f).ackStatus = s.ackStatus := rfl
@[simp] theorem beginRun_cspState (f : Bool) : (s.beginRun f).cspState = s.cspState := rfl
@[simp] theorem beginRun_pc (f : Bool) : (s.beginRun f).pc = s.pc := rfl
@[simp] theorem beginRun_blOut (f : Bool) : (s.beginRun f).blOut = s.blOut := rfl
@[simp] theorem beginRun_blOe (f : Bool) : (s.beginRun f).blOe = s.blOe := rfl
@[simp] theorem beginRun_sckOut (f : Bool) : (s.beginRun f).sckOut = s.sckOut := rfl
@[simp] theorem beginRun_sckOe (f : Bool) : (s.beginRun f).sckOe = s.sckOe := rfl
@[simp] theorem beginRun_mosiOut (f : Bool) : (s.beginRun f).mosiOut = s.mosiOut := rfl
@[simp] theorem beginRun_csOut (f : Bool) : (s.beginRun f).csOut = s.csOut := rfl
@[simp] theorem beginRun_cfg (f : Bool) : (s.beginRun f).cfg = s.cfg := rfl
@[simp] theorem beginRun_inputs (f : Bool) : (s.beginRun f).inputs = s.inputs := rfl
@[simp] theorem beginRun_cycle (f : Bool) : (s.beginRun f).cycle = s.cycle := rfl

@[simp] theorem resume_mode : (s.resume).mode = .run := rfl
@[simp] theorem resume_q : (s.resume).q = s.q := rfl
@[simp] theorem resume_w : (s.resume).w = s.w := rfl
@[simp] theorem resume_aw : (s.resume).aw = s.aw := rfl
@[simp] theorem resume_ao : (s.resume).ao = s.ao := rfl
@[simp] theorem resume_awSeen : (s.resume).awSeen = s.awSeen := rfl
@[simp] theorem resume_fromReq : (s.resume).fromReq = s.fromReq := rfl
@[simp] theorem resume_evHs : (s.resume).evHs = s.evHs := rfl
@[simp] theorem resume_evTo : (s.resume).evTo = s.evTo := rfl
@[simp] theorem resume_rsp : (s.resume).rsp = s.rsp := rfl
@[simp] theorem resume_pwrState : (s.resume).pwrState = s.pwrState := rfl
@[simp] theorem resume_lastBrightness : (s.resume).lastBrightness = s.lastBrightness := rfl
@[simp] theorem resume_reportedBrightness : (s.resume).reportedBrightness = s.reportedBrightness := rfl
@[simp] theorem resume_ackEn : (s.resume).ackEn = s.ackEn := rfl
@[simp] theorem resume_ackStatus : (s.resume).ackStatus = s.ackStatus := rfl
@[simp] theorem resume_cspState : (s.resume).cspState = s.cspState := rfl
@[simp] theorem resume_pc : (s.resume).pc = s.pc := rfl
@[simp] theorem resume_blOut : (s.resume).blOut = s.blOut := rfl
@[simp] theorem resume_blOe : (s.resume).blOe = s.blOe := rfl
@[simp] theorem resume_sckOut : (s.resume).sckOut = s.sckOut := rfl
@[simp] theorem resume_sckOe : (s.resume).sckOe = s.sckOe := rfl
@[simp] theorem resume_mosiOut : (s.resume).mosiOut = s.mosiOut := rfl
@[simp] theorem resume_csOut : (s.resume).csOut = s.csOut := rfl
@[simp] theorem resume_cfg : (s.resume).cfg = s.cfg := rfl
@[simp] theorem resume_inputs : (s.resume).inputs = s.inputs := rfl
@[simp] theorem resume_cycle : (s.resume).cycle = s.cycle := rfl

@[simp] theorem setTimer_mode (n : Nat) : (s.setTimer n).mode = s.mode := rfl
@[simp] theorem setTimer_q (n : Nat) : (s.setTimer n).q = s.q := rfl
@[simp] theorem setTimer_w (n : Nat) : (s.setTimer n).w = n := rfl
@[simp] theorem setTimer_aw (n : Nat) : (s.setTimer n).aw = s.aw := rfl
@[simp] theorem setTimer_ao (n : Nat) : (s.setTimer n).ao = s.ao := rfl
@[simp] theorem setTimer_awSeen (n : Nat) : (s.setTimer n).awSeen = s.awSeen := rfl
@[simp] theorem setTimer_fromReq (n : Nat) : (s.setTimer n).fromReq = s.fromReq := rfl
@[simp] theorem setTimer_evHs (n : Nat) : (s.setTimer n).evHs = s.evHs := rfl
@[simp] theorem setTimer_evTo (n : Nat) : (s.setTimer n).evTo = s.evTo := rfl
@[simp] theorem setTimer_rsp (n : Nat) : (s.setTimer n).rsp = s.rsp := rfl
@[simp] theorem setTimer_pwrState (n : Nat) : (s.setTimer n).pwrState = s.pwrState := rfl
@[simp] theorem setTimer_lastBrightness (n : Nat) : (s.setTimer n).lastBrightness = s.lastBrightness := rfl
@[simp] theorem setTimer_reportedBrightness (n : Nat) : (s.setTimer n).reportedBrightness = s.reportedBrightness := rfl
@[simp] theorem setTimer_ackEn (n : Nat) : (s.setTimer n).ackEn = s.ackEn := rfl
@[simp] theorem setTimer_ackStatus (n : Nat) : (s.setTimer n).ackStatus = s.ackStatus := rfl
@[simp] theorem setTimer_cspState (n : Nat) : (s.setTimer n).cspState = s.cspState := rfl
@[simp] theorem setTimer_pc (n : Nat) : (s.setTimer n).pc = s.pc := rfl
@[simp] theorem setTimer_blOut (n : Nat) : (s.setTimer n).blOut = s.blOut := rfl
@[simp] theorem setTimer_blOe (n : Nat) : (s.setTimer n).blOe = s.blOe := rfl
@[simp] theorem setTimer_sckOut (n : Nat) : (s.setTimer n).sckOut = s.sckOut := rfl
@[simp] theorem setTimer_sckOe (n : Nat) : (s.setTimer n).sckOe = s.sckOe := rfl
@[simp] theorem setTimer_mosiOut (n : Nat) : (s.setTimer n).mosiOut = s.mosiOut := rfl
@[simp] theorem setTimer_csOut (n : Nat) : (s.setTimer n).csOut = s.csOut := rfl
@[simp] theorem setTimer_cfg (n : Nat) : (s.setTimer n).cfg = s.cfg := rfl
@[simp] theorem setTimer_inputs (n : Nat) : (s.setTimer n).inputs = s.inputs := rfl
@[simp] theorem setTimer_cycle (n : Nat) : (s.setTimer n).cycle = s.cycle := rfl

@[simp] theorem startWait_mode (d : Nat) (r : Script) : (s.startWait d r).mode = s.mode := rfl
@[simp] theorem startWait_q (d : Nat) (r : Script) : (s.startWait d r).q = r := rfl
@[simp] theorem startWait_w (d : Nat) (r : Script) : (s.startWait d r).w = ticks s.cfg d := rfl
@[simp] theorem startWait_aw (d : Nat) (r : Script) : (s.startWait d r).aw = s.aw := rfl
@[simp] theorem startWait_ao (d : Nat) (r : Script) : (s.startWait d r).ao = s.ao := rfl
@[simp] theorem startWait_awSeen (d : Nat) (r : Script) : (s.startWait d r).awSeen = s.awSeen := rfl
@[simp] theorem startWait_fromReq (d : Nat) (r : Script) : (s.startWait d r).fromReq = s.fromReq := rfl
@[simp] theorem startWait_evHs (d : Nat) (r : Script) : (s.startWait d r).evHs = s.evHs := rfl
@[simp] theorem startWait_evTo (d : Nat) (r : Script) : (s.startWait d r).evTo = s.evTo := rfl
@[simp] theorem startWait_rsp (d : Nat) (r : Script) : (s.startWait d r).rsp = s.rsp := rfl
@[simp] theorem startWait_pwrState (d : Nat) (r : Script) : (s.startWait d r).pwrState = s.pwrState := rfl
@[simp] theorem startWait_lastBrightness (d : Nat) (r : Script) : (s.startWait d r).lastBrightness = s.lastBrightness := rfl
@[simp] theorem startWait_reportedBrightness (d : Nat) (r : Script) : (s.startWait d r).reportedBrightness = s.reportedBrightness := rfl
@[simp] theorem startWait_ackEn (d : Nat) (r : Script) : (s.startWait d r).ackEn = s.ackEn := rfl
@[simp] theorem startWait_ackStatus (d : Nat) (r : Script) : (s.startWait d r).ackStatus = s.ackStatus := rfl
@[simp] theorem startWait_cspState (d : Nat) (r : Script) : (s.startWait d r).cspState = s.cspState := rfl
@[simp] theorem startWait_pc (d : Nat) (r : Script) : (s.startWait d r).pc = s.pc := rfl
@[simp] theorem startWait_blOut (d : Nat) (r : Script) : (s.startWait d r).blOut = s.blOut := rfl
@[simp] theorem startWait_blOe (d : Nat) (r : Script) : (s.startWait d r).blOe = s.blOe := rfl
@[simp] theorem startWait_sckOut (d : Nat) (r : Script) : (s.startWait d r).sckOut = s.sckOut := rfl
@[simp] theorem startWait_sckOe (d : Nat) (r : Script) : (s.startWait d r).sckOe = s.sckOe := rfl
@[simp] theorem startWait_mosiOut (d : Nat) (r : Script) : (s.startWait d r).mosiOut = s.mosiOut := rfl
@[simp] theorem startWait_csOut (d : Nat) (r : Script) : (s.startWait d r).csOut = s.csOut := rfl
@[simp] theorem startWait_cfg (d : Nat) (r : Script) : (s.startWait d r).cfg = s.cfg := rfl
@[simp] theorem startWait_inputs (d : Nat) (r : Script) : (s.startWait d r).inputs = s.inputs := rfl
@[simp] theorem startWait_cycle (d : Nat) (r : Script) : (s.startWait d r).cycle = s.cycle := rfl

@[simp] theorem startWindow_mode (r : Script) : (s.startWindow r).mode = s.mode := rfl
@[simp] theorem startWindow_q (r : Script) : (s.startWindow r).q = r := rfl
@[simp] theorem startWindow_w (r : Script) : (s.startWindow r).w = ticks s.cfg s.cfg.ackBudget := rfl
@[simp] theorem startWindow_aw (r : Script) : (s.startWindow r).aw = true := rfl
@[simp] theorem startWindow_ao (r : Script) : (s.startWindow r).ao = 0 := rfl
@[simp] theorem startWindow_awSeen (r : Script) : (s.startWindow r).awSeen = false := rfl
@[simp] theorem startWindow_fromReq (r : Script) : (s.startWindow r).fromReq = s.fromReq := rfl
@[simp] theorem startWindow_evHs (r : Script) : (s.startWindow r).evHs = s.evHs := rfl
@[simp] theorem startWindow_evTo (r : Script) : (s.startWindow r).evTo = s.evTo := rfl
@[simp] theorem startWindow_rsp (r : Script) : (s.startWindow r).rsp = s.rsp := rfl
@[simp] theorem startWindow_pwrState (r : Script) : (s.startWindow r).pwrState = s.pwrState := rfl
@[simp] theorem startWindow_lastBrightness (r : Script) : (s.startWindow r).lastBrightness = s.lastBrightness := rfl
@[simp] theorem startWindow_reportedBrightness (r : Script) : (s.startWindow r).reportedBrightness = s.reportedBrightness := rfl
@[simp] theorem startWindow_ackEn (r : Script) : (s.startWindow r).ackEn = s.ackEn := rfl
@[simp] theorem startWindow_ackStatus (r : Script) : (s.startWindow r).ackStatus = s.ackStatus := rfl
@[simp] theorem startWindow_cspState (r : Script) : (s.startWindow r).cspState = s.cspState := rfl
@[simp] theorem startWindow_pc (r : Script) : (s.startWindow r).pc = s.pc := rfl
@[simp] theorem startWindow_blOut (r : Script) : (s.startWindow r).blOut = s.blOut := rfl
@[simp] theorem startWindow_blOe (r : Script) : (s.startWindow r).blOe = s.blOe := rfl
@[simp] theorem startWindow_sckOut (r : Script) : (s.startWindow r).sckOut = s.sckOut := rfl
@[simp] theorem startWindow_sckOe (r : Script) : (s.startWindow r).sckOe = s.sckOe := rfl
@[simp] theorem startWindow_mosiOut (r : Script) : (s.startWindow r).mosiOut = s.mosiOut := rfl
@[simp] theorem startWindow_csOut (r : Script) : (s.startWindow r).csOut = s.csOut := rfl
@[simp] theorem startWindow_cfg (r : Script) : (s.startWindow r).cfg = s.cfg := rfl
@[simp] theorem startWindow_inputs (r : Script) : (s.startWindow r).inputs = s.inputs := rfl
@[simp] theorem startWindow_cycle (r : Script) : (s.startWindow r).cycle = s.cycle := rfl

@[simp] theorem finish_mode : (s.finish).mode = .idle := rfl
@[simp] theorem finish_q : (s.finish).q = [] := rfl
@[simp] theorem finish_w : (s.finish).w = s.w := rfl
@[simp] theorem finish_aw : (s.finish).aw = s.aw := rfl
@[simp] theorem finish_ao : (s.finish).ao = s.ao := rfl
@[simp] theorem finish_awSeen : (s.finish).awSeen = s.awSeen := rfl
@[simp] theorem finish_fromReq : (s.finish).fromReq = s.fromReq := rfl
@[simp] theorem finish_evHs : (s.finish).evHs = s.evHs := rfl
@[simp] theorem finish_evTo : (s.finish).evTo = s.evTo := rfl
@[simp] theorem finish_rsp : (s.finish).rsp = (s.rsp || s.fromReq) := rfl
@[simp] theorem finish_pwrState : (s.finish).pwrState = s.pwrState := rfl
@[simp] theorem finish_lastBrightness : (s.finish).lastBrightness = s.lastBrightness := rfl
@[simp] theorem finish_reportedBrightness : (s.finish).reportedBrightness = s.reportedBrightness := rfl
@[simp] theorem finish_ackEn : (s.finish).ackEn = s.ackEn := rfl
@[simp] theorem finish_ackStatus : (s.finish).ackStatus = s.ackStatus := rfl
@[simp] theorem finish_cspState : (s.finish).cspState = s.cspState := rfl
@[simp] theorem finish_pc : (s.finish).pc = s.pc := rfl
@[simp] theorem finish_blOut : (s.finish).blOut = s.blOut := rfl
@[simp] theorem finish_blOe : (s.finish).blOe = s.blOe := rfl
@[simp] theorem finish_sckOut : (s.finish).sckOut = s.sckOut := rfl
@[simp] theorem finish_sckOe : (s.finish).sckOe = s.sckOe := rfl
@[simp] theorem finish_mosiOut : (s.finish).mosiOut = s.mosiOut := rfl
@[simp] theorem finish_csOut : (s.finish).csOut = s.csOut := rfl
@[simp] theorem finish_cfg : (s.finish).cfg = s.cfg := rfl
@[simp] theorem finish_inputs : (s.finish).inputs = s.inputs := rfl
@[simp] theorem finish_cycle : (s.finish).cycle = s.cycle := rfl

@[simp] theorem sampleAck_mode (b : Bool) : (sampleAck b s).mode = s.mode := rfl
@[simp] theorem sampleAck_q (b : Bool) : (sampleAck b s).q = s.q := rfl
@[simp] theorem sampleAck_w (b : Bool) : (sampleAck b s).w = s.w := rfl
@[simp] theorem sampleAck_aw (b : Bool) : (sampleAck b s).aw = s.aw := rfl
@[simp] theorem sampleAck_ao (b : Bool) : (sampleAck b s).ao = s.ao + 1 := rfl
@[simp] theorem sampleAck_awSeen (b : Bool) : (sampleAck b s).awSeen = (s.awSeen || (samplePoint s && !b)) := rfl
@[simp] theorem sampleAck_fromReq (b : Bool) : (sampleAck b s).fromReq = s.fromReq := rfl
@[simp] theorem sampleAck_evHs (b : Bool) : (sampleAck b s).evHs = s.evHs := rfl
@[simp] theorem sampleAck_evTo (b : Bool) : (sampleAck b s).evTo = s.evTo := rfl
@[simp] theorem sampleAck_rsp (b : Bool) : (sampleAck b s).rsp = s.rsp := rfl
@[simp] theorem sampleAck_pwrState (b : Bool) : (sampleAck b s).pwrState = s.pwrState := rfl
@[simp] theorem sampleAck_lastBrightness (b : Bool) : (sampleAck b s).lastBrightness = s.lastBrightness := rfl
@[simp] theorem sampleAck_reportedBrightness (b : Bool) : (sampleAck b s).reportedBrightness = s.reportedBrightness := rfl
@[simp] theorem sampleAck_ackEn (b : Bool) : (sampleAck b s).ackEn = s.ackEn := rfl
@[simp] theorem sampleAck_ackStatus (b : Bool) : (sampleAck b s).ackStatus = s.ackStatus := rfl
@[simp] theorem sampleAck_cspState (b : Bool) : (sampleAck b s).cspState = s.cspState := rfl
@[simp] theorem sampleAck_pc (b : Bool) : (sampleAck b s).pc = s.pc := rfl
@[simp] theorem sampleAck_blOut (b : Bool) : (sampleAck b s).blOut = s.blOut := rfl
@[simp] theorem sampleAck_blOe (b : Bool) : (sampleAck b s).blOe = s.blOe := rfl
@[simp] theorem sampleAck_sckOut (b : Bool) : (sampleAck b s).sckOut = s.sckOut := rfl
@[simp] theorem sampleAck_sckOe (b : Bool) : (sampleAck b s).sckOe = s.sckOe := rfl
@[simp] theorem sampleAck_mosiOut (b : Bool) : (sampleAck b s).mosiOut = s.mosiOut := rfl
@[simp] theorem sampleAck_csOut (b : Bool) : (sampleAck b s).csOut = s.csOut := rfl
@[simp] theorem sampleAck_cfg (b : Bool) : (sampleAck b s).cfg = s.cfg := rfl
@[simp] theorem sampleAck_inputs (b : Bool) : (sampleAck b s).inputs = s.inputs := rfl
@[simp] theorem sampleAck_cycle (b : Bool) : (sampleAck b s).cycle = s.cycle := rfl

@[simp] theorem recordAckOk_mode : (recordAckOk s).mode = s.mode := rfl
@[simp] theorem recordAckOk_q : (recordAckOk s).q = s.q := rfl
@[simp] theorem recordAckOk_w : (recordAckOk s).w = s.w := rfl
@[simp] theorem recordAckOk_aw : (recordAckOk s).aw = false := rfl
@[simp] theorem recordAckOk_ao : (recordAckOk s).ao = s.ao := rfl
@[simp] theorem recordAckOk_awSeen : (recordAckOk s).awSeen = s.awSeen := rfl
@[simp] theorem recordAckOk_fromReq : (recordAckOk s).fromReq = s.fromReq := rfl
@[simp] theorem recordAckOk_evHs : (recordAckOk s).evHs = s.evHs := rfl
@[simp] theorem recordAckOk_evTo : (recordAckOk s).evTo = s.evTo := rfl
@[simp] theorem recordAckOk_rsp : (recordAckOk s).rsp = s.rsp := rfl
@[simp] theorem recordAckOk_pwrState : (recordAckOk s).pwrState = s.pwrState := rfl
@[simp] theorem recordAckOk_lastBrightness : (recordAckOk s).lastBrightness = s.lastBrightness := rfl
@[simp] theorem recordAckOk_reportedBrightness : (recordAckOk s).reportedBrightness = s.reportedBrightness := rfl
@[simp] theorem recordAckOk_ackEn : (recordAckOk s).ackEn = s.ackEn := rfl
@[simp] theorem recordAckOk_ackStatus : (recordAckOk s).ackStatus = .ok := rfl
@[simp] theorem recordAckOk_cspState : (recordAckOk s).cspState = s.cspState := rfl
@[simp] theorem recordAckOk_pc : (recordAckOk s).pc = s.pc := rfl
@[simp] theorem recordAckOk_blOut : (recordAckOk s).blOut = s.blOut := rfl
@[simp] theorem recordAckOk_blOe : (recordAckOk s).blOe = s.blOe := rfl
@[simp] theorem recordAckOk_sckOut : (recordAckOk s).sckOut = s.sckOut := rfl
@[simp] theorem recordAckOk_sckOe : (recordAckOk s).sckOe = s.sckOe := rfl
@[simp] theorem recordAckOk_mosiOut : (recordAckOk s).mosiOut = s.mosiOut := rfl
@[simp] theorem recordAckOk_csOut : (recordAckOk s).csOut = s.csOut := rfl
@[simp] theorem recordAckOk_cfg : (recordAckOk s).cfg = s.cfg := rfl
@[simp] theorem recordAckOk_inputs : (recordAckOk s).inputs = s.inputs := rfl
@[simp] theorem recordAckOk_cycle : (recordAckOk s).cycle = s.cycle := rfl

@[simp] theorem recordAckTimeout_mode : (recordAckTimeout s).mode = s.mode := rfl
@[simp] theorem recordAckTimeout_q : (recordAckTimeout s).q = s.q := rfl
@[simp] theorem recordAckTimeout_w : (recordAckTimeout s).w = s.w := rfl
@[simp] theorem recordAckTimeout_aw : (recordAckTimeout s).aw = false := rfl
@[simp] theorem recordAckTimeout_ao : (recordAckTimeout s).ao = s.ao := rfl
@[simp] theorem recordAckTimeout_awSeen : (recordAckTimeout s).awSeen = s.awSeen := rfl
@[simp] theorem recordAckTimeout_fromReq : (recordAckTimeout s).fromReq = s.fromReq := rfl
@[simp] theorem recordAckTimeout_evHs : (recordAckTimeout s).evHs = s.evHs := rfl
@[simp] theorem recordAckTimeout_evTo : (recordAckTimeout s).evTo = true := rfl
@[simp] theorem recordAckTimeout_rsp : (recordAckTimeout s).rsp = s.rsp := rfl
@[simp] theorem recordAckTimeout_pwrState : (recordAckTimeout s).pwrState = s.pwrState := rfl
@[simp] theorem recordAckTimeout_lastBrightness : (recordAckTimeout s).lastBrightness = s.lastBrightness := rfl
@[simp] theorem recordAckTimeout_reportedBrightness : (recordAckTimeout s).reportedBrightness = s.reportedBrightness := rfl
@[simp] theorem recordAckTimeout_ackEn : (recordAckTimeout s).ackEn = s.ackEn := rfl
@[simp] theorem recordAckTimeout_ackStatus : (recordAckTimeout s).ackStatus = .timeout := rfl
@[simp] theorem recordAckTimeout_cspState : (recordAckTimeout s).cspState = s.cspState := rfl
@[simp] theorem recordAckTimeout_pc : (recordAckTimeout s).pc = s.pc := rfl
@[simp] theorem recordAckTimeout_blOut : (recordAckTimeout s).blOut = s.blOut := rfl
@[simp] theorem recordAckTimeout_blOe : (recordAckTimeout s).blOe = s.blOe := rfl
@[simp] theorem recordAckTimeout_sckOut : (recordAckTimeout s).sckOut = s.sckOut := rfl
@[simp] theorem recordAckTimeout_sckOe : (recordAckTimeout s).sckOe = s.sckOe := rfl
@[simp] theorem recordAckTimeout_mosiOut : (recordAckTimeout s).mosiOut = s.mosiOut := rfl
@[simp] theorem recordAckTimeout_csOut : (recordAckTimeout s).csOut = s.csOut := rfl
@[simp] theorem recordAckTimeout_cfg : (recordAckTimeout s).cfg = s.cfg := rfl
@[simp] theorem recordAckTimeout_inputs : (recordAckTimeout s).inputs = s.inputs := rfl
@[simp] theorem recordAckTimeout_cycle : (recordAckTimeout s).cycle = s.cycle := rfl

@[simp] theorem drive_mode (l : Line) (v : Bool) : (s.drive l v).mode = s.mode := by cases l <;> rfl
@[simp] theorem drive_q (l : Line) (v : Bool) : (s.drive l v).q = s.q := by cases l <;> rfl
@[simp] theorem drive_w (l : Line) (v : Bool) : (s.drive l v).w = s.w := by cases l <;> rfl
@[simp] theorem drive_aw (l : Line) (v : Bool) : (s.drive l v).aw = s.aw := by cases l <;> rfl
@[simp] theorem drive_ao (l : Line) (v : Bool) : (s.drive l v).ao = s.ao := by cases l <;> rfl
@[simp] theorem drive_awSeen (l : Line) (v : Bool) : (s.drive l v).awSeen = s.awSeen := by cases l <;> rfl
@[simp] theorem drive_fromReq (l : Line) (v : Bool) : (s.drive l v).fromReq = s.fromReq := by cases l <;> rfl
@[simp] theorem drive_evHs (l : Line) (v : Bool) : (s.drive l v).evHs = s.evHs := by cases l <;> rfl
@[simp] theorem drive_evTo (l : Line) (v : Bool) : (s.drive l v).evTo = s.evTo := by cases l <;> rfl
@[simp] theorem drive_rsp (l : Line) (v : Bool) : (s.drive l v).rsp = s.rsp := by cases l <;> rfl
@[simp] theorem drive_pwrState (l : Line) (v : Bool) : (s.drive l v).pwrState = s.pwrState := by cases l <;> rfl
@[simp] theorem drive_lastBrightness (l : Line) (v : Bool) : (s.drive l v).lastBrightness = s.lastBrightness := by cases l <;> rfl
@[simp] theorem drive_reportedBrightness (l : Line) (v : Bool) : (s.drive l v).reportedBrightness = s.reportedBrightness := by cases l <;> rfl
@[simp] theorem drive_ackEn (l : Line) (v : Bool) : (s.drive l v).ackEn = s.ackEn := by cases l <;> rfl
@[simp] theorem drive_ackStatus (l : Line) (v : Bool) : (s.drive l v).ackStatus = s.ackStatus := by cases l <;> rfl
@[simp] theorem drive_cspState (l : Line) (v : Bool) : (s.drive l v).cspState = s.cspState := by cases l <;> rfl
@[simp] theorem drive_pc (l : Line) (v : Bool) : (s.drive l v).pc = s.pc := by cases l <;> rfl
@[simp] theorem drive_cfg (l : Line) (v : Bool) : (s.drive l v).cfg = s.cfg := by cases l <;> rfl
@[simp] theorem drive_inputs (l : Line) (v : Bool) : (s.drive l v).inputs = s.inputs := by cases l <;> rfl
@[simp] theorem drive_cycle (l : Line) (v : Bool) : (s.drive l v).cycle = s.cycle := by cases l <;> rfl

@[simp] theorem drive_bl_blOut (v : Bool) : (s.drive .bl v).blOut = v := rfl
@[simp] theorem drive_bl_blOe (v : Bool) : (s.drive .bl v).blOe = true := rfl
@[simp] theorem drive_bl_sckOut (v : Bool) : (s.drive .bl v).sckOut = s.sckOut := rfl
@[simp] theorem drive_bl_sckOe (v : Bool) : (s.drive .bl v).sckOe = s.sckOe := rfl
@[simp] theorem drive_bl_mosiOut (v : Bool) : (s.drive .bl v).mosiOut = s.mosiOut := rfl
@[simp] theorem drive_bl_csOut (v : Bool) : (s.drive .bl v).csOut = s.csOut := rfl
@[simp] theorem drive_sck_blOut (v : Bool) : (s.drive .sck v).blOut = s.blOut := rfl
@[simp] theorem drive_sck_blOe (v : Bool) : (s.drive .sck v).blOe = s.blOe := rfl
@[simp] theorem drive_sck_sckOut (v : Bool) : (s.drive .sck v).sckOut = v := rfl
@[simp] theorem drive_sck_sckOe (v : Bool) : (s.drive .sck v).sckOe = true := rfl
@[simp] theorem drive_sck_mosiOut (v : Bool) : (s.drive .sck v).mosiOut = s.mosiOut := rfl
@[simp] theorem drive_sck_csOut (v : Bool) : (s.drive .sck v).csOut = s.csOut := rfl
@[simp] theorem drive_mosi_blOut (v : Bool) : (s.drive .mosi v).blOut = s.blOut := rfl
@[simp] theorem drive_mosi_blOe (v : Bool) : (s.drive .mosi v).blOe = s.blOe := rfl
@[simp] theorem drive_mosi_sckOut (v : Bool) : (s.drive .mosi v).sckOut = s.sckOut := rfl
@[simp] theorem drive_mosi_sckOe (v : Bool) : (s.drive .mosi v).sckOe = s.sckOe := rfl
@[simp] theorem drive_mosi_mosiOut (v : Bool) : (s.drive .mosi v).mosiOut = v := rfl
@[simp] theorem drive_mosi_csOut (v : Bool) : (s.drive .mosi v).csOut = s.csOut := rfl
@[simp] theorem drive_cs_blOut (v : Bool) : (s.drive .cs v).blOut = s.blOut := rfl
@[simp] theorem drive_cs_blOe (v : Bool) : (s.drive .cs v).blOe = s.blOe := rfl
@[simp] theorem drive_cs_sckOut (v : Bool) : (s.drive .cs v).sckOut = s.sckOut := rfl
@[simp] theorem drive_cs_sckOe (v : Bool) : (s.drive .cs v).sckOe = s.sckOe := rfl
@[simp] theorem drive_cs_mosiOut (v : Bool) : (s.drive .cs v).mosiOut = s.mosiOut := rfl
@[simp] theorem drive_cs_csOut (v : Bool) : (s.drive .cs v).csOut = v := rfl

@[simp] theorem release_mode (l : FloatLine) : (s.release l).mode = s.mode := by cases l <;> rfl
@[simp] theorem release_q (l : FloatLine) : (s.release l).q = s.q := by cases l <;> rfl
@[simp] theorem release_w (l : FloatLine) : (s.release l).w = s.w := by cases l <;> rfl
@[simp] theorem release_aw (l : FloatLine) : (s.release l).aw = s.aw := by cases l <;> rfl
@[simp] theorem release_ao (l : FloatLine) : (s.release l).ao = s.ao := by cases l <;> rfl
@[simp] theorem release_awSeen (l : FloatLine) : (s.release l).awSeen = s.awSeen := by cases l <;> rfl
@[simp] theorem release_fromReq (l : FloatLine) : (s.release l).fromReq = s.fromReq := by cases l <;> rfl
@[simp] theorem release_evHs (l : FloatLine) : (s.release l).evHs = s.evHs := by cases l <;> rfl
@[simp] theorem release_evTo (l : FloatLine) : (s.release l).evTo = s.evTo := by cases l <;> rfl
@[simp] theorem release_rsp (l : FloatLine) : (s.release l).rsp = s.rsp := by cases l <;> rfl
@[simp] theorem release_pwrState (l : FloatLine) : (s.release l).pwrState = s.pwrState := by cases l <;> rfl
@[simp] theorem release_lastBrightness (l : FloatLine) : (s.release l).lastBrightness = s.lastBrightness := by cases l <;> rfl
@[simp] theorem release_reportedBrightness (l : FloatLine) : (s.release l).reportedBrightness = s.reportedBrightness := by cases l <;> rfl
@[simp] theorem release_ackEn (l : FloatLine) : (s.release l).ackEn = s.ackEn := by cases l <;> rfl
@[simp] theorem release_ackStatus (l : FloatLine) : (s.release l).ackStatus = s.ackStatus := by cases l <;> rfl
@[simp] theorem release_cspState (l : FloatLine) : (s.release l).cspState = s.cspState := by cases l <;> rfl
@[simp] theorem release_pc (l : FloatLine) : (s.release l).pc = s.pc := by cases l <;> rfl
@[simp] theorem release_blOut (l : FloatLine) : (s.release l).blOut = s.blOut := by cases l <;> rfl
@[simp] theorem release_sckOut (l : FloatLine) : (s.release l).sckOut = s.sckOut := by cases l <;> rfl
@[simp] theorem release_mosiOut (l : FloatLine) : (s.release l).mosiOut = s.mosiOut := by cases l <;> rfl
@[simp] theorem release_csOut (l : FloatLine) : (s.release l).csOut = s.csOut := by cases l <;> rfl
@[simp] theorem release_cfg (l : FloatLine) : (s.release l).cfg = s.cfg := by cases l <;> rfl
@[simp] theorem release_inputs (l : FloatLine) : (s.release l).inputs = s.inputs := by cases l <;> rfl
@[simp] theorem release_cycle (l : FloatLine) : (s.release l).cycle = s.cycle := by cases l <;> rfl

@[simp] theorem release_bl_blOe : (s.release .bl).blOe = false := rfl
@[simp] theorem release_bl_sckOe : (s.release .bl).sckOe = s.sckOe := rfl
@[simp] theorem release_sck_blOe : (s.release .sck).blOe = s.blOe := rfl
@[simp] theorem release_sck_sckOe : (s.release .sck).sckOe = false := rfl

@[simp] theorem setReg_mode (r : RegWrite) : (s.setReg r).mode = s.mode := by cases r <;> rfl
@[simp] theorem setReg_q (r : RegWrite) : (s.setReg r).q = s.q := by cases r <;> rfl
@[simp] theorem setReg_w (r : RegWrite) : (s.setReg r).w = s.w := by cases r <;> rfl
@[simp] theorem setReg_aw (r : RegWrite) : (s.setReg r).aw = s.aw := by cases r <;> rfl
@[simp] theorem setReg_ao (r : RegWrite) : (s.setReg r).ao = s.ao := by cases r <;> rfl
@[simp] theorem setReg_awSeen (r : RegWrite) : (s.setReg r).awSeen = s.awSeen := by cases r <;> rfl
@[simp] theorem setReg_fromReq (r : RegWrite) : (s.setReg r).fromReq = s.fromReq := by cases r <;> rfl
@[simp] theorem setReg_evHs (r : RegWrite) : (s.setReg r).evHs = s.evHs := by cases r <;> rfl
@[simp] theorem setReg_evTo (r : RegWrite) : (s.setReg r).evTo = s.evTo := by cases r <;> rfl
@[simp] theorem setReg_rsp (r : RegWrite) : (s.setReg r).rsp = s.rsp := by cases r <;> rfl
@[simp] theorem setReg_ackEn (r : RegWrite) : (s.setReg r).ackEn = s.ackEn := by cases r <;> rfl
@[simp] theorem setReg_ackStatus (r : RegWrite) : (s.setReg r).ackStatus = s.ackStatus := by cases r <;> rfl
@[simp] theorem setReg_blOut (r : RegWrite) : (s.setReg r).blOut = s.blOut := by cases r <;> rfl
@[simp] theorem setReg_blOe (r : RegWrite) : (s.setReg r).blOe = s.blOe := by cases r <;> rfl
@[simp] theorem setReg_sckOut (r : RegWrite) : (s.setReg r).sckOut = s.sckOut := by cases r <;> rfl
@[simp] theorem setReg_sckOe (r : RegWrite) : (s.setReg r).sckOe = s.sckOe := by cases r <;> rfl
@[simp] theorem setReg_mosiOut (r : RegWrite) : (s.setReg r).mosiOut = s.mosiOut := by cases r <;> rfl
@[simp] theorem setReg_csOut (r : RegWrite) : (s.setReg r).csOut = s.csOut := by cases r <;> rfl
@[simp] theorem setReg_cfg (r : RegWrite) : (s.setReg r).cfg = s.cfg := by cases r <;> rfl
@[simp] theorem setReg_inputs (r : RegWrite) : (s.setReg r).inputs = s.inputs := by cases r <;> rfl
@[simp] theorem setReg_cycle (r : RegWrite) : (s.setReg r).cycle = s.cycle := by cases r <;> rfl

@[simp] theorem setReg_pwrState_pwrState (v : PwrState) : (s.setReg (.pwrState v)).pwrState = v := rfl
@[simp] theorem setReg_pwrState_lastBrightness (v : PwrState) : (s.setReg (.pwrState v)).lastBrightness = s.lastBrightness := rfl
@[simp] theorem setReg_pwrState_reportedBrightness (v : PwrState) : (s.setReg (.pwrState v)).reportedBrightness = s.reportedBrightness := rfl
@[simp] theorem setReg_pwrState_cspState (v : PwrState) : (s.setReg (.pwrState v)).cspState = s.cspState := rfl
@[simp] theorem setReg_pwrState_pc (v : PwrState) : (s.setReg (.pwrState v)).pc = s.pc := rfl
@[simp] theorem setReg_lastBrightness_pwrState (v : Bright) : (s.setReg (.lastBrightness v)).pwrState = s.pwrState := rfl
@[simp] theorem setReg_lastBrightness_lastBrightness (v : Bright) : (s.setReg (.lastBrightness v)).lastBrightness = v := rfl
@[simp] theorem setReg_lastBrightness_reportedBrightness (v : Bright) : (s.setReg (.lastBrightness v)).reportedBrightness = s.reportedBrightness := rfl
@[simp] theorem setReg_lastBrightness_cspState (v : Bright) : (s.setReg (.lastBrightness v)).cspState = s.cspState := rfl
@[simp] theorem setReg_lastBrightness_pc (v : Bright) : (s.setReg (.lastBrightness v)).pc = s.pc := rfl
@[simp] theorem setReg_reportedBrightness_pwrState (v : Bright) : (s.setReg (.reportedBrightness v)).pwrState = s.pwrState := rfl
@[simp] theorem setReg_reportedBrightness_lastBrightness (v : Bright) : (s.setReg (.reportedBrightness v)).lastBrightness = s.lastBrightness := rfl
@[simp] theorem setReg_reportedBrightness_reportedBrightness (v : Bright) : (s.setReg (.reportedBrightness v)).reportedBrightness = v := rfl
@[simp] theorem setReg_reportedBrightness_cspState (v : Bright) : (s.setReg (.reportedBrightness v)).cspState = s.cspState := rfl
@[simp] theorem setReg_reportedBrightness_pc (v : Bright) : (s.setReg (.reportedBrightness v)).pc = s.pc := rfl
@[simp] theorem setReg_cspState_pwrState (v : CspState) : (s.setReg (.cspState v)).pwrState = s.pwrState := rfl
@[simp] theorem setReg_cspState_lastBrightness (v : CspState) : (s.setReg (.cspState v)).lastBrightness = s.lastBrightness := rfl
@[simp] theorem setReg_cspState_reportedBrightness (v : CspState) : (s.setReg (.cspState v)).reportedBrightness = s.reportedBrightness := rfl
@[simp] theorem setReg_cspState_cspState (v : CspState) : (s.setReg (.cspState v)).cspState = v := rfl
@[simp] theorem setReg_cspState_pc (v : CspState) : (s.setReg (.cspState v)).pc = s.pc := rfl
@[simp] theorem setReg_pc_pwrState (v : Nat) : (s.setReg (.pc v)).pwrState = s.pwrState := rfl
@[simp] theorem setReg_pc_lastBrightness (v : Nat) : (s.setReg (.pc v)).lastBrightness = s.lastBrightness := rfl
@[simp] theorem setReg_pc_reportedBrightness (v : Nat) : (s.setReg (.pc v)).reportedBrightness = s.reportedBrightness := rfl
@[simp] theorem setReg_pc_cspState (v : Nat) : (s.setReg (.pc v)).cspState = s.cspState := rfl
@[simp] theorem setReg_pc_pc (v : Nat) : (s.setReg (.pc v)).pc = v := rfl

@[simp] theorem raiseEvent_mode (e : Event) : (s.raiseEvent e).mode = s.mode := by cases e <;> rfl
@[simp] theorem raiseEvent_q (e : Event) : (s.raiseEvent e).q = s.q := by cases e <;> rfl
@[simp] theorem raiseEvent_w (e : Event) : (s.raiseEvent e).w = s.w := by cases e <;> rfl
@[simp] theorem raiseEvent_aw (e : Event) : (s.raiseEvent e).aw = s.aw := by cases e <;> rfl
@[simp] theorem raiseEvent_ao (e : Event) : (s.raiseEvent e).ao = s.ao := by cases e <;> rfl
@[simp] theorem raiseEvent_awSeen (e : Event) : (s.raiseEvent e).awSeen = s.awSeen := by cases e <;> rfl
@[simp] theorem raiseEvent_fromReq (e : Event) : (s.raiseEvent e).fromReq = s.fromReq := by cases e <;> rfl
@[simp] theorem raiseEvent_rsp (e : Event) : (s.raiseEvent e).rsp = s.rsp := by cases e <;> rfl
@[simp] theorem raiseEvent_pwrState (e : Event) : (s.raiseEvent e).pwrState = s.pwrState := by cases e <;> rfl
@[simp] theorem raiseEvent_lastBrightness (e : Event) : (s.raiseEvent e).lastBrightness = s.lastBrightness := by cases e <;> rfl
@[simp] theorem raiseEvent_reportedBrightness (e : Event) : (s.raiseEvent e).reportedBrightness = s.reportedBrightness := by cases e <;> rfl
@[simp] theorem raiseEvent_ackEn (e : Event) : (s.raiseEvent e).ackEn = s.ackEn := by cases e <;> rfl
@[simp] theorem raiseEvent_ackStatus (e : Event) : (s.raiseEvent e).ackStatus = s.ackStatus := by cases e <;> rfl
@[simp] theorem raiseEvent_cspState (e : Event) : (s.raiseEvent e).cspState = s.cspState := by cases e <;> rfl
@[simp] theorem raiseEvent_pc (e : Event) : (s.raiseEvent e).pc = s.pc := by cases e <;> rfl
@[simp] theorem raiseEvent_blOut (e : Event) : (s.raiseEvent e).blOut = s.blOut := by cases e <;> rfl
@[simp] theorem raiseEvent_blOe (e : Event) : (s.raiseEvent e).blOe = s.blOe := by cases e <;> rfl
@[simp] theorem raiseEvent_sckOut (e : Event) : (s.raiseEvent e).sckOut = s.sckOut := by cases e <;> rfl
@[simp] theorem raiseEvent_sckOe (e : Event) : (s.raiseEvent e).sckOe = s.sckOe := by cases e <;> rfl
@[simp] theorem raiseEvent_mosiOut (e : Event) : (s.raiseEvent e).mosiOut = s.mosiOut := by cases e <;> rfl
@[simp] theorem raiseEvent_csOut (e : Event) : (s.raiseEvent e).csOut = s.csOut := by cases e <;> rfl
@[simp] theorem raiseEvent_cfg (e : Event) : (s.raiseEvent e).cfg = s.cfg := by cases e <;> rfl
@[simp] theorem raiseEvent_inputs (e : Event) : (s.raiseEvent e).inputs = s.inputs := by cases e <;> rfl
@[simp] theorem raiseEvent_cycle (e : Event) : (s.raiseEvent e).cycle = s.cycle := by cases e <;> rfl

@[simp] theorem raiseEvent_handshake_evHs : (s.raiseEvent .handshake).evHs = true := rfl
@[simp] theorem raiseEvent_handshake_evTo : (s.raiseEvent .handshake).evTo = s.evTo := rfl
@[simp] theorem raiseEvent_ackTimeout_evHs : (s.raiseEvent .ackTimeout).evHs = s.evHs := rfl
@[simp] theorem raiseEvent_ackTimeout_evTo : (s.raiseEvent .ackTimeout).evTo = true := rfl

end Sys2Proof.Machine
end

