-- ==== Sys2Proof/Laws/Ops.lean ====
section
/-! SUPPORT. The shared operations: what `advance` keeps, how it ends, and the operations as `advanceOn` (spec/10_state.md R38). -/

namespace Sys2Proof.Laws

open Sys2Proof Sys2Proof.Machine Sys2Proof.Safety

@[simp] theorem advanceOn_cfg (q : Script) (s : State) : (advanceOn q s).cfg = s.cfg := by
  induction q generalizing s with
  | nil => rfl
  | cons op q ih => cases op <;> simp [advanceOn, ih]

@[simp] theorem advanceOn_ackEn (q : Script) (s : State) : (advanceOn q s).ackEn = s.ackEn := by
  induction q generalizing s with
  | nil => rfl
  | cons op q ih => cases op <;> simp [advanceOn, ih]

/-- `advance` does not look at the queue field. -/
theorem advanceOn_q (q r : Script) (s : State) : advanceOn q { s with q := r } = advanceOn q s := by
  induction q generalizing s with
  | nil => rfl
  | cons op q ih =>
    cases op with
    | drv l v => exact (congrArg (advanceOn q) (by cases l <;> rfl)).trans (ih (s.drive l v))
    | rel l => exact (congrArg (advanceOn q) (by cases l <;> rfl)).trans (ih (s.release l))
    | set x => exact (congrArg (advanceOn q) (by cases x <;> rfl)).trans (ih (s.setReg x))
    | ev e => exact (congrArg (advanceOn q) (by cases e <;> rfl)).trans (ih (s.raiseEvent e))
    | wait d => rfl
    | ackwin => rfl

theorem insertScript_eq (q : Script) (s : State) : insertScript q s = advanceOn (q ++ s.q) s.resume := rfl

theorem takeAckTimeout_eq (s : State) : takeAckTimeout s =
    advanceOn ((hsScript s.cfg).tail ++ s.q) ((recordAckTimeout s).resume.raiseEvent .handshake) := rfl

/-- All that `advance` leaves alone, on every script. -/
theorem advanceOn_keeps (q : Script) (s : State) :
    (advanceOn q s).cfg = s.cfg ∧ (advanceOn q s).ackEn = s.ackEn ∧ (advanceOn q s).ackStatus = s.ackStatus ∧
    (advanceOn q s).fromReq = s.fromReq ∧ (advanceOn q s).inputs = s.inputs ∧ (advanceOn q s).cycle = s.cycle := by
  induction q generalizing s with
  | nil => exact ⟨rfl, rfl, rfl, rfl, rfl, rfl⟩
  | cons op q ih => cases op <;> simp [advanceOn, ih]

/-- How `advance` ends: in IDLE, or with a timer loaded. -/
theorem advanceOn_ends (q : Script) (s : State) :
    ((advanceOn q s).mode = .idle ∧ (advanceOn q s).q = []) ∨
    (∃ d r, .wait d :: r <:+ q ∧ (advanceOn q s).q = r ∧ (advanceOn q s).w = ticks s.cfg d) ∨
    (∃ r, .ackwin :: r <:+ q ∧ (advanceOn q s).q = r ∧ (advanceOn q s).w = ticks s.cfg s.cfg.ackBudget ∧
      (advanceOn q s).aw = true) := by
  induction q generalizing s with
  | nil => exact Or.inl ⟨rfl, rfl⟩
  | cons op q ih =>
    have next : ∀ u : State, u.cfg = s.cfg → advanceOn (op :: q) s = advanceOn q u →
        ((advanceOn (op :: q) s).mode = .idle ∧ (advanceOn (op :: q) s).q = []) ∨
        (∃ d r, .wait d :: r <:+ op :: q ∧ (advanceOn (op :: q) s).q = r ∧ (advanceOn (op :: q) s).w = ticks s.cfg d) ∨
        (∃ r, .ackwin :: r <:+ op :: q ∧ (advanceOn (op :: q) s).q = r ∧
          (advanceOn (op :: q) s).w = ticks s.cfg s.cfg.ackBudget ∧ (advanceOn (op :: q) s).aw = true) := fun u hc hu => by
      rw [hu, ← hc]
      exact (ih u).imp id (Or.imp (fun ⟨d, r, h, g⟩ => ⟨d, r, h.trans (List.suffix_cons _ _), g⟩)
        (fun ⟨r, h, g⟩ => ⟨r, h.trans (List.suffix_cons _ _), g⟩))
    cases op with
    | wait d => exact Or.inr (Or.inl ⟨d, q, List.suffix_refl _, rfl, rfl⟩)
    | ackwin => exact Or.inr (Or.inr ⟨q, List.suffix_refl _, rfl, rfl, rfl⟩)
    | drv l v => exact next (s.drive l v) (by simp) rfl
    | rel l => exact next (s.release l) (by simp) rfl
    | set x => exact next (s.setReg x) (by simp) rfl
    | ev e => exact next (s.raiseEvent e) (by simp) rfl

theorem startScript_eq (q : Script) (fr : Bool) (s : State) : startScript q fr s = advanceOn q (s.beginRun fr) := rfl

end Sys2Proof.Laws
end

