-- ==== Sys2Proof/Laws/Runs.lean ====
section
/-! SUPPORT. Steps and runs: one step by mode, input values over a run, and one `WAIT` over its cycles (spec/10_state.md R34). -/

namespace Sys2Proof.Laws

open Sys2Proof Sys2Proof.Machine Sys2Proof.Safety

/-! ## Runs -/

theorem runFor_zero (s : State) : runFor 0 s = .next s := rfl

theorem runFor_step (n : Nat) (s : State) :
    runFor (n + 1) s =
      (match step s with | .next t => runFor n t | .fault r => .fault r | .refused r => .refused r) := rfl

theorem runFor_eq_core_run (n : Nat) (s : State) : runFor n s = Host.Core.run Sys2Proof.core n s := by
  induction n generalizing s with
  | zero => rfl
  | succ n ih =>
    cases h : step s <;> simp [runFor_step, Host.Core.run, Sys2Proof.core, h, ih]

theorem runFor_succ {s t : State} (n : Nat) (h : step s = .next t) : runFor (n + 1) s = runFor n t := by
  rw [runFor_step, h]

theorem runFor_add (m n : Nat) {s t : State} (h : runFor m s = .next t) :
    runFor (m + n) s = runFor n t := by
  induction m generalizing s with
  | zero => cases h; simp
  | succ m ih =>
    rw [Nat.add_right_comm, runFor_step]
    rw [runFor_step] at h
    cases hs : step s with
    | next u => rw [hs] at h; exact ih h
    | fault r => cases r
    | refused r => rw [hs] at h; cases h

theorem pinsAt_add (s : State) (n k : Nat) : pinsAt s (n + k) = pinsAt (State.tick^[n] s) k := by
  induction n generalizing s with
  | zero => simp
  | succ n ih => rw [Nat.add_right_comm, Function.iterate_succ_apply]; exact ih s.tick

/-! ## One timed micro-op, over its cycles -/

theorem noReset_mono {s : State} {m n : Nat} (h : m ≤ n) (hn : NoReset s n) : NoReset s m :=
  fun k hk => hn k (Nat.lt_of_lt_of_le hk h)

theorem noReset_succ {s : State} {n : Nat} (h : NoReset s (n + 1)) :
    s.pins.rst = false ∧ NoReset s.tick n :=
  ⟨h 0 (Nat.succ_pos n), fun k hk => h (k + 1) (Nat.succ_lt_succ hk)⟩

/-- The input values to come depend on the input fields alone. -/
theorem pinsAt_congr {s t : State} (h1 : s.inputs = t.inputs) (h2 : s.cycle = t.cycle) (n : Nat) :
    pinsAt s n = pinsAt t n := by
  induction n generalizing s t with
  | zero => simp [pinsAt, State.pins, h1, h2]
  | succ n ih => exact ih (by simp [h1]) (by simp [h2])

/-- Two states with the same input values to come. -/
def SameInputs (s t : State) : Prop := s.inputs = t.inputs ∧ s.cycle = t.cycle

theorem SameInputs.pinsAt {s t : State} (h : SameInputs s t) (n : Nat) : pinsAt s n = pinsAt t n :=
  pinsAt_congr h.1 h.2 n

theorem SameInputs.noReset {s t : State} (h : SameInputs s t) {n : Nat} (hn : NoReset s n) : NoReset t n :=
  fun k hk => by rw [← h.pinsAt]; exact hn k hk

theorem noReset_congr {s t : State} {n : Nat} (h : NoReset s n) (h1 : s.inputs = t.inputs)
    (h2 : s.cycle = t.cycle) : NoReset t n :=
  SameInputs.noReset ⟨h1, h2⟩ h

theorem advanceOn_sameInputs (q : Script) (s : State) : SameInputs (advanceOn q s) s := by
  induction q generalizing s with
  | nil => exact ⟨rfl, rfl⟩
  | cons op q ih =>
    cases op with
    | drv l v => cases l <;> exact ih _
    | rel l => cases l <;> exact ih _
    | set r => cases r <;> exact ih _
    | ev e => cases e <;> exact ih _
    | wait d => exact ⟨rfl, rfl⟩
    | ackwin => exact ⟨rfl, rfl⟩

/-- A state `n` cycles later in which nothing but the input values and the pulses has moved. -/
def later (n : Nat) (s : State) : State := (State.tick^[n] s).clearPulses

theorem later_succ (n : Nat) (s : State) : later (n + 1) s = later n s.tick := rfl

theorem tick_iter_clear (n : Nat) (s : State) : State.tick^[n] s.clearPulses = (State.tick^[n] s).clearPulses := by
  induction n generalizing s with
  | zero => rfl
  | succ n ih => exact ih s.tick

theorem tick_iter_setTimer (n m : Nat) (s : State) : State.tick^[n] (s.setTimer m) = (State.tick^[n] s).setTimer m := by
  induction n generalizing s with
  | zero => rfl
  | succ n ih => exact ih s.tick

theorem step_run {s : State} (hc : s.cfg.legal = true) (hm : s.mode = .run) (hr : s.pins.rst = false) :
    step s = .next (runCycle s.pins s.tick) := by
  rw [step_eq hc]
  unfold cycleOn
  rw [if_neg (by simp [hr])]
  have : s.tick.mode = .run := hm
  rw [this]

theorem step_wait_more {s : State} (hc : s.cfg.legal = true) (hm : s.mode = .run) (haw : s.aw = false)
    (hw : 1 < s.w) (hr : s.pins.rst = false) :
    step s = .next (s.tick.clearPulses.setTimer (s.w - 1)) := by
  rw [step_run hc hm hr]
  unfold runCycle runSample
  rw [if_pos (show 1 < s.tick.w from hw), if_neg (show ¬ s.tick.aw = true by simp [haw])]
  rfl

theorem step_wait_last {s : State} (hc : s.cfg.legal = true) (hm : s.mode = .run) (haw : s.aw = false)
    (hw : s.w = 1) (hr : s.pins.rst = false) :
    step s = .next (advanceOn s.q (s.tick.clearPulses.setTimer 0)) := by
  rw [step_run hc hm hr]
  unfold runCycle runSample endTimed
  have h1 : ¬ 1 < s.tick.w := by simp [hw]
  have h2 : ¬ s.tick.aw = true := by simp [haw]
  rw [if_neg h1, if_neg h2, if_neg (show ¬ (s.tick.clearPulses.setTimer 0).aw = true from h2)]
  rfl

/-- What a cycle of a running wait shows: the first one the state itself, a later one the same state with
its timer lower and the pulses cleared. -/
def waitState (k : Nat) (s : State) : State :=
  if k = 0 then s else (later k s).setTimer (s.w - k)

theorem wait_runs {s : State} (hc : s.cfg.legal = true) (hm : s.mode = .run) (haw : s.aw = false)
    (hw : 1 ≤ s.w) (hr : NoReset s s.w) :
    (∀ k, k < s.w → runFor k s = .next (waitState k s)) ∧
    runFor s.w s = .next (advanceOn s.q ((later s.w s).setTimer 0)) := by
  generalize hn : s.w = n at *
  induction n generalizing s with
  | zero => omega
  | succ n ih =>
    obtain ⟨hr0, hr1⟩ := noReset_succ hr
    rcases Nat.eq_zero_or_pos n with rfl | hn0
    · refine ⟨fun k hk => ?_, ?_⟩
      · obtain rfl : k = 0 := by omega
        rfl
      · rw [runFor_succ _ (step_wait_last hc hm haw hn hr0)]
        rfl
    · have hs := step_wait_more hc hm haw (by omega) hr0
      rw [hn, Nat.add_sub_cancel] at hs
      have hsi : SameInputs s.tick (s.tick.clearPulses.setTimer n) := ⟨rfl, rfl⟩
      obtain ⟨h1, h2⟩ := ih (s := s.tick.clearPulses.setTimer n) hc hm haw rfl hn0 (hsi.noReset hr1)
      refine ⟨fun k hk => ?_, ?_⟩
      · rcases Nat.eq_zero_or_pos k with rfl | hk0
        · rfl
        · obtain ⟨j, rfl⟩ : ∃ j, k = j + 1 := ⟨k - 1, by omega⟩
          rw [runFor_succ _ hs, h1 j (by omega)]
          unfold waitState later
          rw [tick_iter_setTimer, tick_iter_clear, hn]
          split
          · rename_i hj; subst hj; simp
          · rw [if_neg (by omega), Nat.add_sub_add_right]; rfl
      · rw [runFor_succ _ hs, h2]
        unfold later
        rw [tick_iter_setTimer, tick_iter_clear]
        rfl

/-- A state whose input list begins with a run of equal values without reset has no reset while the run lasts. -/
theorem noReset_constant {s : State} {p : Pins} {m : Nat} {rest : List PinRun} (h : s.inputs = ⟨p, m⟩ :: rest)
    (hp : p.rst = false) (n : Nat) (hn : n ≤ m + 1) : NoReset s n := by
  intro k hk
  induction k generalizing s m n with
  | zero => simp [pinsAt, State.pins, h, hp]
  | succ k ih =>
    obtain ⟨j, rfl⟩ : ∃ j, m = j + 1 := ⟨m - 1, by omega⟩
    exact ih (s := s.tick) (m := j) (by simp [State.tick, laterInputs, h]) (n - 1) (by omega) (by omega)

theorem pinsAt_constant {s : State} {p : Pins} {m : Nat} {rest : List PinRun} (h : s.inputs = ⟨p, m⟩ :: rest)
    (k : Nat) (hk : k ≤ m) : pinsAt s k = p := by
  induction k generalizing s m with
  | zero => simp [pinsAt, State.pins, h]
  | succ k ih =>
    obtain ⟨j, rfl⟩ : ∃ j, m = j + 1 := ⟨m - 1, by omega⟩
    exact ih (s := s.tick) (m := j) (by simp [State.tick, laterInputs, h]) (by omega)

end Sys2Proof.Laws
end

