-- ==== Sys2Proof/Laws/Scripts.lean ====
section
/-! SUPPORT. The scripts: their lengths, the entries of a well-formed table, and scripts that only move lines. -/

namespace Sys2Proof.Laws

open Sys2Proof Sys2Proof.Machine Sys2Proof.Safety

theorem entriesScript_some {c : Config} (m : Memory) (h : Memory.wf m = true) (i : Nat) :
    ∃ q, entriesScript c i m = some q := by
  induction m generalizing i with
  | nil => exact ⟨[], rfl⟩
  | cons e es ih =>
    simp only [Memory.wf, List.all_cons, Bool.and_eq_true] at h
    obtain ⟨q, hq⟩ := ih h.2 (i + 1)
    rcases (entryLegal_iff e).1 h.1 with hd | ⟨d, hd⟩ <;>
      simp [entriesScript, entryScript, hd, hq]

theorem attachScript_some {c : Config} (h : c.legal = true) : ∃ q, attachScript c = some q := by
  obtain ⟨q, hq⟩ := entriesScript_some (c := c) c.cmdTable (legal_rom h) 0
  unfold attachScript
  rw [hq]
  exact ⟨_, rfl⟩

/-- The micro-ops of a script that only moves lines and waits. -/
def LineOnly (c : Config) (q : Script) : Prop :=
  ∀ op ∈ q, (∃ l v, op = .drv l v) ∨ (∃ l, op = .rel l) ∨ ∃ d, op = .wait d ∧ d ∈ c.durations

theorem LineOnly.windowless {c : Config} {q : Script} (h : LineOnly c q) : Windowless c q := by
  intro op hop
  rcases h op hop with ⟨l, v, rfl⟩ | ⟨l, rfl⟩ | ⟨d, rfl, hd⟩
  · exact ⟨by simp, by simp⟩
  · exact ⟨by simp, by simp⟩
  · exact ⟨by simp, fun d' h => by cases h; exact hd⟩

theorem LineOnly.append {c : Config} {p q : Script} (hp : LineOnly c p) (hq : LineOnly c q) : LineOnly c (p ++ q) :=
  fun op hop => (List.mem_append.1 hop).elim (hp op) (hq op)

theorem LineOnly.flatMap {c : Config} {α : Type} {f : α → Script} (h : ∀ x, LineOnly c (f x)) (l : List α) :
    LineOnly c (l.flatMap f) := by
  intro op hop
  obtain ⟨x, _, hx⟩ := List.mem_flatMap.1 hop
  exact h x op hx

theorem scriptTicks_append (c : Config) (p q : Script) : scriptTicks c (p ++ q) = scriptTicks c p + scriptTicks c q := by
  induction p with
  | nil => simp [scriptTicks]
  | cons op p ih => cases op <;> simp [scriptTicks, ih, Nat.add_assoc]

/-- The frame without its window and its closing release. -/
def frameBody (c : Config) (f : Frame16) : Script :=
  [.drv .bl true, .wait c.feStart]
  ++ [15, 14, 13, 12, 11, 10, 9, 8].flatMap (fun j => symScript c (f.getLsbD j))
  ++ [.drv .bl false, .wait c.feGapLow, .drv .bl true, .wait c.feGapHigh]
  ++ [7, 6, 5, 4, 3, 2, 1, 0].flatMap (fun j => symScript c (f.getLsbD j))
  ++ [.drv .bl false, .wait c.feEos]

theorem frameScript_eq (c : Config) (f : Frame16) (a : Bool) :
    frameScript c f a = frameBody c f ++ (ackScript a ++ [.drv .bl true]) := by
  simp [frameScript, frameBody]

theorem symScript_lineOnly (c : Config) (b : Bool) : LineOnly c (symScript c b) := by
  cases b <;> simp [LineOnly, symScript, Config.durations]

theorem frameBody_lineOnly (c : Config) (f : Frame16) : LineOnly c (frameBody c f) := by
  unfold frameBody
  refine ((((LineOnly.append ?_ (LineOnly.flatMap (fun j => symScript_lineOnly c _) _)).append ?_).append
    (LineOnly.flatMap (fun j => symScript_lineOnly c _) _)).append ?_)
  all_goals simp [LineOnly, Config.durations]

theorem symScript_ticks (c : Config) (b : Bool) : scriptTicks c (symScript c b) = ticks c c.feShort + ticks c c.feLong := by
  cases b <;> simp [symScript, scriptTicks, Nat.add_comm]

theorem flatMap_ticks {α : Type} (c : Config) (f : α → Script) (n : Nat) (h : ∀ x, scriptTicks c (f x) = n) (l : List α) :
    scriptTicks c (l.flatMap f) = l.length * n := by
  induction l with
  | nil => simp [scriptTicks]
  | cons x l ih => rw [List.flatMap_cons, scriptTicks_append, h, ih, List.length_cons]; ring

theorem frameBody_ticks (c : Config) (f : Frame16) : scriptTicks c (frameBody c f) = frameTicks c := by
  unfold frameBody frameTicks
  rw [scriptTicks_append, scriptTicks_append, scriptTicks_append, scriptTicks_append,
    flatMap_ticks c _ _ (fun j => symScript_ticks c _), flatMap_ticks c _ _ (fun j => symScript_ticks c _)]
  simp only [scriptTicks, List.length_cons, List.length_nil]
  omega

/-- The rest of the handshake once its event is raised. -/
def hsBody (c : Config) : Script :=
  [.drv .bl false, .wait c.hsResetLow, .drv .bl true, .wait c.hsHigh, .drv .bl false, .wait c.hsDetect, .drv .bl true]

theorem hsBody_lineOnly (c : Config) : LineOnly c (hsBody c) := by
  simp [LineOnly, hsBody, Config.durations]

theorem hsBody_ticks (c : Config) : scriptTicks c (hsBody c) = handshakeTicks c := by
  simp [hsBody, scriptTicks, handshakeTicks, Nat.add_assoc]

theorem xmit_lineOnly (c : Config) (d : W9) : LineOnly c (xmitScript c d) := by
  unfold xmitScript
  refine (LineOnly.append (LineOnly.append ?_ (LineOnly.flatMap (fun j => ?_) _)) ?_) <;> simp [LineOnly, bitScript, Config.durations]
  cases d.getLsbD j <;> simp

theorem delay_lineOnly (c : Config) : LineOnly c (delayScript c) := by simp [LineOnly, delayScript, Config.durations]

end Sys2Proof.Laws
end

