-- ==== Sys2Proof/Laws/Play.lean ====
section
/-! SUPPORT. Scripts over their cycles: a windowless script, the acknowledgement window, and the waveform shown. -/

namespace Sys2Proof.Laws

open Sys2Proof Sys2Proof.Machine Sys2Proof.Safety

/-- The state in which `advance` goes on with `r` when the windowless script `q` has been played. -/
def effectOf : Script → Script → State → State
  | [], _, s => s
  | .drv l v :: q, r, s => effectOf q r (s.drive l v)
  | .rel l :: q, r, s => effectOf q r (s.release l)
  | .set x :: q, r, s => effectOf q r (s.setReg x)
  | .ev e :: q, r, s => effectOf q r (s.raiseEvent e)
  | .wait d :: q, r, s =>
    effectOf q r ((later (ticks s.cfg d) (s.startWait d (q ++ r))).setTimer 0)
  | .ackwin :: _, _, s => s

/-- `P` holds of the state of every cycle of the windowless script `q`, counted from 0. -/
def AllAt (P : Nat → State → Prop) : Script → Script → State → Prop
  | [], _, _ => True
  | .drv l v :: q, r, s => AllAt P q r (s.drive l v)
  | .rel l :: q, r, s => AllAt P q r (s.release l)
  | .set x :: q, r, s => AllAt P q r (s.setReg x)
  | .ev e :: q, r, s => AllAt P q r (s.raiseEvent e)
  | .wait d :: q, r, s =>
    (∀ k, k < ticks s.cfg d → P k (waitState k (s.startWait d (q ++ r)))) ∧
    AllAt (fun k => P (ticks s.cfg d + k)) q r ((later (ticks s.cfg d) (s.startWait d (q ++ r))).setTimer 0)
  | .ackwin :: _, _, _ => True

theorem tick_iter_fields (n : Nat) (s : State) :
    ∃ i c, State.tick^[n] s = { s with inputs := i, cycle := c } := by
  induction n generalizing s with
  | zero => exact ⟨s.inputs, s.cycle, rfl⟩
  | succ n ih =>
    obtain ⟨i, c, h⟩ := ih s.tick
    exact ⟨i, c, h⟩

theorem later_fields (n : Nat) (s : State) :
    ∃ i c, later n s = { s.clearPulses with inputs := i, cycle := c } := by
  obtain ⟨i, c, h⟩ := tick_iter_fields n s
  exact ⟨i, c, by rw [later, h]; rfl⟩

theorem noReset_later {s : State} {n m : Nat} (h : NoReset s (n + m)) : NoReset (State.tick^[n] s) m :=
  fun k hk => by rw [← pinsAt_add]; exact h (n + k) (by omega)

theorem noReset_tick_iter {s t : State} {n : Nat} (hst : SameInputs s t) {m : Nat} (h : NoReset s (n + m)) :
    NoReset (State.tick^[n] t) m :=
  noReset_later (hst.noReset h)

theorem windowless_cons {c : Config} {op : MicroOp} {q : Script} (h : Windowless c (op :: q)) : Windowless c q :=
  fun o ho => h o (List.mem_cons_of_mem _ ho)

/-- Playing a windowless script in front of `r`. -/
theorem play_windowless {c : Config} (hc : c.legal = true) (q r : Script) (s : State) (hcfg : s.cfg = c)
    (hq : Windowless c q) (hm : s.mode = .run) (haw : s.aw = false) (hr : NoReset s (scriptTicks c q)) :
    runFor (scriptTicks c q) (advanceOn (q ++ r) s) = .next (advanceOn r (effectOf q r s)) ∧
    ∀ P : Nat → State → Prop, AllAt P q r s → ∀ k, k < scriptTicks c q →
      ∃ u, runFor k (advanceOn (q ++ r) s) = .next u ∧ P k u := by
  induction q generalizing s with
  | nil => exact ⟨rfl, fun P _ k hk => absurd hk (Nat.not_lt_zero k)⟩
  | cons op q ih =>
    have hq' := windowless_cons hq
    cases op with
    | drv l v => cases l <;> exact ih _ hcfg hq' hm haw (noReset_congr hr rfl rfl)
    | rel l => cases l <;> exact ih _ hcfg hq' hm haw (noReset_congr hr rfl rfl)
    | set x => cases x <;> exact ih _ hcfg hq' hm haw (noReset_congr hr rfl rfl)
    | ev e => cases e <;> exact ih _ hcfg hq' hm haw (noReset_congr hr rfl rfl)
    | ackwin => exact absurd rfl (hq .ackwin (List.mem_cons_self)).1
    | wait d =>
      subst hcfg
      have hd := ticks_pos hc ((hq (.wait d) (List.mem_cons_self)).2 d rfl)
      simp only [scriptTicks] at hr ⊢
      have hr' : NoReset (s.startWait d (q ++ r)) (ticks s.cfg d + scriptTicks s.cfg q) :=
        noReset_congr hr rfl rfl
      have hadv : advanceOn (.wait d :: q ++ r) s = s.startWait d (q ++ r) := rfl
      rw [hadv]
      obtain ⟨h1, h2⟩ := wait_runs (s := s.startWait d (q ++ r)) hc hm haw hd (noReset_mono (Nat.le_add_right _ _) hr')
      obtain ⟨g1, g2⟩ := ih ((later (ticks s.cfg d) (s.startWait d (q ++ r))).setTimer 0)
        (by obtain ⟨i, cy, h⟩ := later_fields (ticks s.cfg d) (s.startWait d (q ++ r)); rw [h]; rfl) hq'
        (by obtain ⟨i, cy, h⟩ := later_fields (ticks s.cfg d) (s.startWait d (q ++ r)); rw [h]; exact hm)
        (by obtain ⟨i, cy, h⟩ := later_fields (ticks s.cfg d) (s.startWait d (q ++ r)); rw [h]; exact haw)
        (noReset_congr (noReset_later hr') rfl rfl)
      have hw : (s.startWait d (q ++ r)).w = ticks s.cfg d := rfl
      rw [hw] at h1 h2
      have hqr : (s.startWait d (q ++ r)).q = q ++ r := rfl
      rw [hqr] at h2
      refine ⟨?_, fun P hP k hk => ?_⟩
      · rw [runFor_add _ _ h2]
        exact g1
      · obtain ⟨hP1, hP2⟩ := hP
        rcases Nat.lt_or_ge k (ticks s.cfg d) with hlt | hge
        · exact ⟨_, h1 k hlt, hP1 k hlt⟩
        · obtain ⟨u, hu, hPu⟩ := g2 _ hP2 (k - ticks s.cfg d) (by omega)
          refine ⟨u, ?_, ?_⟩
          · have hk' : k = ticks s.cfg d + (k - ticks s.cfg d) := by omega
            rw [hk', runFor_add _ _ h2]
            exact hu
          · rwa [Nat.add_sub_cancel' hge] at hPu

/-! ## The acknowledgement window -/

/-- The state after `n` cycles of a window: sampled in each. -/
def winLater : Nat → State → State
  | 0, s => s
  | n + 1, s => winLater n (sampleAck s.pins.blIn s.tick.clearPulses)

theorem winLater_setTimer (n m : Nat) (s : State) : winLater n (s.setTimer m) = (winLater n s).setTimer m := by
  induction n generalizing s with
  | zero => rfl
  | succ n ih => exact ih (sampleAck s.pins.blIn s.tick.clearPulses)

/-- What a cycle of a running window shows. -/
def winState (k : Nat) (s : State) : State :=
  if k = 0 then s else (winLater k s).setTimer (s.w - k)

theorem step_win {s : State} (hc : s.cfg.legal = true) (hm : s.mode = .run) (haw : s.aw = true)
    (hr : s.pins.rst = false) :
    step s = .next (if 1 < s.w then (winLater 1 s).setTimer (s.w - 1) else endTimed ((winLater 1 s).setTimer 0)) := by
  rw [step_run hc hm hr]
  unfold runCycle runSample
  rw [if_pos (show s.tick.aw = true from haw)]
  rfl

theorem window_runs {s : State} (hc : s.cfg.legal = true) (hm : s.mode = .run) (haw : s.aw = true)
    (hw : 1 ≤ s.w) (hr : NoReset s s.w) :
    (∀ k, k < s.w → runFor k s = .next (winState k s)) ∧
    runFor s.w s = .next (endTimed ((winLater s.w s).setTimer 0)) := by
  generalize hn : s.w = n at *
  induction n generalizing s with
  | zero => omega
  | succ n ih =>
    obtain ⟨hr0, hr1⟩ := noReset_succ hr
    have hs := step_win hc hm haw hr0
    rw [hn] at hs
    rcases Nat.eq_zero_or_pos n with rfl | hn0
    · rw [if_neg (by omega)] at hs
      refine ⟨fun k hk => ?_, ?_⟩
      · obtain rfl : k = 0 := by omega
        rfl
      · rw [runFor_succ _ hs]
        rfl
    · rw [if_pos (by omega), Nat.add_sub_cancel] at hs
      have hsi : SameInputs s.tick ((winLater 1 s).setTimer n) := ⟨rfl, rfl⟩
      obtain ⟨h1, h2⟩ := ih (s := (winLater 1 s).setTimer n) hc hm haw rfl hn0 (hsi.noReset hr1)
      refine ⟨fun k hk => ?_, ?_⟩
      · rcases Nat.eq_zero_or_pos k with rfl | hk0
        · rfl
        · obtain ⟨j, rfl⟩ : ∃ j, k = j + 1 := ⟨k - 1, by omega⟩
          rw [runFor_succ _ hs, h1 j (by omega)]
          unfold winState
          rw [winLater_setTimer, hn]
          split
          · rename_i hj; subst hj; simp
          · rw [if_neg (by omega), Nat.add_sub_add_right]; rfl
      · rw [runFor_succ _ hs, h2, winLater_setTimer]
        rfl

theorem winLater_fields (n : Nat) (s : State) :
    ∃ b i c, winLater (n + 1) s = { s.clearPulses with awSeen := b, ao := s.ao + (n + 1), inputs := i, cycle := c } := by
  induction n generalizing s with
  | zero => exact ⟨_, _, _, rfl⟩
  | succ n ih =>
    obtain ⟨b, i, c, h⟩ := ih (sampleAck s.pins.blIn s.tick.clearPulses)
    refine ⟨b, i, c, ?_⟩
    have hao : (sampleAck s.pins.blIn s.tick.clearPulses).ao + (n + 1) = s.ao + (n + 1 + 1) := by
      show s.ao + 1 + (n + 1) = _
      omega
    rw [winLater, h, hao]
    rfl

/-- The window has seen a low sample iff one fell on a sample point. -/
theorem winLater_awSeen (n : Nat) (s : State) : (winLater n s).awSeen = true ↔
    s.awSeen = true ∨ ∃ k, k < n ∧ (s.ao + k) % ticks s.cfg s.cfg.ackPoll = 0 ∧ (pinsAt s k).blIn = false := by
  induction n generalizing s with
  | zero => simp [winLater]
  | succ n ih =>
    rw [winLater, ih]
    have hp : ∀ k, pinsAt (sampleAck s.pins.blIn s.tick.clearPulses) k = pinsAt s (k + 1) := fun k =>
      pinsAt_congr (s := sampleAck s.pins.blIn s.tick.clearPulses) (t := s.tick) rfl rfl k
    simp only [hp, sampleAck_awSeen, sampleAck_ao, sampleAck_cfg, clearPulses_cfg, clearPulses_ao, tick_ao, tick_cfg,
      clearPulses_awSeen, tick_awSeen, samplePoint, Bool.or_eq_true, Bool.and_eq_true, beq_iff_eq, Bool.not_eq_true']
    constructor
    · rintro ((h | ⟨h1, h2⟩) | ⟨k, hk, h1, h2⟩)
      · exact Or.inl h
      · exact Or.inr ⟨0, by omega, h1, h2⟩
      · exact Or.inr ⟨k + 1, by omega, by rw [← h1]; congr 1; omega, h2⟩
    · rintro (h | ⟨k, hk, h1, h2⟩)
      · exact Or.inl (Or.inl h)
      · rcases Nat.eq_zero_or_pos k with rfl | hk0
        · exact Or.inl (Or.inr ⟨h1, h2⟩)
        · obtain ⟨j, rfl⟩ : ∃ j, k = j + 1 := ⟨k - 1, by omega⟩
          exact Or.inr ⟨j, by omega, by rw [← h1]; congr 1; omega, h2⟩

/-! ## Playing one script after another -/

theorem effectOf_append (p q r : Script) (s : State) (h : .ackwin ∉ p) :
    effectOf (p ++ q) r s = effectOf q r (effectOf p (q ++ r) s) := by
  induction p generalizing s with
  | nil => rfl
  | cons op p ih =>
    have h' : .ackwin ∉ p := fun x => h (List.mem_cons_of_mem _ x)
    cases op with
    | ackwin => exact absurd List.mem_cons_self h
    | wait d => simp only [List.cons_append, effectOf, List.append_assoc]; exact ih _ h'
    | _ => exact ih _ h'

theorem allAt_append (p q r : Script) (P : Nat → State → Prop) (s : State) (c : Config) (hc : s.cfg = c) (h : .ackwin ∉ p)
    (hp : AllAt P p (q ++ r) s) (hq : AllAt (fun k => P (scriptTicks c p + k)) q r (effectOf p (q ++ r) s)) :
    AllAt P (p ++ q) r s := by
  induction p generalizing P s with
  | nil =>
    have e : (fun k => P (scriptTicks c [] + k)) = P := by funext k; simp [scriptTicks]
    rw [e] at hq; exact hq
  | cons op p ih =>
    have h' : .ackwin ∉ p := fun x => h (List.mem_cons_of_mem _ x)
    cases op with
    | ackwin => exact absurd List.mem_cons_self h
    | wait d =>
      subst hc
      obtain ⟨h1, h2⟩ := hp
      refine ⟨by simpa [List.append_assoc] using h1, ?_⟩
      show AllAt _ (p ++ q) r (State.setTimer 0 (later (ticks s.cfg d) (s.startWait d (p ++ q ++ r))))
      rw [List.append_assoc]
      refine ih _ _ ?_ h' h2 ?_
      · obtain ⟨i, c, e⟩ := later_fields (ticks s.cfg d) (s.startWait d (p ++ (q ++ r))); rw [e]; rfl
      · simp only [scriptTicks, effectOf, Nat.add_assoc] at hq
        exact hq
    | drv l v => exact ih P (s.drive l v) (by simpa using hc) h' hp hq
    | rel l => exact ih P (s.release l) (by simpa using hc) h' hp hq
    | set x => exact ih P (s.setReg x) (by simpa using hc) h' hp hq
    | ev x => exact ih P (s.raiseEvent x) (by simpa using hc) h' hp hq

/-! ## Scripts that only move lines -/

/-- All that a script of line moves leaves alone in `k` cycles, while it runs; a pulse lasts one cycle. -/
structure Calm (k : Nat) (s u : State) : Prop where
  mode : u.mode = .run
  aw : u.aw = false
  rsp : u.rsp = false
  evHs : u.evHs = (decide (k = 0) && s.evHs)
  evTo : u.evTo = (decide (k = 0) && s.evTo)
  fromReq : u.fromReq = s.fromReq
  pwr : u.pwrState = s.pwrState
  last : u.lastBrightness = s.lastBrightness
  rep : u.reportedBrightness = s.reportedBrightness
  ackEn : u.ackEn = s.ackEn
  ackStatus : u.ackStatus = s.ackStatus
  csp : u.cspState = s.cspState
  pc : u.pc = s.pc
  cfg : u.cfg = s.cfg

theorem Calm.trans {k j : Nat} {s u v : State} (h : Calm k s u) (g : Calm j u v) : Calm (k + j) s v :=
  ⟨g.mode, g.aw, g.rsp,
   by rw [g.evHs, h.evHs]; by_cases hj : j = 0 <;> by_cases hk : k = 0 <;> simp [hj, hk],
   by rw [g.evTo, h.evTo]; by_cases hj : j = 0 <;> by_cases hk : k = 0 <;> simp [hj, hk],
   g.fromReq.trans h.fromReq, g.pwr.trans h.pwr, g.last.trans h.last,
   g.rep.trans h.rep, g.ackEn.trans h.ackEn, g.ackStatus.trans h.ackStatus, g.csp.trans h.csp, g.pc.trans h.pc,
   g.cfg.trans h.cfg⟩

theorem Calm.now {k : Nat} {s u v : State} (h : Calm k s u) (g : Calm 0 u v) : Calm k s v := h.trans g

theorem calm_self {s : State} (hm : s.mode = .run) (haw : s.aw = false) (hr : s.rsp = false) : Calm 0 s s :=
  ⟨hm, haw, hr, by simp, by simp, rfl, rfl, rfl, rfl, rfl, rfl, rfl, rfl, rfl⟩

theorem calm_later {s : State} (hm : s.mode = .run) (haw : s.aw = false) {n : Nat} (hn : 1 ≤ n) (m : Nat) :
    Calm n s ((later n s).setTimer m) := by
  obtain ⟨i, c, e⟩ := later_fields n s
  rw [e]
  have hn0 : decide (n = 0) = false := by simp; omega
  exact ⟨hm, haw, rfl, by rw [hn0]; rfl, by rw [hn0]; rfl, rfl, rfl, rfl, rfl, rfl, rfl, rfl, rfl, rfl⟩

theorem calm_waitState {s : State} (hm : s.mode = .run) (haw : s.aw = false) (hr : s.rsp = false) (k : Nat) :
    Calm k s (waitState k s) := by
  unfold waitState
  split
  · rename_i h; subst h; exact calm_self hm haw hr
  · exact calm_later hm haw (by omega) _

theorem sameInputs_tick_iter (n : Nat) {a b : State} (hab : SameInputs a b) :
    SameInputs (State.tick^[n] a) (State.tick^[n] b) := by
  induction n generalizing a b with
  | zero => exact hab
  | succ n ihn => exact ihn (a := a.tick) (b := b.tick) ⟨by simp [hab.1], by simp [hab.2]⟩

theorem SameInputs.trans {a b d : State} (h1 : SameInputs a b) (h2 : SameInputs b d) : SameInputs a d :=
  ⟨h1.1.trans h2.1, h1.2.trans h2.2⟩

theorem SameInputs.symm {a b : State} (h : SameInputs a b) : SameInputs b a := ⟨h.1.symm, h.2.symm⟩

/-- A script that only moves lines and waits, from a state `off` cycles after `s₀`. -/
theorem lineOnly_runs {c : Config} (hc : c.legal = true) (q r : Script) (s s₀ : State) (off : Nat) (hcfg : s.cfg = c)
    (hq : LineOnly c q) (h : Calm off s₀ s) :
    AllAt (fun k u => Calm (off + k) s₀ u) q r s ∧ Calm (off + scriptTicks c q) s₀ (effectOf q r s) ∧
      SameInputs (effectOf q r s) (State.tick^[scriptTicks c q] s) := by
  induction q generalizing s off with
  | nil => exact ⟨trivial, h, rfl, rfl⟩
  | cons op q ih =>
    have hq' : LineOnly c q := fun o ho => hq o (List.mem_cons_of_mem _ ho)
    rcases hq op (List.mem_cons_self) with ⟨l, v, rfl⟩ | ⟨l, rfl⟩ | ⟨d, rfl, hd⟩
    · have hs : Calm off s₀ (s.drive l v) := h.now (by
        cases l <;> exact ⟨h.mode, h.aw, h.rsp, by simp, by simp, rfl, rfl, rfl, rfl, rfl, rfl, rfl, rfl, rfl⟩)
      obtain ⟨g1, g2, g3⟩ := ih (s.drive l v) off (by simp [hcfg]) hq' hs
      exact ⟨g1, g2, g3.trans (sameInputs_tick_iter _ ⟨by simp, by simp⟩)⟩
    · have hs : Calm off s₀ (s.release l) := h.now (by
        cases l <;> exact ⟨h.mode, h.aw, h.rsp, by simp, by simp, rfl, rfl, rfl, rfl, rfl, rfl, rfl, rfl, rfl⟩)
      obtain ⟨g1, g2, g3⟩ := ih (s.release l) off (by simp [hcfg]) hq' hs
      exact ⟨g1, g2, g3.trans (sameInputs_tick_iter _ ⟨by simp, by simp⟩)⟩
    · subst hcfg
      have hw : Calm off s₀ (s.startWait d (q ++ r)) := h.now
        ⟨h.mode, h.aw, h.rsp, by simp, by simp, rfl, rfl, rfl, rfl, rfl, rfl, rfl, rfl, rfl⟩
      have hl : Calm (ticks s.cfg d) (s.startWait d (q ++ r)) ((later (ticks s.cfg d) (s.startWait d (q ++ r))).setTimer 0) :=
        calm_later hw.mode hw.aw (ticks_pos hc hd) 0
      obtain ⟨g1, g2, g3⟩ := ih _ (off + ticks s.cfg d) hl.cfg hq' (hw.trans hl)
      have e1 : ∀ k, off + ticks s.cfg d + k = off + (ticks s.cfg d + k) := fun k => Nat.add_assoc _ _ _
      simp only [e1] at g1 g2
      refine ⟨⟨fun k _ => hw.trans (calm_waitState hw.mode hw.aw hw.rsp k), g1⟩, g2, g3.trans ?_⟩
      rw [scriptTicks, Nat.add_comm, Function.iterate_add_apply]
      refine sameInputs_tick_iter _ ?_
      exact sameInputs_tick_iter (ticks s.cfg d) (a := s.startWait d (q ++ r)) (b := s) ⟨rfl, rfl⟩

/-- The input values after `n` cycles of a window are those after `n` cycles. -/
theorem sameInputs_winLater (n : Nat) (s : State) : SameInputs (State.tick^[n] s) (winLater n s) := by
  induction n generalizing s with
  | zero => exact ⟨rfl, rfl⟩
  | succ n ih =>
    exact (sameInputs_tick_iter n (a := s.tick) (b := sampleAck s.pins.blIn s.tick.clearPulses) ⟨rfl, rfl⟩).trans (ih _)

/-! ## Waveforms -/

theorem linesOf_later (k m : Nat) (s : State) : linesOf ((later k s).setTimer m) = linesOf s := by
  obtain ⟨i, c, h⟩ := later_fields k s
  rw [h]; rfl
theorem linesOf_wait (k : Nat) (s : State) : linesOf (waitState k s) = linesOf s := by
  unfold waitState; split
  · rfl
  · exact linesOf_later _ _ _

theorem expand_cons (l : Lines) (n : Nat) (w : List (Lines × Nat)) : expand ((l, n) :: w) = List.replicate n l ++ expand w := by
  simp [expand]

theorem wf_length {c : Config} (q : Script) (l : Lines) : (expand (waveform c q l)).length = scriptTicks c q := by
  induction q generalizing l with
  | nil => rfl
  | cons op q ih =>
    cases op with
    | drv x v => cases x <;> exact ih _
    | rel x => cases x <;> exact ih _
    | set x => exact ih _
    | ev x => exact ih _
    | wait d => simp only [waveform, scriptTicks, expand_cons, List.length_append, List.length_replicate, ih]
    | ackwin => simp only [waveform, scriptTicks, expand_cons, List.length_append, List.length_replicate, ih]

theorem AllAt_mono {P Q : Nat → State → Prop} (h : ∀ k u, P k u → Q k u) (q r : Script) (s : State) (hP : AllAt P q r s) : AllAt Q q r s := by
  induction q generalizing P Q s with
  | nil => trivial
  | cons op q ih =>
    cases op with
    | drv x v => exact ih h _ hP
    | rel x => exact ih h _ hP
    | set x => exact ih h _ hP
    | ev x => exact ih h _ hP
    | wait d => exact ⟨fun k hk => h _ _ (hP.1 k hk), ih (fun k u => h _ u) _ hP.2⟩
    | ackwin => trivial

theorem wf_at {c : Config} (q r : Script) (s : State) (hcfg : s.cfg = c) (hm : s.mode = .run) (hrsp : s.rsp = false) :
    AllAt (fun k u => u.mode = .run ∧ u.rsp = false ∧ (expand (waveform c q (linesOf s)))[k]? = some (linesOf u)) q r s := by
  induction q generalizing s with
  | nil => trivial
  | cons op q ih =>
    cases op with
    | drv x v => 
      cases x
      · exact ih (s.drive .bl v) hcfg hm hrsp
      · exact ih (s.drive .sck v) hcfg hm hrsp
      · exact ih (s.drive .mosi v) hcfg hm hrsp
      · exact ih (s.drive .cs v) hcfg hm hrsp
    | rel x => 
      cases x
      · exact ih (s.release .bl) hcfg hm hrsp
      · exact ih (s.release .sck) hcfg hm hrsp
    | set x => have := ih (s.setReg x) (by simpa using hcfg) (by simpa using hm) (by simpa using hrsp); cases x <;> exact this
    | ev x => have := ih (s.raiseEvent x) (by simpa using hcfg) (by simpa using hm) (by simpa using hrsp); cases x <;> exact this
    | ackwin => trivial
    | wait d =>
      subst hcfg
      simp only [waveform, expand_cons]
      refine ⟨fun k hk => ⟨?_, ?_, ?_⟩, ?_⟩
      · unfold waitState; split
        · exact hm
        · obtain ⟨i, c, h⟩ := later_fields k (s.startWait d (q ++ r)); rw [h]; exact hm
      · unfold waitState; split
        · exact hrsp
        · obtain ⟨i, c, h⟩ := later_fields k (s.startWait d (q ++ r)); rw [h]; rfl
      · rw [linesOf_wait, List.getElem?_append_left (by simpa using hk)]
        simp [hk]; rfl
      · set v := (later (ticks s.cfg d) (s.startWait d (q ++ r))).setTimer 0 with hv
        have hvl : linesOf v = linesOf s := linesOf_later _ _ _
        obtain ⟨i, c, h⟩ := later_fields (ticks s.cfg d) (s.startWait d (q ++ r))
        have := ih v (by rw [hv, h]; rfl) (by rw [hv, h]; exact hm) (by rw [hv, h]; rfl)
        refine AllAt_mono (fun k u hu => ?_) q r v this
        rw [hvl] at hu
        refine ⟨hu.1, hu.2.1, ?_⟩
        rw [List.getElem?_append_right (by simp)]
        simpa using hu.2.2

theorem effect_keeps {c : Config} (q r : Script) (s : State) (hcfg : s.cfg = c) (hrsp : s.rsp = false) :
    (effectOf q r s).rsp = false ∧ (effectOf q r s).fromReq = s.fromReq := by
  induction q generalizing s with
  | nil => exact ⟨hrsp, rfl⟩
  | cons op q ih =>
    cases op with
    | drv x v => have := ih (s.drive x v) (by simpa using hcfg) (by simpa using hrsp); cases x <;> exact this
    | rel x => have := ih (s.release x) (by simpa using hcfg) (by simpa using hrsp); cases x <;> exact this
    | set x => have := ih (s.setReg x) (by simpa using hcfg) (by simpa using hrsp); cases x <;> exact this
    | ev x => have := ih (s.raiseEvent x) (by simpa using hcfg) (by simpa using hrsp); cases x <;> exact this
    | ackwin => exact ⟨hrsp, rfl⟩
    | wait d =>
      obtain ⟨i, c, h⟩ := later_fields (ticks s.cfg d) (s.startWait d (q ++ r))
      have := ih ((later (ticks s.cfg d) (s.startWait d (q ++ r))).setTimer 0) (by rw [h]; exact hcfg) (by rw [h]; rfl)
      rw [h] at this
      simp only [effectOf]
      rw [h]
      exact this

end Sys2Proof.Laws
end

