-- ==== Sys2Proof/Laws/FrameRun.lean ====
section
/-! SUPPORT. A frame over its cycles, for every way its acknowledgement can end (spec/41_frame_encoder.md R111 to R120). -/

namespace Sys2Proof.Laws

open Sys2Proof Sys2Proof.Machine Sys2Proof.Safety

theorem calm_now_op {s : State} (hm : s.mode = .run) (haw : s.aw = false) (hr : s.rsp = false) (l : Line) (v : Bool) :
    Calm 0 s (s.drive l v) := by
  cases l <;> exact ⟨hm, haw, hr, by simp, by simp, rfl, rfl, rfl, rfl, rfl, rfl, rfl, rfl, rfl⟩

/-- What the state shows `k` cycles into a frame whose acknowledgement ends as `r`; `s` is the state in which
its script starts. -/
structure FrameAt (s : State) (r : AckStatus) (k : Nat) (u : State) : Prop where
  pwr : u.pwrState = s.pwrState
  last : u.lastBrightness = s.lastBrightness
  rep : u.reportedBrightness = s.reportedBrightness
  ackEn : u.ackEn = s.ackEn
  csp : u.cspState = s.cspState
  pc : u.pc = s.pc
  cfg : u.cfg = s.cfg
  mode : u.mode = if k = frameTicks s.cfg + ackTicks s.cfg r then .idle else .run
  rsp : u.rsp = (decide (k = frameTicks s.cfg + ackTicks s.cfg r) && s.fromReq)
  evTo : u.evTo = true ↔ r = .timeout ∧ k = frameTicks s.cfg + windowTicks s.cfg
  evHs : u.evHs = true ↔ r = .timeout ∧ k = frameTicks s.cfg + windowTicks s.cfg
  ackStatus : u.ackStatus = if r ≠ .none ∧ frameTicks s.cfg + windowTicks s.cfg ≤ k then r else s.ackStatus
  line : k = frameTicks s.cfg + ackTicks s.cfg r → u.blOut = true ∧ u.blOe = true ∧ u.aw = false

theorem frame_runs {s : State} (f : Frame16) (hc : s.cfg.legal = true) (hm : s.mode = .run) (haw : s.aw = false)
    (hrsp : s.rsp = false) (he : s.evHs = false) (he' : s.evTo = false) (r : AckStatus)
    (hr : AckResult s (frameTicks s.cfg) r)
    (hn : NoReset s (frameTicks s.cfg + ackTicks s.cfg r)) (k : Nat) (hk : k ≤ frameTicks s.cfg + ackTicks s.cfg r) :
    ∃ u, runFor k (advanceOn (frameScript s.cfg f s.ackEn) s) = .next u ∧ FrameAt s r k u := by
  rw [frameScript_eq]
  have hlo := frameBody_lineOnly s.cfg f
  have hbt := frameBody_ticks s.cfg f
  have hW : 1 ≤ windowTicks s.cfg := ticks_pos hc (by simp [Config.durations])
  have hH : 1 ≤ handshakeTicks s.cfg := by
    have : 1 ≤ ticks s.cfg s.cfg.hsHigh := ticks_pos hc (by simp [Config.durations])
    unfold handshakeTicks; omega
  generalize hF : frameTicks s.cfg = F at *
  generalize hWW : windowTicks s.cfg = W at *
  have hatk : ∀ r' : AckStatus, ackTicks s.cfg r' = match r' with | .none => 0 | .ok => W | .timeout => W + handshakeTicks s.cfg := by
    intro r'; cases r' <;> simp [ackTicks, hWW]
  generalize hHH : handshakeTicks s.cfg = H at *
  obtain ⟨p1, p2⟩ := play_windowless hc (frameBody s.cfg f) (ackScript s.ackEn ++ [.drv .bl true]) s rfl hlo.windowless hm haw
    (by rw [hbt]; exact noReset_mono (Nat.le_add_right _ _) hn)
  obtain ⟨l1, l2, l3⟩ := lineOnly_runs hc (frameBody s.cfg f) (ackScript s.ackEn ++ [.drv .bl true]) s s 0 rfl hlo (calm_self hm haw hrsp)
  rw [hbt] at p1 p2 l2 l3
  have p2' := p2 _ l1
  simp only [Nat.zero_add] at p2' l2
  have hlt : k < F → ∃ u, runFor k (advanceOn (frameBody s.cfg f ++ (ackScript s.ackEn ++ [.drv .bl true])) s) = .next u ∧ FrameAt s r k u := by
    intro hkF
    obtain ⟨u, hu, hcm⟩ := p2' k hkF
    refine ⟨u, hu, ⟨hcm.pwr, hcm.last, hcm.rep, hcm.ackEn, hcm.csp, hcm.pc, hcm.cfg, ?_, ?_, ?_, ?_, ?_, ?_⟩⟩
    · rw [hcm.mode, if_neg (by rw [hF]; omega)]
    · rw [hcm.rsp, hF]; simp; omega
    · rw [hcm.evTo, he', hF, hWW]; simp; omega
    · rw [hcm.evHs, he, hF, hWW]; simp; omega
    · rw [hcm.ackStatus, hF, hWW, if_neg (by omega)]
    · rw [hF]; omega
  rcases Nat.lt_or_ge k F with hkF | hkF
  · exact hlt hkF
  obtain ⟨j, rfl⟩ : ∃ j, k = F + j := ⟨k - F, by omega⟩
  rw [runFor_add _ _ p1]
  generalize hE : effectOf (frameBody s.cfg f) (ackScript s.ackEn ++ [.drv .bl true]) s = e at *
  cases hack : s.ackEn with
  | false =>
    obtain rfl : r = .none := by cases r <;> simp_all [AckResult]
    obtain rfl : j = 0 := by simp [ackTicks] at hk; omega
    refine ⟨(e.drive .bl true).finish, rfl, ⟨l2.pwr, l2.last, l2.rep, l2.ackEn, l2.csp, l2.pc, l2.cfg, ?_, ?_, ?_, ?_, ?_, ?_⟩⟩
    · simp [ackTicks, hF]
    · simp [ackTicks, hF, l2.rsp, l2.fromReq]
    · simp [l2.evTo, he']
    · simp [l2.evHs, he]
    · simp [l2.ackStatus]
    · intro _; exact ⟨rfl, rfl, l2.aw⟩
  | true =>
    have hrn : r ≠ .none := by rintro rfl; simp [AckResult, hack] at hr
    have hackEn : ackTicks s.cfg r ≥ W := by rw [hatk]; cases r <;> simp_all
    have hecfg : e.cfg = s.cfg := l2.cfg
    set v := (e.release .bl).startWindow [.drv .bl true] with hv
    have hstart : advanceOn (ackScript true ++ [.drv .bl true]) e = v := rfl
    rw [hstart]
    have hvw : v.w = W := by rw [hv]; simp only [startWindow_w, release_cfg]; rw [hecfg]; exact hWW
    have hvc : v.cfg = s.cfg := hecfg
    have hvm : v.mode = .run := l2.mode
    have hvin : SameInputs (State.tick^[F] s) v := l3.symm.trans ⟨rfl, rfl⟩
    have hnv : ∀ m, NoReset s (F + m) → NoReset v m := fun m h => hvin.noReset (noReset_later h)
    obtain ⟨w1, w2⟩ := window_runs (s := v) (by rw [hvc]; exact hc) hvm rfl (by omega) (by
      rw [hvw]; exact hnv _ (noReset_mono (by omega) hn))
    rw [hvw] at w1 w2
    rcases Nat.lt_or_ge j W with hjW | hjW
    · refine ⟨_, w1 j hjW, ?_⟩
      have hcommon : ∀ x : State, x.pwrState = e.pwrState → x.lastBrightness = e.lastBrightness →
          x.reportedBrightness = e.reportedBrightness → x.ackEn = e.ackEn → x.cspState = e.cspState → x.pc = e.pc →
          x.cfg = e.cfg → x.mode = .run → x.rsp = false → x.evTo = false → x.evHs = false → x.ackStatus = e.ackStatus →
          FrameAt s r (F + j) x := by
        intro x x1 x2 x3 x4 x5 x6 x7 x8 x9 x10 x11 x12
        refine ⟨x1.trans l2.pwr, x2.trans l2.last, x3.trans l2.rep, x4.trans l2.ackEn, x5.trans l2.csp, x6.trans l2.pc,
          x7.trans l2.cfg, ?_, ?_, ?_, ?_, ?_, ?_⟩
        · rw [x8, hF, if_neg (by omega)]
        · rw [x9, hF]; simp; omega
        · rw [x10, hF, hWW]; simp; omega
        · rw [x11, hF, hWW]; simp; omega
        · rw [x12, hF, hWW, if_neg (by omega)]; exact l2.ackStatus
        · rw [hF]; intro h; omega
      unfold winState
      split
      · exact hcommon _ rfl rfl rfl rfl rfl rfl rfl hvm l2.rsp (by show e.evTo = false; rw [l2.evTo, he']; simp)
          (by show e.evHs = false; rw [l2.evHs, he]; simp) rfl
      · obtain ⟨i, rfl⟩ : ∃ i, j = i + 1 := ⟨j - 1, by omega⟩
        obtain ⟨b, ins, cy, hwl⟩ := winLater_fields i v
        rw [hwl]
        exact hcommon _ rfl rfl rfl rfl rfl rfl rfl hvm rfl rfl rfl rfl
    · obtain ⟨m, rfl⟩ : ∃ m, j = W + m := ⟨j - W, by omega⟩
      rw [runFor_add _ _ w2]
      have hseen : (winLater W v).awSeen = true ↔ AckSeen s F := by
        rw [winLater_awSeen]
        have hp : ∀ k, pinsAt v k = pinsAt s (F + k) := fun k => by rw [pinsAt_add]; exact (hvin.pinsAt k).symm
        have e0 : v.awSeen = false := rfl
        have e1 : v.ao = 0 := rfl
        rw [e0, e1, hvc]
        simp only [Bool.false_eq_true, false_or, hp, AckSeen, hWW, Nat.zero_add]
      have hwin : SameInputs (State.tick^[F + W] s) ((winLater W v).setTimer 0) := by
        have h1 : SameInputs (State.tick^[F + W] s) (State.tick^[W] v) := by
          rw [Nat.add_comm, Function.iterate_add_apply]
          exact sameInputs_tick_iter W hvin
        exact (h1.trans (sameInputs_winLater W v)).trans ⟨rfl, rfl⟩
      obtain ⟨W', rfl⟩ : ∃ W', W = W' + 1 := ⟨W - 1, by omega⟩
      obtain ⟨b, ins, cy, hwl⟩ := winLater_fields W' v
      have hb : (winLater (W' + 1) v).awSeen = b := by rw [hwl]
      rw [hb] at hseen
      have haw' : ((winLater (W' + 1) v).setTimer 0).aw = true := by rw [hwl]; rfl
      have hb' : ((winLater (W' + 1) v).setTimer 0).awSeen = b := hb
      have hq' : ((winLater (W' + 1) v).setTimer 0).q = [.drv .bl true] := by rw [hwl]; rfl
      unfold endTimed
      rw [if_pos haw', hb']
      cases b with
      | true =>
        obtain rfl : r = .ok := by
          cases r with
          | none => exact absurd rfl hrn
          | ok => rfl
          | timeout => exact absurd (hseen.1 rfl) hr.2
        obtain rfl : m = 0 := by have := hatk .ok; simp only at this; omega
        rw [if_pos rfl, advance]
        have hq'' : (recordAckOk ((winLater (W' + 1) v).setTimer 0)).q = [.drv .bl true] := hq'
        rw [hq'', hwl]
        refine ⟨_, rfl, ⟨l2.pwr, l2.last, l2.rep, l2.ackEn, l2.csp, l2.pc, l2.cfg, ?_, ?_, ?_, ?_, ?_, ?_⟩⟩
        · rw [hF, hatk]; simp [advanceOn]
        · rw [hF, hatk]
          show (false || e.fromReq) = _
          rw [l2.fromReq]; simp
        · show false = true ↔ _; simp
        · show false = true ↔ _; simp
        · rw [hF, hWW, if_pos ⟨by simp, by omega⟩]; rfl
        · intro _; exact ⟨rfl, rfl, rfl⟩
      | false =>
        obtain rfl : r = .timeout := by
          cases r with
          | none => exact absurd rfl hrn
          | timeout => rfl
          | ok => exact absurd (hseen.2 hr.2) (by simp)
        have hat := hatk .timeout
        simp only at hat
        rw [hat] at hk hn
        rw [if_neg (by simp), takeAckTimeout_eq, hq']
        generalize hY : ((recordAckTimeout ((winLater (W' + 1) v).setTimer 0)).resume.raiseEvent .handshake) = Y
        have hYc : Y.cfg = s.cfg := by rw [← hY, hwl]; exact hvc
        have hcc : ((winLater (W' + 1) v).setTimer 0).cfg = s.cfg := by rw [hwl]; exact hvc
        have hYm : Y.mode = .run := by rw [← hY]; rfl
        have hYa : Y.aw = false := by rw [← hY]; rfl
        have hYr : Y.rsp = false := by rw [← hY, hwl]; rfl
        have hYe : Y.evHs = true ∧ Y.evTo = true := by rw [← hY]; exact ⟨rfl, rfl⟩
        have hYs : Y.ackStatus = .timeout := by rw [← hY]; rfl
        have hYin : SameInputs (State.tick^[F + (W' + 1)] s) Y := by rw [← hY]; exact hwin.trans ⟨rfl, rfl⟩
        have hYx : Y.pwrState = e.pwrState ∧ Y.lastBrightness = e.lastBrightness ∧ Y.reportedBrightness = e.reportedBrightness ∧
          Y.ackEn = e.ackEn ∧ Y.cspState = e.cspState ∧ Y.pc = e.pc ∧ Y.fromReq = e.fromReq := by
          rw [← hY, hwl]; exact ⟨rfl, rfl, rfl, rfl, rfl, rfl, rfl⟩
        obtain ⟨y1, y2, y3, y4, y5, y6, y7⟩ := hYx
        rw [hcc]
        have hhs : (hsScript s.cfg).tail = hsBody s.cfg := rfl
        rw [hhs]
        have hhl := hsBody_lineOnly s.cfg
        have hht := hsBody_ticks s.cfg
        obtain ⟨q1, q2⟩ := play_windowless hc (hsBody s.cfg) [.drv .bl true] Y hYc hhl.windowless hYm hYa
          (by rw [hht, hHH]; exact hYin.noReset (noReset_later (noReset_mono (by omega) hn)))
        obtain ⟨z1, z2, z3⟩ := lineOnly_runs hc (hsBody s.cfg) [.drv .bl true] Y Y 0 hYc hhl (calm_self hYm hYa hYr)
        rw [hht, hHH] at q1 q2 z2
        rcases Nat.lt_or_ge m H with hmH | hmH
        · obtain ⟨u, hu, hcm⟩ := q2 _ z1 m hmH
          simp only [Nat.zero_add] at hcm
          refine ⟨u, hu, ⟨hcm.pwr.trans (y1.trans l2.pwr), hcm.last.trans (y2.trans l2.last), hcm.rep.trans (y3.trans l2.rep),
            hcm.ackEn.trans (y4.trans l2.ackEn), hcm.csp.trans (y5.trans l2.csp), hcm.pc.trans (y6.trans l2.pc),
            hcm.cfg.trans hYc, ?_, ?_, ?_, ?_, ?_, ?_⟩⟩
          · rw [hcm.mode, hF, hat, if_neg (by omega)]
          · rw [hcm.rsp, hF, hat]; simp; omega
          · rw [hcm.evTo, hYe.2, hF, hWW]; simp
          · rw [hcm.evHs, hYe.1, hF, hWW]; simp
          · rw [hcm.ackStatus, hYs, hF, hWW, if_pos ⟨by simp, by omega⟩]
          · rw [hF, hat]; intro h; omega
        · obtain rfl : m = H := by omega
          rw [q1]
          simp only [Nat.zero_add] at z2
          generalize effectOf (hsBody s.cfg) [.drv .bl true] Y = Z at z2
          refine ⟨(Z.drive .bl true).finish, rfl, ⟨z2.pwr.trans (y1.trans l2.pwr), z2.last.trans (y2.trans l2.last),
            z2.rep.trans (y3.trans l2.rep),
            z2.ackEn.trans (y4.trans l2.ackEn), z2.csp.trans (y5.trans l2.csp), z2.pc.trans (y6.trans l2.pc),
            z2.cfg.trans hYc, ?_, ?_, ?_, ?_, ?_, ?_⟩⟩
          · rw [hF, hat, if_pos (by omega)]; rfl
          · rw [hF, hat]
            show (Z.rsp || Z.fromReq) = _
            rw [z2.rsp, z2.fromReq, y7, l2.fromReq]; simp
          · show Z.evTo = true ↔ _
            rw [z2.evTo, hF, hWW]; simp; omega
          · show Z.evHs = true ↔ _
            rw [z2.evHs, hF, hWW]; simp; omega
          · show Z.ackStatus = _
            rw [z2.ackStatus, hYs, hF, hWW, if_pos ⟨by simp, by omega⟩]
          · intro _; exact ⟨rfl, rfl, z2.aw⟩

end Sys2Proof.Laws
end

