-- ==== Sys2Proof/Laws/Invariant.lean ====
section
/-! SUPPORT. The invariant over `advance`, over each script of the block, and over the parts of a step (spec/10_state.md R41). -/

namespace Sys2Proof.Laws

open Sys2Proof Sys2Proof.Machine Sys2Proof.Safety

theorem modeInv_boot {s : State} (h : s.mode = .boot) : ModeInv s ↔ BootInv s := by simp [ModeInv, h]
theorem modeInv_idle {s : State} (h : s.mode = .idle) : ModeInv s ↔ IdleInv s := by simp [ModeInv, h]
theorem modeInv_run {s : State} (h : s.mode = .run) : ModeInv s ↔ RunInv s := by simp [ModeInv, h]

/-- What `advance` on a script that keeps the invariant ends in meets the invariant. -/
theorem advanceOn_inv {c : Config} (hc : c.legal = true) (q : Script) (s : State) (hcfg : s.cfg = c)
    (hq : ScriptOk c q (view s)) (hm : s.mode = .run) (haw : s.aw = false) (hw : s.w = 0)
    (hack : s.ackEn = false → s.ackStatus = .none) (hao : s.ao ≤ windowTicks c)
    (hrsp : s.rsp = false) (hev : s.evTo = true → s.evHs = true) : Inv (advanceOn q s) := by
  induction q generalizing s with
  | nil =>
    obtain ⟨h1, h2, h3, h4⟩ := hq
    have h4' : s.evHs = false ∧ s.evTo = false := by
      simpa [view] using h4
    subst hcfg
    exact ⟨hc, h1, hack, hao, rfl, hw, haw, h2, h3, h4'.1, h4'.2⟩
  | cons op q ih =>
    cases op with
    | drv l v => cases l <;> exact ih _ hcfg hq hm haw hw hack hao hrsp hev
    | rel l => cases l <;> exact ih _ hcfg hq hm haw hw hack hao hrsp hev
    | set r =>
      cases r with
      | pwrState v =>
        cases v with
        | off => exact hq.elim
        | on => exact ih _ hcfg hq.2 hm haw hw hack hao hrsp hev
      | lastBrightness v => exact hq.elim
      | reportedBrightness v => exact ih _ hcfg hq hm haw hw hack hao hrsp hev
      | cspState v => exact ih _ hcfg hq.2 hm haw hw hack hao hrsp hev
      | pc v => exact ih _ hcfg hq.2 hm haw hw hack hao hrsp hev
    | ev e =>
      cases e with
      | handshake => exact ih _ hcfg hq hm haw hw hack hao hrsp (fun _ => rfl)
      | ackTimeout => exact hq.elim
    | wait d =>
      obtain ⟨h1, h2, h3, h4⟩ := hq
      subst hcfg
      refine ⟨hc, h2, hack, hao, ?_⟩
      exact (modeInv_run (s := s.startWait d q) hm).2 ⟨ticks_pos hc h1, ticks_le_maxTicks h1, hrsp, hev, fun _ => h3, h4,
        fun h => by simp [haw] at h⟩
    | ackwin =>
      obtain ⟨h1, h2, h3, h4, h5, h6⟩ := hq
      subst hcfg
      have hb : s.cfg.ackBudget ∈ s.cfg.durations := by simp [Config.durations]
      refine ⟨hc, h1, hack, Nat.zero_le _, ?_⟩
      exact (modeInv_run (s := s.startWindow q) hm).2 ⟨ticks_pos hc hb, ticks_le_maxTicks hb, hrsp, hev, fun h => by simp at h, h5,
        fun _ => ⟨h3, h4, h2, by simp [windowTicks], h6⟩⟩

theorem consistent_bl {c : Config} {v : View} (hd : v.csp = .done) (x y e : Bool)
    (h : v.Consistent c) : ({ v with blOut := x, blOe := y, ev := e } : View).Consistent c := by
  obtain ⟨h1, h2, h3, h4, h5, h6, h7⟩ := h
  exact ⟨h1, h2, h3, fun h => absurd hd h, h5, h6, h7⟩

theorem scriptOk_sym {c : Config} {q : Script} {v : View} (bit : Bool) (hd : v.csp = .done)
    (hv : v.Consistent c) (hq : ScriptOk c q { v with blOut := true, blOe := true, ev := false }) :
    ScriptOk c (symScript c bit ++ q) v := by
  have hs : c.feShort ∈ c.durations := by simp [Config.durations]
  have hl : c.feLong ∈ c.durations := by simp [Config.durations]
  cases bit
  · exact ⟨hl, consistent_bl hd _ _ _ hv, rfl, hs, consistent_bl hd _ _ _ hv, rfl, hq⟩
  · exact ⟨hs, consistent_bl hd _ _ _ hv, rfl, hl, consistent_bl hd _ _ _ hv, rfl, hq⟩

theorem scriptOk_syms {c : Config} {q : Script} (bits : List Bool) {v : View} (hd : v.csp = .done)
    (hv : v.Consistent c) (he : v.ev = false) (hb : v.blOut = true) (hb' : v.blOe = true)
    (hq : ScriptOk c q v) : ScriptOk c (bits.flatMap (symScript c) ++ q) v := by
  induction bits with
  | nil => exact hq
  | cons b bits ih =>
    rw [List.flatMap_cons, List.append_assoc]
    apply scriptOk_sym b hd hv
    have : ({ v with blOut := true, blOe := true, ev := false } : View) = v := by
      cases v; simp_all
    rw [this]; exact ih

theorem flatMap_sym (c : Config) (f : Frame16) (l : List Nat) :
    l.flatMap (fun j => symScript c (f.getLsbD j)) = (l.map (fun j => f.getLsbD j)).flatMap (symScript c) := by
  rw [List.flatMap_map]

theorem scriptOk_hs {c : Config} {q : Script} {v : View} (hd : v.csp = .done) (hv : v.Consistent c)
    (hq : ScriptOk c q { v with blOut := true, blOe := true, ev := false }) :
    ScriptOk c (hsScript c ++ q) v := by
  have h1 : c.hsResetLow ∈ c.durations := by simp [Config.durations]
  have h2 : c.hsHigh ∈ c.durations := by simp [Config.durations]
  have h3 : c.hsDetect ∈ c.durations := by simp [Config.durations]
  exact ⟨h1, consistent_bl hd _ _ _ hv, rfl, h2, consistent_bl hd _ _ _ hv, rfl, h3,
    consistent_bl hd _ _ _ hv, rfl, hq⟩

theorem scriptOk_frame {c : Config} (f : Frame16) (a : Bool) {v : View} (hd : v.csp = .done)
    (hv : v.Consistent c) (ha : a = true → v.ackEn = true) :
    ScriptOk c (frameScript c f a) v := by
  have h1 : c.feStart ∈ c.durations := by simp [Config.durations]
  have h2 : c.feGapLow ∈ c.durations := by simp [Config.durations]
  have h3 : c.feGapHigh ∈ c.durations := by simp [Config.durations]
  have h4 : c.feEos ∈ c.durations := by simp [Config.durations]
  have hc := fun x y e => consistent_bl hd x y e hv
  unfold frameScript
  rw [flatMap_sym, flatMap_sym]
  simp only [List.append_assoc, List.cons_append, List.nil_append]
  refine ⟨h1, hc _ _ _, rfl, ?_⟩
  refine scriptOk_syms _ hd (hc _ _ _) rfl rfl rfl ?_
  refine ⟨h2, hc _ _ _, rfl, h3, hc _ _ _, rfl, ?_⟩
  refine scriptOk_syms _ hd (hc _ _ _) rfl rfl rfl ?_
  refine ⟨h4, hc _ _ _, rfl, ?_⟩
  cases a
  · exact ⟨hc _ _ _, hd, rfl, rfl⟩
  · exact ⟨hc _ _ _, hd, ha rfl, rfl, ⟨hc _ _ _, hd, rfl, rfl⟩, ⟨hc _ _ _, hd, rfl, rfl⟩⟩

/-- The script of an accepted SET_ON or OFF request keeps the invariant. -/
theorem scriptOk_powerUp {c : Config} {v : View} (hd : v.csp = .done) (hr : v.fromReq = true) (hv : v.Consistent c) :
    ScriptOk c (powerUpScript c v.last v.ackEn) v := by
  unfold powerUpScript
  rw [List.append_assoc]
  apply scriptOk_hs hd hv
  obtain ⟨h1, h2, h3, h4, h5, h6, h7⟩ := hv
  refine ⟨hr, ?_⟩
  refine scriptOk_frame (v := { v with blOut := true, blOe := true, ev := false, rep := v.last, pwr := .on }) _ _ hd ?_ (fun h => h)
  exact ⟨fun h => PwrState.noConfusion h, fun _ => rfl, h3, fun h => absurd hd h, h5, h6, h7⟩

theorem scriptOk_xmit {c : Config} {q : Script} (d : W9) {v : View} (hv : v.Consistent c)
    (hcsp : v.csp = .transmitting)
    (hq : ScriptOk c q { v with mosi := false, cs := true, ev := false }) :
    ScriptOk c (xmitScript c d ++ q) v := by
  have h1 : c.cspHalf ∈ c.durations := by simp [Config.durations]
  have h2 : c.cspGap ∈ c.durations := by simp [Config.durations]
  have hnd : v.csp ≠ .done := by rw [hcsp]; decide
  obtain ⟨a1, a2, a3, a4, a5, a6, a7⟩ := hv
  obtain ⟨b1, b2, b3, b4⟩ := a4 hnd
  have hc : ∀ x y e, ({ v with sckOe := true, mosi := x, cs := y, ev := e } : View).Consistent c :=
    fun x y e => ⟨a1, a2, fun h => absurd h hnd, fun _ => ⟨b1, rfl, b3, b4⟩, fun h => absurd hcsp h, a6, a7⟩
  have hbits : ∀ (bits : List Bool) (u : View),
      (∃ x y e, u = { v with sckOe := true, mosi := x, cs := y, ev := e }) →
      ScriptOk c (bits.flatMap (bitScript c) ++ ([.drv .mosi false, .drv .cs true, .wait c.cspGap] ++ q)) u := by
    intro bits
    induction bits with
    | nil =>
      rintro u ⟨x, y, e, rfl⟩
      refine ⟨h2, hc _ _ _, b3, ?_⟩
      have : ({ v with sckOe := true } : View) = v := by cases v; simp_all
      rw [← this] at hq
      exact hq
    | cons b bits ih =>
      rintro u ⟨x, y, e, rfl⟩
      rw [List.flatMap_cons, List.append_assoc]
      exact ⟨h1, hc _ _ _, b3, h1, hc _ _ _, b3, ih _ ⟨_, _, _, rfl⟩⟩
  have hfm : [8, 7, 6, 5, 4, 3, 2, 1, 0].flatMap (fun j => bitScript c (d.getLsbD j)) =
      ([8, 7, 6, 5, 4, 3, 2, 1, 0].map (fun j => d.getLsbD j)).flatMap (bitScript c) := by
    rw [List.flatMap_map]
  unfold xmitScript
  rw [hfm]
  simp only [List.append_assoc, List.cons_append, List.nil_append]
  refine hbits _ _ ⟨v.mosi, false, v.ev, ?_⟩
  cases v; simp_all


/-- The player's part of the attach script, from the index of its first entry on. -/
theorem scriptOk_entries {c : Config} (r : Script) (m : Memory) (i : Nat) {q : Script}
    (hq : entriesScript c i m = some q) (hi : i + m.length = c.cmdTable.length) {v : View}
    (hv : v.pwr = .off ∧ v.rep = 0#5 ∧ v.sckOe = true ∧ v.blOe = true ∧ v.blOut = false ∧
      v.mosi = false ∧ v.cs = true ∧ v.ev = false ∧ v.pc ≤ i)
    (hr : ∀ u : View, u.pwr = .off → u.rep = 0#5 → u.ackEn = v.ackEn → u.sckOe = true → u.blOe = true →
      u.blOut = false → u.mosi = false → u.cs = true → u.pc ≤ c.cmdTable.length → ScriptOk c r u) :
    ScriptOk c (q ++ r) v := by
  induction m generalizing i q v with
  | nil =>
    cases hq
    simp only [List.length_nil, Nat.add_zero] at hi
    obtain ⟨h1, h2, h3, h4, h5, h6, h7, h8, h9⟩ := hv
    exact hr v h1 h2 rfl h3 h4 h5 h6 h7 (hi ▸ h9)
  | cons e es ih =>
    obtain ⟨h1, h2, h3, h4, h5, h6, h7, h8, h9⟩ := hv
    simp only [List.length_cons] at hi
    have hd : c.cspDelay ∈ c.durations := by simp [Config.durations]
    have hon : v.pwr = .on → v.rep = v.last := fun h => by rw [h1] at h; cases h
    simp only [entriesScript, entryScript] at hq
    have hnext : ∀ b, entriesScript c (i + 1) es = some b → ∀ u : View, (u.pwr = .off ∧ u.rep = 0#5 ∧
        u.sckOe = true ∧ u.blOe = true ∧ u.blOut = false ∧ u.mosi = false ∧ u.cs = true ∧ u.ev = false ∧
        u.pc ≤ i + 1) → u.ackEn = v.ackEn → ScriptOk c (b ++ r) u := fun b hb u hu ha =>
      ih (i + 1) hb (by omega) hu (by rw [ha]; exact hr)
    cases hn : entriesScript c (i + 1) es with
    | none =>
      rw [hn] at hq
      split at hq
      · simp_all
      · cases hq
    | some b =>
      rw [hn] at hq
      have hcons : ∀ cs, cs ≠ .done → cs ≠ .notStarted → ∀ m x, (cs ≠ .transmitting → m = false ∧ x = true) →
          ∀ e, ({ v with pc := i, csp := cs, mosi := m, cs := x, ev := e } : View).Consistent c := by
        intro cs n1 n2 m x hmx e
        exact ⟨fun _ => h2, hon, fun h => absurd h n1, fun _ => ⟨h1, h3, h4, h5⟩, hmx,
          fun h => absurd h n2, fun _ => by simp; omega⟩
      rcases hdec : decodeCmd16 e with err | ins
      · simp [hdec] at hq
      · rcases ins <;> simp only [hdec, reduceCtorEq, Option.some.injEq] at hq
        · rename_i d
          subst hq
          rw [List.append_assoc]
          refine ⟨h9, by decide, ?_⟩
          refine scriptOk_xmit d (v := { v with pc := i, csp := .transmitting }) ?_ rfl ?_
          · have := hcons .transmitting (by decide) (by decide) v.mosi v.cs (fun h => absurd rfl h) v.ev
            exact this
          · exact hnext b hn _ ⟨h1, h2, h3, h4, h5, rfl, rfl, rfl, Nat.le_succ i⟩ rfl
        · subst hq
          refine ⟨h9, by decide, hd, ?_, h4, ?_⟩
          · exact hcons .delaying (by decide) (by decide) v.mosi v.cs (fun _ => ⟨h6, h7⟩) v.ev
          · exact hnext b hn _ ⟨h1, h2, h3, h4, h5, h6, h7, rfl, Nat.le_succ i⟩ rfl

theorem scriptOk_attach {c : Config} {q : Script} (hq : attachScript c = some q) {v : View}
    (hv : v.pwr = .off ∧ v.rep = 0#5 ∧ v.sckOe = true ∧ v.blOe = true ∧ v.blOut = false ∧
      v.mosi = false ∧ v.cs = true ∧ v.ev = false ∧ v.pc = 0) : ScriptOk c q v := by
  unfold attachScript at hq
  split at hq
  · rename_i es hes
    cases hq
    rw [List.append_assoc]
    obtain ⟨h1, h2, h3, h4, h5, h6, h7, h8, h9⟩ := hv
    refine scriptOk_entries _ c.cmdTable 0 hes (by simp) ⟨h1, h2, h3, h4, h5, h6, h7, h8, h9.le⟩ ?_
    intro u u1 u2 _ u3 u4 u5 u6 u7 u8
    refine ⟨u8, by decide, ?_⟩
    have hc : ∀ x y e, ({ u with sckOe := false, pc := c.cmdTable.length, csp := .done, blOut := x, blOe := y, ev := e } : View).Consistent c :=
      fun x y e => ⟨fun _ => u2, fun h => by simp [u1] at h, fun _ => ⟨rfl, rfl⟩, fun h => absurd rfl h, fun _ => ⟨u6, u7⟩,
        fun h => CspState.noConfusion h, fun h => by rcases h with h | h <;> cases h⟩
    have := scriptOk_hs (c := c) (q := []) (v := { u with sckOe := false, pc := c.cmdTable.length, csp := .done }) rfl
      (hc u.blOut u.blOe u.ev) ⟨hc _ _ _, rfl, rfl, rfl⟩
    rwa [List.append_nil] at this
  · cases hq

/-! ## The invariant over the parts of a step -/

theorem pins_tick_view (s : State) : view s.tick = view s := rfl

theorem inv_tick {s : State} (h : Inv s) : Inv s.tick := h

theorem inv_reset (c : Config) (a : Bool) (ins : List PinRun) (n : Nat) (hc : c.legal = true) :
    Inv (State.afterReset c a ins n) := by
  refine ⟨hc, ?_, fun _ => rfl, Nat.zero_le _, rfl, rfl, rfl, rfl, rfl, rfl, rfl⟩
  refine ⟨fun _ => rfl, fun h => PwrState.noConfusion h, fun h => CspState.noConfusion h, fun _ => ⟨rfl, rfl, rfl, rfl⟩, fun _ => ⟨rfl, rfl⟩, fun _ => rfl, fun h => by rcases h with h | h <;> cases h⟩

theorem startScript_inv {s : State} {q : Script} {fr : Bool} (hc : s.cfg.legal = true)
    (haw : s.aw = false) (hw : s.w = 0) (hack : s.ackEn = false → s.ackStatus = .none)
    (hao : s.ao ≤ windowTicks s.cfg) (hq : ScriptOk s.cfg q { view s with ev := false, fromReq := fr }) :
    Inv (startScript q fr s) :=
  advanceOn_inv hc q _ rfl hq rfl haw hw hack hao rfl (fun h => Bool.noConfusion h)

theorem updateScript_inv {s : State} (b : Bright) (h : Inv s) (hm : s.mode = .idle) (hp : s.pwrState = .on) :
    Inv (acceptRequest (updateScript s.cfg b s.ackEn) s) := by
  obtain ⟨hc, hv, hack, hao, hmode⟩ := h
  obtain ⟨m1, m2, m3, m4, m5, m6, m7⟩ := (modeInv_idle hm).1 hmode
  obtain ⟨v1, v2, v3, v4, v5, v6, v7⟩ := hv
  show Inv (advanceOn (frameScript s.cfg (frameWord b s.ackEn) s.ackEn)
    ((s.beginRun true).setReg (.reportedBrightness b) |>.setReg (.lastBrightness b)))
  refine advanceOn_inv hc _ _ rfl ?_ rfl m3 m2 hack hao rfl (fun h => Bool.noConfusion h)
  refine scriptOk_frame _ _ m4 ?_ (fun h => h)
  exact ⟨fun h => by simp [view, hp] at h, fun _ => rfl, v3, v4, v5, v6, v7⟩

theorem offScript_inv {s : State} (h : Inv s) (hm : s.mode = .idle) : Inv (acceptRequest offScript s) := by
  obtain ⟨hc, hv, hack, hao, hmode⟩ := h
  obtain ⟨m1, m2, m3, m4, m5, m6, m7⟩ := (modeInv_idle hm).1 hmode
  obtain ⟨v1, v2, v3, v4, v5, v6, v7⟩ := hv
  refine ⟨hc, ?_, hack, hao, rfl, m2, m3, m4, rfl, rfl, rfl⟩
  exact ⟨fun _ => rfl, fun h => PwrState.noConfusion h, v3, fun h => absurd m4 h, v5, v6, v7⟩

theorem scriptOk_ev {c : Config} {s : State} {q : Script} (h : ScriptOk c q { view s with ev := false })
    (he : s.evHs = false) (he' : s.evTo = false) : ScriptOk c q (view s) := by
  have : ({ view s with ev := false } : View) = view s := by simp [view, he, he']
  rwa [this] at h


theorem endTimed_inv {s : State} (hc : s.cfg.legal = true) (hv : (view s).Consistent s.cfg)
    (hm : s.mode = .run) (hw : s.w = 0) (hack : s.ackEn = false → s.ackStatus = .none)
    (hao : s.ao ≤ windowTicks s.cfg) (hp : s.evHs = false ∧ s.evTo = false ∧ s.rsp = false)
    (hq : ScriptOk s.cfg s.q (view s))
    (hwin : s.aw = true → s.ackEn = true ∧ s.cspState = .done ∧
      ScriptOk s.cfg s.q { view s with ev := false, blOut := true, blOe := true }) :
    Inv (endTimed s) := by
  obtain ⟨p1, p2, p3⟩ := hp
  have hev : s.evTo = true → s.evHs = true := fun h => by rw [p2] at h; cases h
  unfold endTimed
  split
  · rename_i haw
    obtain ⟨n1, n2, n3⟩ := hwin haw
    have hack' : ∀ x : AckStatus, s.ackEn = false → x = .none := fun x h => by rw [n1] at h; cases h
    split
    · exact advanceOn_inv hc _ (recordAckOk s) rfl hq hm rfl hw (hack' _) hao p3 hev
    · rw [takeAckTimeout_eq]
      refine advanceOn_inv hc _ _ rfl ?_ rfl rfl hw (hack' _) hao p3 (fun _ => rfl)
      have hok := scriptOk_hs (q := s.q) (v := view s) n2 hv n3
      have hview : view ((recordAckTimeout s).resume.raiseEvent .handshake) = { view s with ev := true } := by
        simp [view]
      rw [hview]
      exact hok
  · rename_i haw
    exact advanceOn_inv hc _ _ rfl hq hm (by simpa using haw) hw hack hao p3 hev

theorem runCycle_inv {s : State} (i : Pins) (h : Inv s) (hm : s.mode = .run) : Inv (runCycle i s) := by
  obtain ⟨hc, hv, hack, hao, hmode⟩ := h
  obtain ⟨m1, m2, m3, m4, m5, m6, m7⟩ := (modeInv_run hm).1 hmode
  unfold runCycle runSample
  cases haw : s.aw with
  | false =>
    by_cases hw : 1 < s.w
    · rw [if_pos hw, if_neg Bool.false_ne_true]
      refine ⟨hc, hv, hack, hao, (modeInv_run (s := s.clearPulses.setTimer _) hm).2
        ⟨?_, ?_, rfl, fun h => Bool.noConfusion h, fun _ => m5 haw, m6, fun h => ?_⟩⟩
      · show 1 ≤ s.w - 1
        omega
      · show s.w - 1 ≤ maxTicks s.cfg
        omega
      · exact Bool.noConfusion (haw.symm.trans h)
    · rw [if_neg hw, if_neg Bool.false_ne_true]
      exact endTimed_inv hc hv hm rfl hack hao ⟨rfl, rfl, rfl⟩ m6 (fun h => Bool.noConfusion (haw.symm.trans h))
  | true =>
    obtain ⟨n1, n2, n3, n4, n5⟩ := m7 haw
    have hao' : s.ao + 1 ≤ windowTicks s.cfg := by omega
    by_cases hw : 1 < s.w
    · rw [if_pos hw, if_pos rfl]
      refine ⟨hc, hv, hack, hao', (modeInv_run (s := (sampleAck i.blIn s.clearPulses).setTimer _) hm).2
        ⟨?_, ?_, rfl, fun h => Bool.noConfusion h, fun h => Bool.noConfusion (haw.symm.trans h), m6,
          fun _ => ⟨n1, n2, n3, ?_, n5⟩⟩⟩
      · show 1 ≤ s.w - 1
        omega
      · show s.w - 1 ≤ maxTicks s.cfg
        omega
      · show s.ao + 1 + (s.w - 1) = windowTicks s.cfg
        omega
    · rw [if_neg hw, if_pos rfl]
      exact endTimed_inv hc hv hm rfl hack hao' ⟨rfl, rfl, rfl⟩ m6 (fun _ => ⟨n1, n3, n5⟩)

theorem decodeReq7_cases (p : PwrState) (w : Req7) :
    (∃ k b, decodeReq7 p w = .setOffNotUnblanked k b) ∨ (∃ b, decodeReq7 p w = .setOffBlanked b) ∨
    (∃ b, p = .off ∧ decodeReq7 p w = .setOnPowerUp b) ∨ (∃ b, p = .on ∧ decodeReq7 p w = .setOnUpdate b) := by
  unfold decodeReq7
  cases w.getLsbD 6 <;> cases w.getLsbD 5 <;> cases p <;> simp

/-- What a script that keeps the invariant leaves: `last_brightness`, ON, and the player's progress. -/
theorem advanceOn_writes {c : Config} (q : Script) (s : State) (hcfg : s.cfg = c) (hq : ScriptOk c q (view s)) :
    (advanceOn q s).lastBrightness = s.lastBrightness ∧
    (s.pwrState = .on → (advanceOn q s).pwrState = .on) ∧
    (s.pwrState = .off → (advanceOn q s).pwrState = .on → .set (.pwrState .on) ∈ q ∧ s.fromReq = true) ∧
    s.pc ≤ (advanceOn q s).pc ∧ ((advanceOn q s).cspState = .notStarted → s.cspState = .notStarted) ∧
    (view (advanceOn q s)).Consistent c := by
  induction q generalizing s with
  | nil => exact ⟨rfl, id, fun h h' => absurd (h.symm.trans h') (by decide), le_refl _, id, hq.1⟩
  | cons op q ih =>
    have next : ∀ u : State, u.cfg = c → ScriptOk c q (view u) → u.lastBrightness = s.lastBrightness →
        u.fromReq = s.fromReq → (s.pwrState = .on → u.pwrState = .on) →
        (s.pwrState = .off → u.pwrState = .off ∨ (.set (.pwrState .on) ∈ op :: q ∧ s.fromReq = true)) →
        s.pc ≤ u.pc → (u.cspState = .notStarted → s.cspState = .notStarted) →
        ((advanceOn q u).lastBrightness = s.lastBrightness ∧
        (s.pwrState = .on → (advanceOn q u).pwrState = .on) ∧
        (s.pwrState = .off → (advanceOn q u).pwrState = .on → .set (.pwrState .on) ∈ op :: q ∧ s.fromReq = true) ∧
        s.pc ≤ (advanceOn q u).pc ∧ ((advanceOn q u).cspState = .notStarted → s.cspState = .notStarted) ∧
        (view (advanceOn q u)).Consistent c) := by
      intro u h1 h2 h3 hr h4 h5 h6 h7
      obtain ⟨a, b, d, e, f, g⟩ := ih u h1 h2
      refine ⟨a.trans h3, fun h => b (h4 h), fun h h' => ?_, le_trans h6 e, fun h => h7 (f h), g⟩
      rcases h5 h with h5 | h5
      · obtain ⟨d1, d2⟩ := d h5 h'
        exact ⟨List.mem_cons_of_mem _ d1, hr ▸ d2⟩
      · exact h5
    cases op with
    | drv l v => cases l <;> exact next (s.drive _ v) hcfg hq rfl rfl id Or.inl (le_refl _) id
    | rel l => cases l <;> exact next (s.release _) hcfg hq rfl rfl id Or.inl (le_refl _) id
    | set r =>
      cases r with
      | pwrState v =>
        cases v with
        | off => exact hq.elim
        | on =>
          exact next (s.setReg (.pwrState .on)) hcfg hq.2 rfl rfl (fun _ => rfl)
            (fun _ => Or.inr ⟨List.mem_cons_self, hq.1⟩) (le_refl _) id
      | lastBrightness v => exact hq.elim
      | reportedBrightness v => exact next (s.setReg (.reportedBrightness v)) hcfg hq rfl rfl id Or.inl (le_refl _) id
      | cspState v =>
        exact next (s.setReg (.cspState v)) hcfg hq.2 rfl rfl id Or.inl (le_refl _) (fun h => absurd h hq.1)
      | pc v => exact next (s.setReg (.pc v)) hcfg hq.2 rfl rfl id Or.inl hq.1 id
    | ev x =>
      cases x with
      | handshake => exact next (s.raiseEvent .handshake) hcfg hq rfl rfl id Or.inl (le_refl _) id
      | ackTimeout => exact hq.elim
    | wait d => exact ⟨rfl, id, fun h h' => absurd (h.symm.trans h') (by decide), le_refl _, id, hq.2.1⟩
    | ackwin => exact ⟨rfl, id, fun h h' => absurd (h.symm.trans h') (by decide), le_refl _, id, hq.1⟩

end Sys2Proof.Laws
end

