-- ==== Sys2Proof/Laws/PerInstr.lean ====
section
/-! SUPPORT. Families of statements about every instruction, one lemma for each constructor. -/

namespace Sys2Proof.Laws.DecodeSelects

open Sys2Proof

/-- What is decoded is selected by the power state it is decoded in (spec/30_encoding.md R72, R80). -/
def Statement (i : Instr) : Prop :=
  ∀ (p : PwrState) (c : Code), decode p c = .ok i → i.selectedBy p = true

theorem setOffNotUnblanked (k : Bool) (b : Bright) : Statement (.setOffNotUnblanked k b) := fun _ _ _ => rfl

theorem setOffBlanked (b : Bright) : Statement (.setOffBlanked b) := fun _ _ _ => rfl

/-- Which power state a SET_ON request was decoded in. -/
theorem req7_power {p : PwrState} {w : Req7} {b : Bright} :
    (decodeReq7 p w = .setOnPowerUp b → p = .off) ∧ (decodeReq7 p w = .setOnUpdate b → p = .on) := by
  unfold decodeReq7
  cases w.getLsbD 6 <;> cases w.getLsbD 5 <;> cases p <;> simp

theorem not_other {p : PwrState} {c : Code} {b : Bright} :
    (decode p c = .ok (.setOnPowerUp b) → ∃ w, c = .req7 w) ∧ (decode p c = .ok (.setOnUpdate b) → ∃ w, c = .req7 w) := by
  cases c with
  | req7 w => exact ⟨fun _ => ⟨w, rfl⟩, fun _ => ⟨w, rfl⟩⟩
  | port5 w =>
    simp only [decode, decodePort5]
    split <;> simp
  | cmd16 e =>
    simp only [decode, decodeCmd16]
    split
    · simp
    · split <;> simp
  | frame16 f =>
    simp only [decode, decodeFrame16]
    split <;> simp

theorem setOnPowerUp (b : Bright) : Statement (.setOnPowerUp b) := by
  intro p c h
  obtain ⟨w, rfl⟩ := not_other.1 h
  rw [req7_power.1 (Except.ok.inj h)]
  rfl

theorem setOnUpdate (b : Bright) : Statement (.setOnUpdate b) := by
  intro p c h
  obtain ⟨w, rfl⟩ := not_other.2 h
  rw [req7_power.2 (Except.ok.inj h)]
  rfl

theorem getMaxBrightness : Statement .getMaxBrightness := fun _ _ _ => rfl

theorem xmit (d : W9) : Statement (.xmit d) := fun _ _ _ => rfl

theorem delay : Statement .delay := fun _ _ _ => rfl

theorem frameTx (a : Bool) (b : Bright) : Statement (.frameTx a b) := fun _ _ _ => rfl

theorem handshake : Statement .handshake := fun _ _ _ => rfl

theorem attach : Statement .attach := fun _ _ _ => rfl

end Sys2Proof.Laws.DecodeSelects
end

