-- ==== Sys2Proof/Laws/Waveform.lean ====
section
/-! SUPPORT. A script shows the waveform of the script that is played, with every window resolved
(spec/10_state.md R34, R35; spec/41_frame_encoder.md R117 to R120). -/

namespace Sys2Proof.Laws

open Sys2Proof Sys2Proof.Machine Sys2Proof.Safety

theorem waveform_append (c : Config) (p q : Script) (l : Lines) :
    waveform c (p ++ q) l = waveform c p l ++ waveform c q (finalLines p l) := by
  induction p generalizing l with
  | nil => rfl
  | cons op p ih => cases op <;> simp only [List.cons_append, waveform, ih] <;> rfl

theorem finalLines_append (p q : Script) (l : Lines) : finalLines (p ++ q) l = finalLines q (finalLines p l) :=
  List.foldl_append

theorem expand_append (a b : List (Lines × Nat)) : expand (a ++ b) = expand a ++ expand b :=
  List.flatMap_append

theorem linesOf_effect (q r : Script) (s : State) (h : .ackwin ∉ q) :
    linesOf (effectOf q r s) = finalLines q (linesOf s) := by
  induction q generalizing s with
  | nil => rfl
  | cons op q ih =>
    have h' : .ackwin ∉ q := fun x => h (List.mem_cons_of_mem _ x)
    cases op with
    | drv x v => have := ih (s.drive x v) h'; cases x <;> exact this
    | rel x => have := ih (s.release x) h'; cases x <;> exact this
    | set x => have := ih (s.setReg x) h'; cases x <;> exact this
    | ev x => have := ih (s.raiseEvent x) h'; cases x <;> exact this
    | ackwin => exact absurd List.mem_cons_self h
    | wait d =>
      have := ih ((later (ticks s.cfg d) (s.startWait d (q ++ r))).setTimer 0) h'
      rw [linesOf_later] at this
      exact this

/-- A script without a window is played as it is. -/
theorem playedScript_windowless (s : State) (n : Nat) (q : Script) (h : .ackwin ∉ q) : playedScript s n q = q := by
  induction q generalizing n with
  | nil => rfl
  | cons op q ih =>
    have h' : .ackwin ∉ q := fun x => h (List.mem_cons_of_mem _ x)
    cases op with
    | ackwin => exact absurd List.mem_cons_self h
    | _ => simp only [playedScript, ih _ h']

/-- Playing in front of a script that is played later on. -/
theorem playedScript_append (s : State) (n : Nat) (p q : Script) (h : .ackwin ∉ p) :
    playedScript s n (p ++ q) = p ++ playedScript s (n + scriptTicks s.cfg p) q := by
  induction p generalizing n with
  | nil => rfl
  | cons op p ih =>
    have h' : .ackwin ∉ p := fun x => h (List.mem_cons_of_mem _ x)
    cases op with
    | ackwin => exact absurd List.mem_cons_self h
    | _ => simp only [List.cons_append, playedScript, scriptTicks, ih _ h', Nat.add_assoc]

theorem linesOf_winLater (n m : Nat) (s : State) : linesOf ((winLater n s).setTimer m) = linesOf s := by
  cases n with
  | zero => rfl
  | succ n => obtain ⟨b, i, c, h⟩ := winLater_fields n s; rw [h]; rfl

/-- What a script shows from the state `s`, `n` cycles after `s₀`: the waveform of the played script, and at its end
IDLE with the response of a request and the script's last levels. -/
structure Shows (p : Script) (s : State) (v : State) : Prop where
  during : ∀ k, k < scriptTicks s.cfg p → ∃ u, runFor k v = .next u ∧ u.mode = .run ∧ u.rsp = false ∧
    (expand (waveform s.cfg p (linesOf s)))[k]? = some (linesOf u)
  after : ∃ t, runFor (scriptTicks s.cfg p) v = .next t ∧ t.mode = .idle ∧ t.rsp = s.fromReq ∧ t.q = [] ∧
    linesOf t = finalLines p (linesOf s)

/-- A micro-op that takes no time in front. -/
theorem Shows.zero {p : Script} {s s' v : State} (op : MicroOp) (h : Shows p s' v) (hc : s'.cfg = s.cfg)
    (hf : s'.fromReq = s.fromReq) (hl : linesOf s' = (linesOf s).after op) (ht : scriptTicks s.cfg (op :: p) = scriptTicks s.cfg p)
    (hw : waveform s.cfg (op :: p) (linesOf s) = waveform s.cfg p ((linesOf s).after op)) : Shows (op :: p) s v := by
  obtain ⟨h1, h2⟩ := h
  rw [hc, hl] at h1 h2
  rw [hf] at h2
  exact ⟨by rw [ht, hw]; exact h1, by rw [ht]; exact h2⟩

/-- A segment of `n` cycles in front. -/
theorem Shows.segment {p : Script} {s s' v v' : State} (op : MicroOp) (n : Nat) (h : Shows p s' v') (hc : s'.cfg = s.cfg)
    (hf : s'.fromReq = s.fromReq) (hl : linesOf s' = linesOf s) (ht : scriptTicks s.cfg (op :: p) = n + scriptTicks s.cfg p)
    (hw : waveform s.cfg (op :: p) (linesOf s) = (linesOf s, n) :: waveform s.cfg p (linesOf s))
    (ho : (linesOf s).after op = linesOf s)
    (hrun : ∀ k, k < n → ∃ u, runFor k v = .next u ∧ u.mode = .run ∧ u.rsp = false ∧ linesOf u = linesOf s)
    (hend : runFor n v = .next v') : Shows (op :: p) s v := by
  obtain ⟨h1, h2⟩ := h
  rw [hc, hl] at h1 h2
  rw [hf] at h2
  refine ⟨fun k hk => ?_, ?_⟩
  · rw [hw, expand_cons]
    rcases Nat.lt_or_ge k n with hlt | hge
    · obtain ⟨u, a, b, d, e⟩ := hrun k hlt
      exact ⟨u, a, b, d, by rw [List.getElem?_append_left (by simpa using hlt)]; simp [hlt, e]⟩
    · obtain ⟨j, rfl⟩ : ∃ j, k = n + j := ⟨k - n, by omega⟩
      obtain ⟨u, a, b, d, e⟩ := h1 j (by omega)
      refine ⟨u, by rw [runFor_add _ _ hend]; exact a, b, d, ?_⟩
      rw [List.getElem?_append_right (by simp)]
      simpa using e
  · obtain ⟨t, a, b⟩ := h2
    refine ⟨t, by rw [ht, runFor_add _ _ hend]; exact a, ?_⟩
    rw [finalLines, List.foldl_cons, ho]
    exact b

/-- A windowless script in front. -/
theorem Shows.front {c : Config} (hc : c.legal = true) {p r r' : Script} {s : State} (hcfg : s.cfg = c)
    (hp : LineOnly c p) (hm : s.mode = .run) (haw : s.aw = false) (hrsp : s.rsp = false)
    (hn : NoReset s (scriptTicks c p)) (h : Shows r (effectOf p r' s) (advanceOn r' (effectOf p r' s))) :
    Shows (p ++ r) s (advanceOn (p ++ r') s) := by
  subst hcfg
  have hna : MicroOp.ackwin ∉ p := fun x => (hp.windowless _ x).1 rfl
  obtain ⟨p1, p2⟩ := play_windowless hc p r' s rfl hp.windowless hm haw hn
  obtain ⟨_, l2, _⟩ := lineOnly_runs hc p r' s s 0 rfl hp (calm_self hm haw hrsp)
  obtain ⟨h1, h2⟩ := h
  rw [l2.cfg, linesOf_effect p r' s hna] at h1 h2
  rw [l2.fromReq] at h2
  have hlen := wf_length (c := s.cfg) p (linesOf s)
  refine ⟨fun k hk => ?_, ?_⟩
  · rw [waveform_append, expand_append]
    rw [scriptTicks_append] at hk
    rcases Nat.lt_or_ge k (scriptTicks s.cfg p) with hlt | hge
    · obtain ⟨u, a, b, d, e⟩ := p2 _ (wf_at p r' s rfl hm hrsp) k hlt
      exact ⟨u, a, b, d, by rw [List.getElem?_append_left (by omega)]; exact e⟩
    · obtain ⟨j, rfl⟩ : ∃ j, k = scriptTicks s.cfg p + j := ⟨k - scriptTicks s.cfg p, by omega⟩
      obtain ⟨u, a, b, d, e⟩ := h1 j (by omega)
      refine ⟨u, by rw [runFor_add _ _ p1]; exact a, b, d, ?_⟩
      rw [List.getElem?_append_right (by omega), hlen, Nat.add_sub_cancel_left]
      exact e
  · obtain ⟨t, a, b⟩ := h2
    exact ⟨t, by rw [scriptTicks_append, runFor_add _ _ p1]; exact a, by rw [finalLines_append]; exact b⟩

theorem pinsAt_of_sameInputs {a b : State} {n : Nat} (h : SameInputs b (State.tick^[n] a)) (k : Nat) :
    pinsAt b k = pinsAt a (n + k) := by
  rw [pinsAt_add, h.pinsAt]

theorem sameInputs_shift {a b d : State} {n m : Nat} (h : SameInputs b (State.tick^[n] a))
    (h' : SameInputs d (State.tick^[m] b)) : SameInputs d (State.tick^[n + m] a) := by
  rw [Nat.add_comm, Function.iterate_add_apply]
  exact h'.trans (sameInputs_tick_iter m h)

theorem noReset_shift {a b : State} {n m : Nat} (hn : NoReset a (n + m)) (h : SameInputs b (State.tick^[n] a)) :
    NoReset b m :=
  h.symm.noReset (noReset_later hn)

/-- Every script, with any number of windows, shows the waveform of the script as it is played. -/
theorem script_shows {c : Config} (hc : c.legal = true) (q : Script) (s s₀ : State) (n : Nat) (hcfg : s.cfg = c)
    (hcfg₀ : s₀.cfg = c) (hin : SameInputs s (State.tick^[n] s₀)) (hq : Timed c q) (hm : s.mode = .run)
    (haw : s.aw = false) (hrsp : s.rsp = false) (hn : NoReset s (scriptTicks c (playedScript s₀ n q))) :
    Shows (playedScript s₀ n q) s (advanceOn q s) := by
  induction q generalizing s n with
  | nil =>
    refine ⟨fun k hk => absurd hk (Nat.not_lt_zero k), ⟨_, rfl, rfl, ?_, rfl, rfl⟩⟩
    show (s.rsp || s.fromReq) = s.fromReq
    rw [hrsp]; rfl
  | cons op q ih =>
    have hq' : Timed c q := fun d hd => hq d (List.mem_cons_of_mem _ hd)
    cases op with
    | drv x v =>
      exact Shows.zero _ (ih (s.drive x v) n (by simpa using hcfg) ⟨by simpa using hin.1, by simpa using hin.2⟩ hq'
        (by simpa using hm) (by simpa using haw) (by simpa using hrsp) (noReset_congr hn (by simp) (by simp)))
        (by simp) (by simp) (by cases x <;> rfl) rfl rfl
    | rel x =>
      exact Shows.zero _ (ih (s.release x) n (by simpa using hcfg) ⟨by simpa using hin.1, by simpa using hin.2⟩ hq'
        (by simpa using hm) (by simpa using haw) (by simpa using hrsp) (noReset_congr hn (by simp) (by simp)))
        (by simp) (by simp) (by cases x <;> rfl) rfl rfl
    | set x =>
      exact Shows.zero _ (ih (s.setReg x) n (by simpa using hcfg) ⟨by simpa using hin.1, by simpa using hin.2⟩ hq'
        (by simpa using hm) (by simpa using haw) (by simpa using hrsp) (noReset_congr hn (by simp) (by simp)))
        (by simp) (by simp) (by cases x <;> rfl) rfl rfl
    | ev x =>
      exact Shows.zero _ (ih (s.raiseEvent x) n (by simpa using hcfg) ⟨by simpa using hin.1, by simpa using hin.2⟩ hq'
        (by simpa using hm) (by simpa using haw) (by simpa using hrsp) (noReset_congr hn (by simp) (by simp)))
        (by simp) (by simp) (by cases x <;> rfl) rfl rfl
    | wait d =>
      subst hcfg
      have hd : d ∈ s.cfg.durations := hq d List.mem_cons_self
      simp only [playedScript, scriptTicks, hcfg₀] at hn ⊢
      have hv : SameInputs (s.startWait d q) s := ⟨rfl, rfl⟩
      obtain ⟨h1, h2⟩ := wait_runs (s := s.startWait d q) hc hm haw (ticks_pos hc hd)
        (hv.symm.noReset (noReset_mono (Nat.le_add_right _ _) hn))
      obtain ⟨i, cy, hlat⟩ := later_fields (ticks s.cfg d) (s.startWait d q)
      have hin' : SameInputs ((later (ticks s.cfg d) (s.startWait d q)).setTimer 0) (State.tick^[ticks s.cfg d] s) :=
        SameInputs.trans ⟨rfl, rfl⟩ (sameInputs_tick_iter (ticks s.cfg d) (a := s.startWait d q) (b := s) ⟨rfl, rfl⟩)
      refine Shows.segment _ (ticks s.cfg d)
        (ih ((later (ticks s.cfg d) (s.startWait d q)).setTimer 0) (n + ticks s.cfg d) (by rw [hlat]; rfl)
          (sameInputs_shift hin hin') hq' (by rw [hlat]; exact hm) (by rw [hlat]; exact haw) (by rw [hlat]; rfl)
          (noReset_shift hn hin')) (by rw [hlat]; rfl) (by rw [hlat]; rfl) (by rw [linesOf_later]; rfl) rfl rfl rfl
        (fun k hk => ⟨_, h1 k hk, ?_, ?_, by rw [linesOf_wait]; rfl⟩) h2
      · unfold waitState; split
        · exact hm
        · obtain ⟨i, cy, e⟩ := later_fields k (s.startWait d q); rw [e]; exact hm
      · unfold waitState; split
        · exact hrsp
        · obtain ⟨i, cy, e⟩ := later_fields k (s.startWait d q); rw [e]; rfl
    | ackwin =>
      subst hcfg
      have hW : 1 ≤ windowTicks s.cfg := ticks_pos hc (by simp [Config.durations])
      generalize hv : s.startWindow q = v
      have hvc : v.cfg = s.cfg := by rw [← hv]; rfl
      have hvin : SameInputs v s := by rw [← hv]; exact ⟨rfl, rfl⟩
      have hvl : linesOf v = linesOf s := by rw [← hv]; rfl
      have hvw : v.w = windowTicks s.cfg := by rw [← hv]; rfl
      have hvm : v.mode = .run := by rw [← hv]; exact hm
      have hvr : v.rsp = false := by rw [← hv]; exact hrsp
      have hvf : v.fromReq = s.fromReq := by rw [← hv]; rfl
      have hva : v.aw = true ∧ v.awSeen = false ∧ v.ao = 0 ∧ v.q = q := by rw [← hv]; exact ⟨rfl, rfl, rfl, rfl⟩
      have hadv : advanceOn (.ackwin :: q) s = v := hv
      simp only [playedScript, scriptTicks, hcfg₀] at hn ⊢
      rw [hadv]
      obtain ⟨h1, h2⟩ := window_runs (s := v) (by rw [hvc]; exact hc) hvm hva.1 (by omega)
        (hvin.symm.noReset (noReset_mono (by rw [hvw]; exact Nat.le_add_right _ _) hn))
      rw [hvw] at h1 h2
      obtain ⟨W', hW'⟩ : ∃ W', windowTicks s.cfg = W' + 1 := ⟨windowTicks s.cfg - 1, by omega⟩
      have hin' : SameInputs ((winLater (windowTicks s.cfg) v).setTimer 0) (State.tick^[windowTicks s.cfg] s) :=
        SameInputs.trans ⟨rfl, rfl⟩ ((sameInputs_winLater _ v).symm.trans (sameInputs_tick_iter _ hvin))
      have hseen : (winLater (windowTicks s.cfg) v).awSeen = true ↔ AckSeen s₀ n := by
        rw [winLater_awSeen, hva.2.1, hva.2.2.1, hvc]
        simp only [Bool.false_eq_true, false_or, Nat.zero_add, pinsAt_of_sameInputs (hvin.trans hin), AckSeen, hcfg₀]
      have hrun : ∀ k, k < windowTicks s.cfg → ∃ u, runFor k v = .next u ∧ u.mode = .run ∧ u.rsp = false ∧
          linesOf u = linesOf s := by
        intro k hk
        refine ⟨_, h1 k hk, ?_, ?_, ?_⟩ <;> unfold winState <;> split
        · exact hvm
        · obtain ⟨j, rfl⟩ : ∃ j, k = j + 1 := ⟨k - 1, by omega⟩
          obtain ⟨b, i, cy, e⟩ := winLater_fields j v; rw [e]; exact hvm
        · exact hvr
        · obtain ⟨j, rfl⟩ : ∃ j, k = j + 1 := ⟨k - 1, by omega⟩
          obtain ⟨b, i, cy, e⟩ := winLater_fields j v; rw [e]; rfl
        · exact hvl
        · rw [linesOf_winLater, hvl]
      generalize hx : (winLater (windowTicks s.cfg) v).setTimer 0 = x at h2 hin'
      have hxl : linesOf x = linesOf s := by rw [← hx, linesOf_winLater, hvl]
      have hxs : x.awSeen = true ↔ AckSeen s₀ n := by rw [← hx]; exact hseen
      obtain ⟨x1, x2, x3, x4, x5, x6⟩ : x.cfg = s.cfg ∧ x.mode = .run ∧ x.rsp = false ∧ x.aw = true ∧ x.q = q ∧
          x.fromReq = s.fromReq := by
        obtain ⟨b, i, cy, e⟩ := winLater_fields W' v
        rw [← hx, hW', e]
        exact ⟨hvc, hvm, rfl, hva.1, hva.2.2.2, hvf⟩
      unfold endTimed at h2
      rw [if_pos x4] at h2
      by_cases hs : AckSeen s₀ n
      · rw [if_pos (hxs.2 hs)] at h2
        rw [if_pos hs] at hn ⊢
        have hadv' : advance (recordAckOk x) = advanceOn q (recordAckOk x) := by unfold advance; rw [← x5]; rfl
        rw [hadv'] at h2
        exact Shows.segment _ (windowTicks s.cfg)
          (ih (recordAckOk x) (n + windowTicks s.cfg) x1 (sameInputs_shift hin (SameInputs.trans ⟨rfl, rfl⟩ hin')) hq' x2 rfl
            x3 (noReset_shift hn (SameInputs.trans ⟨rfl, rfl⟩ hin'))) x1 x6 (Eq.trans rfl hxl) rfl rfl rfl hrun h2
      · rw [if_neg (fun h => hs (hxs.1 h)), takeAckTimeout_eq, x5, x1] at h2
        rw [if_neg hs] at hn ⊢
        generalize hy : (recordAckTimeout x).resume.raiseEvent .handshake = y at h2
        obtain ⟨y1, y2, y3, y4, y5, y6⟩ : y.cfg = s.cfg ∧ y.mode = .run ∧ y.aw = false ∧ y.rsp = false ∧
            y.fromReq = s.fromReq ∧ linesOf y = linesOf s := by
          rw [← hy]; exact ⟨x1, rfl, rfl, x3, x6, hxl⟩
        have hyin : SameInputs y (State.tick^[windowTicks s.cfg] s) := by
          rw [← hy]; exact SameInputs.trans ⟨rfl, rfl⟩ hin'
        have hny := noReset_shift (m := scriptTicks s.cfg (hsScript s.cfg ++ playedScript s₀
          (n + windowTicks s.cfg + handshakeTicks s.cfg) q)) hn hyin
        rw [scriptTicks_append] at hny
        have hht : scriptTicks s.cfg (hsScript s.cfg) = handshakeTicks s.cfg := hsBody_ticks s.cfg
        rw [hht] at hny
        obtain ⟨_, z2, z3⟩ := lineOnly_runs hc (hsBody s.cfg) q y y 0 y1 (hsBody_lineOnly _) (calm_self y2 y3 y4)
        rw [hsBody_ticks] at z3
        have hfront := Shows.front hc y1 (hsBody_lineOnly _) y2 y3 y4
          (by rw [hsBody_ticks]; exact noReset_mono (Nat.le_add_right _ _) hny)
          (ih (effectOf (hsBody s.cfg) q y) (n + windowTicks s.cfg + handshakeTicks s.cfg) (z2.cfg.trans y1)
            (sameInputs_shift (sameInputs_shift hin hyin) z3) hq' z2.mode z2.aw z2.rsp (noReset_shift hny z3))
        have hev : Shows (.ev .handshake :: (hsBody s.cfg ++ playedScript s₀
            (n + windowTicks s.cfg + handshakeTicks s.cfg) q)) y (advanceOn (hsBody s.cfg ++ q) y) :=
          Shows.zero _ hfront rfl rfl rfl rfl rfl
        exact Shows.segment _ (windowTicks s.cfg) hev y1 y5 y6 rfl rfl rfl hrun h2

/-! ### The segments of a frame -/

theorem blSegments_append (a b : List (Lines × Nat)) : blSegments (a ++ b) = blSegments a ++ blSegments b :=
  List.map_append

theorem blSegments_symScript (c : Config) (b : Bool) (l : Lines) :
    blSegments (waveform c (symScript c b) l) = bitSegments c b := by
  cases b <;> rfl

theorem blSegments_symbols (c : Config) (g : Nat → Bool) (js : List Nat) (l : Lines) :
    blSegments (waveform c (js.flatMap (fun j => symScript c (g j))) l) =
      js.flatMap (fun j => bitSegments c (g j)) := by
  induction js generalizing l with
  | nil => rfl
  | cons j js ih =>
    rw [List.flatMap_cons, List.flatMap_cons, waveform_append, blSegments_append, ih, blSegments_symScript]

/-- The frame's script up to its end of sequence shows the segments of R125's table. -/
theorem blSegments_frameBody (c : Config) (f : Frame16) (l : Lines) :
    blSegments (waveform c (frameBody c f) l) = frameSegments c f := by
  unfold frameBody
  simp only [waveform_append, blSegments_append, blSegments_symbols]
  rfl

theorem segmentTicks_append (a b : List (Level × Nat)) : segmentTicks (a ++ b) = segmentTicks a + segmentTicks b := by
  simp [segmentTicks]

theorem segmentTicks_cons (p : Level × Nat) (b : List (Level × Nat)) : segmentTicks (p :: b) = p.2 + segmentTicks b := by
  simp [segmentTicks]

/-- Each bit takes the same cycles, whatever its value and whatever follows. -/
theorem segmentTicks_bits (c : Config) (g : Nat → Bool) (js : List Nat) (r : List (Level × Nat)) (j : Nat)
    (hj : j ≤ js.length) :
    segmentTicks ((js.flatMap (fun i => bitSegments c (g i)) ++ r).take (2 * j)) =
      j * (ticks c c.feShort + ticks c c.feLong) := by
  induction js generalizing j with
  | nil =>
    obtain rfl : j = 0 := by simpa using hj
    simp [segmentTicks]
  | cons i js ih =>
    cases j with
    | zero => simp [segmentTicks]
    | succ j =>
      have h := ih j (by simpa using hj)
      rw [List.flatMap_cons, List.append_assoc, show 2 * (j + 1) = 2 * j + 1 + 1 by omega,
        Nat.add_one_mul j (ticks c c.feShort + ticks c c.feLong), ← h]
      generalize js.flatMap (fun i => bitSegments c (g i)) ++ r = m
      cases g i <;> simp only [bitSegments, if_true, if_false, Bool.false_eq_true, List.cons_append, List.nil_append,
        List.take_succ_cons, segmentTicks_cons] <;> omega

end Sys2Proof.Laws
end

