-- ==== Sys2Proof/Tests/Slice0.lean ====
section
/-! SUPPORT. Tests against the spec's own vectors (spec/95_test_vectors.md; the vector's name stands at each
test), the checks of WellFormed on ill-formed terms, and, for each statement with hypotheses, a state and
operands that meet all of them. -/

namespace Sys2Proof.Tests

open Sys2Proof Sys2Proof.Machine Sys2Proof.Safety Sys2Proof.Laws

/-! ## Decoding, from words written out bit by bit -/

/-- V2, V3: `0kbbbbb`. -/
theorem test_decode_setOffNotUnblanked :
    decode .on (.req7 0b0011111#7) = .ok (.setOffNotUnblanked false 31#5) ∧
    decode .off (.req7 0b0110001#7) = .ok (.setOffNotUnblanked true 17#5) := by decide

/-- V4, V5: `11bbbbb`. -/
theorem test_decode_setOffBlanked :
    decode .on (.req7 0b1100000#7) = .ok (.setOffBlanked 0#5) ∧
    decode .off (.req7 0b1111111#7) = .ok (.setOffBlanked 31#5) := by decide

/-- V6, V7: `10bbbbb` when OFF. -/
theorem test_decode_setOnPowerUp :
    decode .off (.req7 0b1000000#7) = .ok (.setOnPowerUp 0#5) ∧
    decode .off (.req7 0b1011111#7) = .ok (.setOnPowerUp 31#5) := by decide

/-- V6, V7: `10bbbbb` when ON. -/
theorem test_decode_setOnUpdate :
    decode .on (.req7 0b1000000#7) = .ok (.setOnUpdate 0#5) ∧
    decode .on (.req7 0b1011111#7) = .ok (.setOnUpdate 31#5) := by decide

/-- R146: the port shows 31 and nothing else. -/
theorem test_decode_getMaxBrightness :
    decode .off (.port5 0b11111#5) = .ok .getMaxBrightness ∧
    decode .off (.port5 0b11110#5) = .error (.notMaxBrightness 30#5) := by decide

/-- V8a to V8c. -/
theorem test_decode_xmit :
    decode .off (.cmd16 0b0000000000000000#16) = .ok (.xmit 0#9) ∧
    decode .off (.cmd16 0b0000000110011000#16) = .ok (.xmit 0x198#9) ∧
    decode .off (.cmd16 0b0000000111111111#16) = .ok (.xmit 0x1FF#9) := by decide

/-- V8d to V8g. -/
theorem test_decode_delay_and_malformed :
    decode .off (.cmd16 0b1111111111111111#16) = .ok .delay ∧
    decode .off (.cmd16 0x0200#16) = .error (.malformedEntry 0x0200#16) ∧
    decode .off (.cmd16 0x8000#16) = .error (.malformedEntry 0x8000#16) ∧
    decode .off (.cmd16 0xFFFE#16) = .error (.malformedEntry 0xFFFE#16) := by decide

/-- V16, V17, and a value of another shape (R79). -/
theorem test_decode_frameTx :
    decode .off (.frame16 0b0101100000010100#16) = .ok (.frameTx false 20#5) ∧
    decode .off (.frame16 0b0101100010010101#16) = .ok (.frameTx true 21#5) ∧
    decode .off (.frame16 0b0101100000110100#16) = .error (.notAFrame 0x5834#16) := by decide

/-- HANDSHAKE and ATTACH have no encoding (R70, R100, R160). -/
theorem test_no_encoding : encode .handshake = none ∧ encode .attach = none := by decide

/-- R81: the textual forms. -/
theorem test_assemble :
    assembleEntry (.xmit 0x1FF) = some 0x1FF#16 ∧ assembleEntry (.xmit 0x200) = none ∧
    assembleEntry (.reg 0x111) = some 0x011#16 ∧ assembleEntry (.val 0x29) = some 0x129#16 ∧
    assembleEntry .delay = some 0xFFFF#16 ∧ assembleRequest (.req false true 17#5) = some 0x31#7 ∧
    assembleRequest (.on 20#5) = some 0x54#7 ∧ assembleRequest .off = some 0x00#7 ∧
    assembleRequest .blank = some 0x60#7 ∧ assembleRequest .getmax = none := by decide

/-- Table words, by their length. -/
theorem test_decodeTableWord :
    decodeTableWord 7 0x31 = some (.setOffNotUnblanked true 17#5) ∧
    decodeTableWord 8 0x7F = some (.setOffBlanked 31#5) ∧
    decodeTableWord 8 0x5F = some (.setOnPowerUp 31#5) ∧
    decodeTableWord 5 0x1F = some .getMaxBrightness ∧
    decodeTableWord 16 0x0198 = some (.xmit 0x198#9) ∧ decodeTableWord 16 0xFFFF = some .delay ∧
    decodeTableWord 16 0x5895 = some (.frameTx true 21#5) ∧ decodeTableWord 16 0x0200 = none := by decide

/-! ## WellFormed refuses ill-formed terms (R9) -/

theorem test_wf_default : Config.default.legal = true := by decide

theorem test_wf_duration_zero :
    ({ Config.default with feGapLow := 0 } : Config).timingLegal = false := by decide

theorem test_wf_duration_multiple :
    ({ Config.default with ackPoll := 3600 } : Config).timingLegal = false := by decide

theorem test_wf_clock_zero : ({ Config.default with clkPeriod := 0 } : Config).timingLegal = false := by decide

theorem test_wf_poll : ({ Config.default with ackBudget := 3000 } : Config).pollLegal = false := by decide

theorem test_wf_init :
    ({ Config.default with initLastBrightness := 32 } : Config).initBrightnessLegal = false := by decide

theorem test_wf_entry : Memory.wf [0x0198#16, 0x0200#16] = false := by decide

theorem test_wf_selected :
    Instr.selectedBy .on (.setOnPowerUp 3#5) = false ∧ Instr.selectedBy .off (.setOnUpdate 3#5) = false := by decide

/-- R183: each check stops the step under its own name, whatever the inputs. -/
theorem test_refusals :
    configRefusal { Config.default with cspGap := 1 } = some .illegalDuration ∧
    configRefusal { Config.default with ackBudget := 3000 } = some .pollExceedsBudget ∧
    configRefusal { Config.default with initLastBrightness := 32 } = some .initBrightnessOutOfRange ∧
    configRefusal { Config.default with cmdTable := [0x0200#16] } = some .malformedTable := by decide

/-! ## One step of each instruction -/

/-- What a meaning's next state shows, of the fields that `f` picks. -/
def shows {α : Type} [DecidableEq α] (o : Host.Outcome State Fault Refusal) (f : State → α) (v : α) : Bool :=
  match o with
  | .next t => decide (f t = v)
  | .fault _ => false
  | .refused _ => false

/-- An IDLE state after attach. -/
def idleState (c : Config) (a : Bool) (p : PwrState) (inputs : List PinRun) : State :=
  { State.afterReset c a inputs 0 with
    mode := .idle, cspState := .done, pc := c.cmdTable.length, sckOe := false, blOut := true, pwrState := p
    reportedBrightness := match p with | .off => 0#5 | .on => BitVec.ofNat 5 c.initLastBrightness }

/-- The default configuration with the table of spec/43_command_player.md R160's example. -/
def tableConfig : Config :=
  { Config.default with cmdTable := [0x0198#16, 0xFFFF#16, 0x0011#16] }

/-- V51: OFF while ON. -/
theorem test_setOffNotUnblanked :
    shows (exec (.setOffNotUnblanked true 17#5) (idleState Config.default false .on []))
      (fun t => (t.pwrState, t.reportedBrightness, t.lastBrightness, t.blOut, t.rsp))
      (.off, 0#5, 31#5, false, true) = true := by decide

/-- V50: OFF while OFF drives the line low. -/
theorem test_setOffBlanked :
    shows (exec (.setOffBlanked 9#5) (idleState Config.default false .off []))
      (fun t => (t.mode, t.pwrState, t.blOut, t.rsp)) (.idle, .off, false, true) = true := by decide

/-- V54: POWER_UP starts its handshake and leaves the status for later. -/
theorem test_setOnPowerUp :
    shows (exec (.setOnPowerUp 7#5) (idleState Config.default true .off []))
      (fun t => (t.pwrState, t.blOut, t.w, t.evHs, t.reportedBrightness)) (.off, false, 8000, true, 0#5) = true := by
  decide

/-- V56: UPDATE with 0 stays ON. -/
theorem test_setOnUpdate :
    shows (exec (.setOnUpdate 0#5) (idleState Config.default false .on []))
      (fun t => (t.pwrState, t.lastBrightness, t.reportedBrightness, t.w, t.rsp)) (.on, 0#5, 0#5, 8, false) = true := by
  decide

theorem test_getMaxBrightness : (outputs (idleState Config.default false .on [])).maxBrightness = 31#5 := by decide

/-- R160's example: 0x198 begins with a 1 on the data line. -/
theorem test_xmit :
    shows (exec (.xmit 0x198#9) (State.afterReset tableConfig false [] 0))
      (fun t => (t.cspState, t.csOut, t.mosiOut, t.sckOut, t.w)) (.transmitting, false, true, false, 8) = true := by decide

/-- R163: no line moves. -/
theorem test_delay :
    shows (exec .delay (State.afterReset tableConfig false [] 0))
      (fun t => (t.cspState, t.csOut, t.mosiOut, t.sckOut, t.w)) (.delaying, true, false, true, 200000) = true := by decide

/-- V21: the frame starts high for 8 cycles and goes on with bit 15 = 0. -/
theorem test_frameTx :
    shows (exec (.frameTx false 20#5) (idleState Config.default false .on []))
      (fun t => (t.blOut, t.w, t.q.take 4))
      (true, 8, [.drv .bl false, .wait 15000, .drv .bl true, .wait 5000]) = true := by decide

/-- V40: low for 8000 cycles, with the event. -/
theorem test_handshake :
    shows (exec .handshake (idleState Config.default false .on []))
      (fun t => (t.evHs, t.blOut, t.w)) (true, false, 8000) = true := by decide

/-- V40: with an empty table the clock floats and the handshake begins at once. -/
theorem test_attach_empty :
    shows (exec .attach State.reset) (fun t => (t.cspState, t.sckOe, t.evHs, t.w)) (.done, false, true, 8000) = true := by
  decide

/-- R160's example: entry 0 plays first. -/
theorem test_attach_table :
    shows (exec .attach (State.afterReset tableConfig false [] 0))
      (fun t => (t.cspState, t.pc, t.sckOut, t.evHs)) (.transmitting, 0, false, false) = true := by decide

/-- V10 to V19, by their corner rows. -/
theorem test_frameWord :
    frameWord 0#5 false = 0x5800#16 ∧ frameWord 7#5 true = 0x5887#16 ∧ frameWord 16#5 false = 0x5810#16 ∧
    frameWord 31#5 true = 0x589F#16 := by decide

/-- V34, V35: offset 7 is a sample point and offset 20 is not. -/
theorem test_samplePoint :
    (sampleAck false { State.reset with ao := 7 }).awSeen = true ∧
    (sampleAck false { State.reset with ao := 20 }).awSeen = false := by decide

/-- `withFetchWord` makes the next step run the word as the first instruction after reset. -/
theorem test_withFetchWord :
    shows (step (State.reset.withFetchWord 7 0b1000111)) (fun t => (t.evHs, t.w, t.mode)) (true, 8000, .run) = true ∧
    shows (step (State.reset.withFetchWord 16 0x0198)) (fun t => (t.cspState, t.w)) (.transmitting, 8) = true ∧
    shows (step (State.reset.withFetchWord 16 0xFFFF)) (fun t => (t.cspState, t.w)) (.delaying, 200000) = true ∧
    shows (step (State.reset.withFetchWord 16 0x5895)) (fun t => (t.blOut, t.w)) (true, 8) = true := by decide

/-! ## Witnesses: for each statement with hypotheses, states and operands that meet them -/

/-- Every duration 1 tick, the window 4 ticks with sample points at 0 and 2. -/
def quickConfig (m : Memory) : Config where
  hsResetLow := 1
  hsHigh := 1
  hsDetect := 1
  feStart := 1
  feShort := 1
  feLong := 1
  feGapLow := 1
  feGapHigh := 1
  feEos := 1
  ackBudget := 4
  ackPoll := 2
  cspHalf := 1
  cspGap := 1
  cspDelay := 1
  clkPeriod := 1
  initLastBrightness := 9
  cmdTable := m

/-- Cycles with no request, in which the reset/data line reads `v`. -/
def quietRun (v : Bool) (n : Nat) : PinRun := ⟨{ quietPins with blIn := v }, n⟩

/-- One cycle that offers a request. -/
def requestRun (w : Req7) : PinRun := ⟨requestPins w, 0⟩

/-- The step answers a next state. -/
def hasNext (o : Host.Outcome State Fault Refusal) : Prop := ∃ t, o = .next t

theorem witness_DecodeOfEncode :
    encode (.setOnUpdate 31#5) = some (.req7 0x5F#7) ∧ Instr.selectedBy .on (.setOnUpdate 31#5) = true := by decide

theorem witness_EncodeOfDecode : decode .off (.req7 0x5F#7) = .ok (.setOnPowerUp 31#5) := by decide

/-- The boundary entries of each clause, and a state whose table holds a malformed one. -/
theorem witness_EntryDecoding :
    (0xFFFF#16).toNat = 0xFFFF ∧ (0x1FF#16).toNat ≤ 0x1FF ∧ (0#16).toNat ≤ 0x1FF ∧
    0x200 ≤ (0x200#16).toNat ∧ (0x200#16).toNat ≤ 0xFFFE ∧ 0x200 ≤ (0xFFFE#16).toNat ∧ (0xFFFE#16).toNat ≤ 0xFFFE ∧
    0xFFFE#16 ∈ (State.afterReset (quickConfig [0xFFFE#16]) false [] 0).cfg.cmdTable := by decide

theorem witness_ConfigurationLegality :
    (State.afterReset (quickConfig [0x200#16]) false [] 0).cfg.legal = false ∧
    (State.afterReset (quickConfig [0x1FF#16, 0xFFFF#16]) false [] 0).cfg.legal = true := by decide

theorem witness_ConfigurationNeverChanges :
    hasNext (step (State.afterReset (quickConfig [0x1FF#16]) false [quietRun true 0] 0)) ∧
    hasNext (exec (.xmit 0x1FF#9) State.reset) := ⟨⟨_, rfl⟩, ⟨_, rfl⟩⟩

theorem witness_ResetCycle :
    let s := idleState (quickConfig []) false .on [⟨{ quietPins with rst := true, cfgAckEn := true }, 0⟩]
    s.cfg.legal = true ∧ s.pins.rst = true := by decide

theorem witness_BootStep :
    (let s := State.afterReset (quickConfig []) false [quietRun true 0] 0
     s.cfg.legal = true ∧ s.mode = .boot ∧ s.pins.rst = false) ∧
    (let s := { State.reset with mode := Mode.run }
     let i := requestPins 0x5F#7
     let j := quietPins
     s.mode ≠ .idle ∧ i.rst = j.rst ∧ i.cfgAckEn = j.cfgAckEn ∧ i.blIn = j.blIn ∧ i ≠ j) := by decide

/-- Both clauses, with each of the three dispatch results. -/
theorem witness_IdleStep :
    (let s := idleState (quickConfig []) false .on [quietRun true 0]
     s.cfg.legal = true ∧ s.mode = .idle ∧ s.pins.rst = false ∧ s.pins.reqValid = false) ∧
    (∀ w : Req7, w = 0x3F#7 ∨ w = 0x60#7 ∨ w = 0x40#7 → ∀ p : PwrState, p = .off ∨ p = .on →
     let s := idleState (quickConfig []) false p [requestRun w]
     s.cfg.legal = true ∧ s.mode = .idle ∧ s.pins.rst = false ∧ s.pins.reqValid = true) := by
  refine ⟨by decide, ?_⟩
  rintro w (rfl | rfl | rfl) p (rfl | rfl) <;> decide

/-- The further clauses: a request offered outside IDLE, and both OFF words offered in IDLE. -/
theorem witness_OffRequests :
    (let s := idleState (quickConfig []) false .on [requestRun 0x3F#7]
     s.cfg.legal = true ∧ s.mode = .idle ∧ Offers s 0x3F#7 ∧ ((0x3F#7).getLsbD 6 = false ∨ (0x3F#7).getLsbD 5 = true)) ∧
    (let s := idleState (quickConfig []) false .off [requestRun 0x60#7]
     s.cfg.legal = true ∧ s.mode = .idle ∧ Offers s 0x60#7 ∧ ((0x60#7).getLsbD 6 = false ∨ (0x60#7).getLsbD 5 = true)) ∧
    State.reset.mode ≠ .idle := by
  unfold Offers
  decide

/-- A running wait or window of timer `w`; `x` says whether its line reads high. -/
def runState (aw : Bool) (w ao : Nat) (x : Bool) : State :=
  { idleState (quickConfig []) true .on [quietRun x 0] with
    mode := .run, aw := aw, w := w, ao := ao, blOe := !aw, q := [.drv .bl true] }

theorem witness_RunStep :
    (∀ s : State, s = runState false 2 0 true ∨ s = runState false 1 0 true ∨ s = runState true 2 2 true ∨
      s = runState true 1 2 false ∨ s = runState true 1 3 true →
      s.cfg.legal = true ∧ s.mode = .run ∧ s.pins.rst = false) ∧
    (let s := runState false 2 0 true; 1 < s.w ∧ s.aw = false) ∧
    (let s := runState false 1 0 true; s.w ≤ 1 ∧ s.aw = false) ∧
    (let s := runState true 2 2 true
     (false = true ↔ s.awSeen = true ∨ (s.ao % ticks s.cfg s.cfg.ackPoll = 0 ∧ s.pins.blIn = false)) ∧
     s.aw = true ∧ 1 < s.w) ∧
    (let s := runState true 1 2 false
     (true = true ↔ s.awSeen = true ∨ (s.ao % ticks s.cfg s.cfg.ackPoll = 0 ∧ s.pins.blIn = false)) ∧
     s.aw = true ∧ s.w ≤ 1) ∧
    (let s := runState true 1 3 true
     (false = true ↔ s.awSeen = true ∨ (s.ao % ticks s.cfg s.cfg.ackPoll = 0 ∧ s.pins.blIn = false)) ∧
     s.aw = true ∧ s.w ≤ 1) := by
  refine ⟨?_, by decide, by decide, by decide, by decide, by decide⟩
  rintro s (rfl | rfl | rfl | rfl | rfl) <;> decide

/-- A state with the queue `q`. -/
def withQueue (q : Script) : State := { State.reset with q := q }

theorem witness_AdvanceSteps :
    (withQueue []).q = [] ∧
    (∀ op : MicroOp, (withQueue (op :: [.drv .cs true])).q = op :: [.drv .cs true]) := ⟨rfl, fun _ => rfl⟩

theorem witness_OtherInputsIgnored :
    (let i := { quietPins with cfgAckEn := true, blIn := false }
     i.rst = false ∧ quietPins.rst = false ∧ i ≠ quietPins ∧ State.reset.mode = .boot ∧
     (runState true 2 1 true).mode = .run ∧
     ((runState true 2 1 true).aw = true → (runState true 2 1 true).awSeen = false →
       (runState true 2 1 true).ao % ticks (quickConfig []) (quickConfig []).ackPoll = 0 → i.blIn = quietPins.blIn) ∧
     i.reqValid = quietPins.reqValid ∧ (i.reqValid = true → reqWord i = reqWord quietPins)) ∧
    (let i := requestPins 0x40#7
     let j := { requestPins 0x40#7 with blIn := false }
     let s := idleState (quickConfig []) false .on []
     i.rst = false ∧ j.rst = false ∧ i ≠ j ∧ s.mode = .idle ∧ i.reqValid = j.reqValid ∧ reqWord i = reqWord j) := by
  decide

theorem witness_StepRunsDecodedRequest :
    (let s := idleState (quickConfig []) false .on [requestRun 0x5F#7]
     s.cfg.legal = true ∧ s.mode = .idle ∧ Offers s 0x5F#7 ∧ decode s.pwrState (.req7 0x5F#7) = .ok (.setOnUpdate 31#5)) ∧
    (let s := State.afterReset (quickConfig []) false [quietRun true 0] 0
     s.cfg.legal = true ∧ s.mode = .boot ∧ s.pins.rst = false) := by
  refine ⟨⟨by decide, by decide, by unfold Offers; decide, by decide⟩, by decide⟩

theorem witness_StepRunsTableEntry :
    (let s := State.afterReset (quickConfig [0x1FF#16, 0xFFFF#16]) false [quietRun true 0] 0
     s.cfg.legal = true ∧ s.mode = .boot ∧ s.pins.rst = false ∧ s.cfg.cmdTable = 0x1FF#16 :: [0xFFFF#16] ∧
     decode s.pwrState (.cmd16 0x1FF#16) = .ok (.xmit 0x1FF#9)) ∧
    (let s := { runState false 1 0 true with q := MicroOp.set (.pc 1) :: delayEntryScript (quickConfig []) ++ [MicroOp.rel .sck] }
     s.cfg.legal = true ∧ s.mode = .run ∧ s.pins.rst = false ∧ s.w ≤ 1 ∧ s.aw = false ∧
     entryScript s.cfg 1 0xFFFF#16 = some (.set (.pc 1) :: delayEntryScript (quickConfig [])) ∧
     s.q = (MicroOp.set (.pc 1) :: delayEntryScript (quickConfig [])) ++ [MicroOp.rel .sck] ∧
     decode s.pwrState (.cmd16 0xFFFF#16) = .ok .delay) := by decide

theorem witness_StepRunsInsertedScript :
    (let s := { runState false 1 0 true with q := hsScript (quickConfig []) ++ [MicroOp.drv .bl true] }
     s.cfg.legal = true ∧ s.mode = .run ∧ s.pins.rst = false ∧ s.w ≤ 1 ∧ s.aw = false ∧
     s.q = hsScript s.cfg ++ [MicroOp.drv .bl true]) ∧
    (let s := { runState false 1 0 true with q := frameScript (quickConfig []) (frameWord 31#5 true) true ++ [] }
     s.aw = false ∧ s.q = frameScript s.cfg (frameWord 31#5 true) true ++ []) ∧
    (let s := runState true 1 2 true
     s.cfg.legal = true ∧ s.mode = .run ∧ s.pins.rst = false ∧ s.w ≤ 1 ∧ s.aw = true ∧ s.awSeen = false ∧
     (s.ao % ticks s.cfg s.cfg.ackPoll = 0 → s.pins.blIn = true)) := by decide

theorem witness_AttachStarts :
    (let s := State.afterReset (quickConfig []) false [] 0
     s.cfg.legal = true ∧ s.cfg.cmdTable = []) ∧
    (let s := State.afterReset (quickConfig [0x1FF#16, 0xFFFF#16]) false [] 0
     s.cfg.legal = true ∧ s.cfg.cmdTable = (0x1FF#9).setWidth 16 :: [0xFFFF#16]) ∧
    (let s := State.afterReset (quickConfig [0xFFFF#16]) false [] 0
     s.cfg.legal = true ∧ s.cfg.cmdTable = 0xFFFF#16 :: []) := by decide

theorem witness_AttachPlaysTheTable :
    (quickConfig [0x1FF#16, 0xFFFF#16]).legal = true ∧ 1 < (quickConfig [0x1FF#16, 0xFFFF#16]).cmdTable.length ∧
    (quickConfig [0x1FF#16, 0xFFFF#16]).cmdTable.length ≤ 2 := by decide

theorem witness_UpdatesAreIdempotent :
    (let s := idleState (quickConfig []) true .on []
     let s' := { s with lastBrightness := 3#5, reportedBrightness := 3#5, ackStatus := .ok }
     s.cfg = s'.cfg ∧ s.ackEn = s'.ackEn ∧ hasNext (exec (.setOnUpdate 20#5) s) ∧ hasNext (exec (.setOnUpdate 20#5) s')) :=
  ⟨rfl, rfl, ⟨_, rfl⟩, ⟨_, rfl⟩⟩

theorem witness_RequestFrame :
    decode .on (.req7 0x54#7) = .ok (.setOnUpdate 20#5) ∧
    hasNext (exec (.setOnUpdate 20#5) (idleState (quickConfig []) true .on [])) := ⟨by decide, ⟨_, rfl⟩⟩

/-- An IDLE block that is offered a request, and then inputs in which the line reads `v`. -/
def offeredState (a : Bool) (p : PwrState) (v : Bool) : State :=
  idleState (quickConfig []) a p [requestRun 0x54#7, quietRun v 200]

theorem offeredState_pins (a : Bool) (p : PwrState) (v : Bool) (k : Nat) (hk : k ≤ 200) :
    pinsAt (offeredState a p v) (k + 1) = { quietPins with blIn := v } :=
  pinsAt_constant (s := (offeredState a p v).tick) (m := 200) (rest := []) rfl k hk

theorem offeredState_noReset (a : Bool) (p : PwrState) (v : Bool) (n : Nat) (hn : n ≤ 200) :
    NoReset (offeredState a p v) n := by
  intro k hk
  cases k with
  | zero => rfl
  | succ k => rw [offeredState_pins a p v k (by omega)]; rfl

/-- Each way an acknowledgement can end, for a window that begins in cycle `n + 1`. -/
theorem offeredState_ack (p : PwrState) (n : Nat) (hn : n < 100) (v : Bool) :
    AckResult (offeredState false p v) (n + 1) .none ∧ AckResult (offeredState true p false) (n + 1) .ok ∧
    AckResult (offeredState true p true) (n + 1) .timeout := by
  refine ⟨rfl, ⟨rfl, 0, by cases p <;> decide, Nat.zero_mod _, ?_⟩, rfl, ?_⟩
  · rw [Nat.add_zero, offeredState_pins _ _ _ n (by omega)]
  · rintro ⟨k, hk, -, h⟩
    rw [show windowTicks (offeredState true p true).cfg = 4 by cases p <;> decide] at hk
    rw [show n + 1 + k = (n + k) + 1 by omega, offeredState_pins _ _ _ _ (by omega)] at h
    exact Bool.noConfusion h

/-- The hypotheses of UpdateOperation, with b = 20. -/
def UpdateMet (s : State) (r : AckStatus) : Prop :=
  s.cfg.legal = true ∧ s.mode = .idle ∧ s.aw = false ∧ s.pwrState = .on ∧
  Offers s (BitVec.ofBool true ++ BitVec.ofBool false ++ 20#5) ∧ AckResult s (1 + frameTicks s.cfg) r ∧
  NoReset s (1 + frameTicks s.cfg + ackTicks s.cfg r)

theorem witness_UpdateOperation :
    UpdateMet (offeredState false .on true) .none ∧ UpdateMet (offeredState true .on false) .ok ∧
    UpdateMet (offeredState true .on true) .timeout := by
  obtain ⟨h1, h2, h3⟩ := offeredState_ack .on 36 (by decide) true
  refine ⟨⟨by decide, rfl, rfl, rfl, ⟨rfl, rfl, by decide⟩, h1, offeredState_noReset _ _ _ _ (by decide)⟩,
    ⟨by decide, rfl, rfl, rfl, ⟨rfl, rfl, by decide⟩, h2, offeredState_noReset _ _ _ _ (by decide)⟩,
    ⟨by decide, rfl, rfl, rfl, ⟨rfl, rfl, by decide⟩, h3, offeredState_noReset _ _ _ _ (by decide)⟩⟩

/-- The hypotheses of PowerUpOperation, with b = 20. -/
def PowerUpMet (s : State) (r : AckStatus) : Prop :=
  s.cfg.legal = true ∧ s.mode = .idle ∧ s.aw = false ∧ s.pwrState = .off ∧
  Offers s (BitVec.ofBool true ++ BitVec.ofBool false ++ 20#5) ∧
  AckResult s (1 + handshakeTicks s.cfg + frameTicks s.cfg) r ∧
  NoReset s (1 + handshakeTicks s.cfg + frameTicks s.cfg + ackTicks s.cfg r)

theorem witness_PowerUpOperation :
    PowerUpMet (offeredState false .off true) .none ∧ PowerUpMet (offeredState true .off false) .ok ∧
    PowerUpMet (offeredState true .off true) .timeout := by
  obtain ⟨h1, h2, h3⟩ := offeredState_ack .off 39 (by decide) true
  refine ⟨⟨by decide, rfl, rfl, rfl, ⟨rfl, rfl, by decide⟩, h1, offeredState_noReset _ _ _ _ (by decide)⟩,
    ⟨by decide, rfl, rfl, rfl, ⟨rfl, rfl, by decide⟩, h2, offeredState_noReset _ _ _ _ (by decide)⟩,
    ⟨by decide, rfl, rfl, rfl, ⟨rfl, rfl, by decide⟩, h3, offeredState_noReset _ _ _ _ (by decide)⟩⟩

theorem witness_AttachOperation :
    let s := State.afterReset (quickConfig [0x198#16, 0xFFFF#16]) false [quietRun true 100] 0
    s.cfg.legal = true ∧ s.mode = .boot ∧ s.aw = false ∧
    NoReset s (1 + tableTicks s.cfg s.cfg.cmdTable + handshakeTicks s.cfg) :=
  ⟨by decide, rfl, rfl, noReset_constant (m := 100) rfl rfl _ (by decide)⟩

/-- UPDATE, then OFF offered `d` cycles after it, then SET_ON; the reset/data line reads `v`. -/
def roundTripState (a v : Bool) (d : Nat) : State :=
  idleState (quickConfig []) a .on
    [requestRun 0x54#7, quietRun v (d - 2), requestRun 0x00#7, requestRun 0x41#7, quietRun v 100]

/-- The hypotheses of RoundTrip, with b = 20, b' = 1 and the OFF word 0, and those of its second clause. -/
def RoundTripMet (s : State) (D : Nat) (r r' : AckStatus) : Prop :=
  s.cfg.legal = true ∧ s.mode = .idle ∧ s.aw = false ∧ s.pwrState = .on ∧
  Offers s (BitVec.ofBool true ++ BitVec.ofBool false ++ 20#5) ∧ AckResult s (1 + frameTicks s.cfg) r ∧
  D = 1 + frameTicks s.cfg + ackTicks s.cfg r ∧
  ((0x00#7).getLsbD 6 = false ∨ (0x00#7).getLsbD 5 = true) ∧
  (pinsAt s D).reqValid = true ∧ reqWord (pinsAt s D) = 0x00#7 ∧
  (pinsAt s (D + 1)).reqValid = true ∧
  reqWord (pinsAt s (D + 1)) = BitVec.ofBool true ++ BitVec.ofBool false ++ 1#5 ∧
  NoReset s (D + 2 + handshakeTicks s.cfg) ∧
  AckResult s (D + 2 + handshakeTicks s.cfg + frameTicks s.cfg) r' ∧
  NoReset s (D + 2 + handshakeTicks s.cfg + frameTicks s.cfg + ackTicks s.cfg r')

/-- Without a window, with both windows acknowledged, and with both timed out. -/
theorem witness_RoundTrip :
    RoundTripMet (roundTripState false true 37) 37 .none .none ∧
    RoundTripMet (roundTripState true false 41) 41 .ok .ok ∧
    RoundTripMet (roundTripState true true 44) 44 .timeout .timeout := by
  refine ⟨⟨by decide, rfl, rfl, rfl, ⟨rfl, rfl, by decide⟩, rfl, by decide, by decide, by decide, by decide, by decide,
      by decide, ?_, rfl, ?_⟩,
    ⟨by decide, rfl, rfl, rfl, ⟨rfl, rfl, by decide⟩, ⟨rfl, 0, by decide, by decide, by decide⟩, by decide, by decide,
      by decide, by decide, by decide, by decide, ?_, ⟨rfl, 0, by decide, by decide, by decide⟩, ?_⟩,
    ⟨by decide, rfl, rfl, rfl, ⟨rfl, rfl, by decide⟩, ⟨rfl, by decide⟩, by decide, by decide,
      by decide, by decide, by decide, by decide, ?_, ⟨rfl, by decide⟩, ?_⟩⟩ <;>
  · unfold NoReset
    decide

theorem witness_ScriptDurations :
    (∃ q, entryScript (quickConfig []) 0 0x1FF#16 = some q) ∧ (∃ q, entryScript (quickConfig []) 4 0xFFFF#16 = some q) ∧
    ∃ q, attachScript (quickConfig [0x1FF#16, 0xFFFF#16]) = some q := ⟨⟨_, rfl⟩, ⟨_, rfl⟩, ⟨_, rfl⟩⟩

/-- The hypotheses of ScriptsRunAsTheirWaveforms. -/
def ScriptMet (s : State) (q : Script) : Prop :=
  s.cfg.legal = true ∧ s.aw = false ∧ Timed s.cfg q ∧ NoReset s (scriptTicks s.cfg (playedScript s 0 q))

/-- Every wait of a script of the quick timing is a duration. -/
theorem timed_quick {q : Script} {m : Memory}
    (h : q.all (fun op => match op with | .wait d => decide (d = 1) | _ => true) = true) :
    Timed (quickConfig m) q := by
  intro d hd
  have hd1 : d = 1 := by simpa using List.all_eq_true.1 h _ hd
  subst hd1
  exact List.mem_cons_self

/-- A script without a window, and a frame whose window sees a low and sees none. -/
theorem witness_ScriptsRunAsTheirWaveforms :
    (let s := State.afterReset (quickConfig []) false [quietRun true 100] 0
     ScriptMet s (xmitScript s.cfg 0x198#9) ∧ .ackwin ∉ xmitScript s.cfg 0x198#9) ∧
    (let s := idleState (quickConfig []) true .on [quietRun false 100]
     let q := frameScript s.cfg (frameWord 20#5 true) true
     ScriptMet s q ∧ playedScript s 0 q = q) ∧
    (let s := idleState (quickConfig []) true .on [quietRun true 100]
     let q := frameScript s.cfg (frameWord 20#5 true) true
     ScriptMet s q ∧ .ackwin ∈ q ∧ playedScript s 0 q ≠ q) := by
  refine ⟨⟨⟨by decide, rfl, timed_quick (by decide), ?_⟩, by decide⟩,
    ⟨⟨by decide, rfl, timed_quick (by decide), ?_⟩, by decide⟩,
    ⟨by decide, rfl, timed_quick (by decide), ?_⟩, by decide, by decide⟩ <;>
  exact noReset_constant (m := 100) rfl rfl _ (by decide)

/-- The window's lines at both outcomes of AckFrameWaveform and OperationWaveforms. -/
theorem witness_AckFrameWaveform :
    AckSeen (idleState (quickConfig []) true .on [quietRun false 100]) (0 + frameTicks (quickConfig [])) ∧
    ¬ AckSeen (idleState (quickConfig []) true .on [quietRun true 100]) (0 + frameTicks (quickConfig [])) := by decide

/-! ### States that meet the invariant, and reachable states -/

theorem idleState_inv {c : Config} (hc : c.legal = true) (a : Bool) (p : PwrState) (inputs : List PinRun) :
    Inv (idleState c a p inputs) := by
  refine ⟨hc, ?_, fun _ => rfl, Nat.zero_le _, rfl, rfl, rfl, rfl, rfl, rfl, rfl⟩
  refine ⟨?_, ?_, fun _ => ⟨rfl, rfl⟩, fun h => absurd rfl h, fun _ => ⟨rfl, rfl⟩, fun h => CspState.noConfusion h, ?_⟩
  · cases p
    · exact fun _ => rfl
    · exact fun h => PwrState.noConfusion h
  · cases p
    · exact fun h => PwrState.noConfusion h
    · exact fun _ => rfl
  · rintro (h | h) <;> exact CspState.noConfusion h

theorem witness_StepKeepsInvariant :
    Inv (idleState (quickConfig []) true .on [requestRun 0x54#7]) ∧
    hasNext (step (idleState (quickConfig []) true .on [requestRun 0x54#7])) :=
  ⟨idleState_inv (by decide) _ _ _, ⟨_, rfl⟩⟩

theorem witness_ResetMeetsInvariant : (quickConfig [0x1FF#16]).legal = true := by decide

/-- For each clause: an UPDATE is accepted, OFF is accepted, and the last cycle of a handshake before the status
writes. -/
theorem witness_RegisterWriters :
    (let s := idleState (quickConfig []) true .on [requestRun 0x54#7]
     Inv s ∧ hasNext (step s) ∧ s.pins.rst = false ∧ s.pwrState = .on ∧ s.cspState = .done ∧
     s.cspState ≠ .notStarted) ∧
    (let s := idleState (quickConfig []) true .on [requestRun 0x00#7]
     Inv s ∧ shows (step s) (fun t => t.pwrState) .off = true ∧ s.pins.rst = false ∧ s.pwrState = .on) ∧
    (let s := { idleState (quickConfig []) false .off [quietRun true 0] with
       mode := Mode.run, w := 1, fromReq := true
       q := [.set (.reportedBrightness 9#5), .set (.pwrState .on)] ++ frameScript (quickConfig []) 0x5809#16 false }
     Inv s ∧ shows (step s) (fun t => t.pwrState) .on = true ∧ s.pins.rst = false ∧ s.pwrState = .off) := by
  refine ⟨⟨idleState_inv (by decide) _ _ _, ⟨_, rfl⟩, rfl, rfl, rfl, by decide⟩,
    ⟨idleState_inv (by decide) _ _ _, by decide, rfl, rfl⟩, ?_, by decide, rfl, rfl⟩
  obtain ⟨h1, h2, h3, h4, _⟩ := idleState_inv (c := quickConfig []) (by decide) false .off [quietRun true 0]
  refine ⟨h1, h2, h3, h4, by decide, by decide, rfl, fun h => Bool.noConfusion h, fun _ => rfl, ⟨rfl, ?_⟩,
    fun h => Bool.noConfusion h⟩
  refine scriptOk_frame _ _ rfl ?_ (fun h => Bool.noConfusion h)
  exact ⟨fun h => PwrState.noConfusion h, fun _ => rfl, fun _ => ⟨rfl, rfl⟩, fun h => absurd rfl h, fun _ => ⟨rfl, rfl⟩,
    fun h => CspState.noConfusion h, fun h => by rcases h with h | h <;> cases h⟩

theorem reachable_run {s t : State} (n : Nat) (hs : Reachable s) (h : runFor n s = .next t) : Reachable t := by
  induction n generalizing s with
  | zero => cases h; exact hs
  | succ n ih =>
    rw [runFor_step] at h
    cases hst : step s with
    | next u => rw [hst] at h; exact ih (.step s u hs hst) h
    | fault r => cases r
    | refused r => rw [hst] at h; cases h

/-- A reachable state in which a player's entry runs, and its step. -/
theorem witness_reachable_run :
    ∃ s : State, Reachable s ∧ s.mode = .run ∧ s.cspState ≠ .done ∧ s.aw = false ∧ s.pwrState = .off ∧
      s.pins.rst = false ∧ hasNext (step s) :=
  ⟨_, .step _ _ (.reset (quickConfig [0x1FF#16]) true [quietRun true 9] 0 (by decide)) rfl, rfl, by decide, rfl, rfl, rfl,
    ⟨_, rfl⟩⟩

/-- A reachable IDLE state, in a configuration of the quick timing. -/
theorem witness_reachable_idle :
    ∃ s : State, Reachable s ∧ s.mode = .idle ∧ s.cspState = .done ∧ s.pwrState = .off ∧ s.pins.rst = false ∧
      hasNext (step s) :=
  ⟨_, reachable_run 4 (.reset (quickConfig []) true [quietRun true 3, requestRun 0x54#7, quietRun true 100] 0 (by decide)) rfl,
    rfl, rfl, rfl, rfl, ⟨_, rfl⟩⟩

/-- A reachable response cycle. -/
theorem witness_reachable_response :
    ∃ s : State, Reachable s ∧ s.rsp = true ∧ s.mode = .idle :=
  ⟨_, reachable_run 5 (.reset (quickConfig []) true [quietRun true 3, requestRun 0x00#7, quietRun true 100] 0 (by decide)) rfl,
    rfl, rfl⟩

/-- A reachable acknowledgement window, with the chip ON, and the timeout at its end. -/
theorem witness_reachable_window :
    (∃ s : State, Reachable s ∧ s.aw = true ∧ s.mode = .run ∧ s.pwrState = .on) ∧
    ∃ s : State, Reachable s ∧ s.evTo = true :=
  ⟨⟨_, reachable_run 44 (.reset (quickConfig []) true [quietRun true 3, requestRun 0x54#7, quietRun true 100] 0 (by decide)) rfl,
    rfl, rfl, rfl⟩,
   ⟨_, reachable_run 48 (.reset (quickConfig []) true [quietRun true 3, requestRun 0x54#7, quietRun true 100] 0 (by decide)) rfl,
    rfl⟩⟩

/-- R42's clause: a reachable state in the default timing. -/
theorem witness_CountersBounded :
    Reachable State.reset ∧ State.reset.cfg.durations = Config.default.durations ∧ State.reset.cfg.clkPeriod = 500 ∧
    State.reset.ackEn = false :=
  ⟨.reset Config.default false [] 0 (by decide), rfl, rfl, rfl⟩

end Sys2Proof.Tests
end

section
/-! SUPPORT. The statements about the configuration, its ticks, and scripts as waveforms (spec/00_scope.md R5, R9, R10). -/

namespace Sys2Proof.Proofs

open Sys2Proof Sys2Proof.Machine Sys2Proof.Safety Sys2Proof.Laws

/-! ## The configuration -/

theorem timingLegal_iff (c : Config) : c.timingLegal = true ↔
    0 < c.clkPeriod ∧ ∀ d ∈ c.durations, 0 < d ∧ d % c.clkPeriod = 0 := by
  simp [Config.timingLegal, durationLegal]

theorem romWf_iff (m : Memory) : Memory.wf m = true ↔ ∀ e ∈ m, e.toNat ≤ 0x1FF ∨ e.toNat = 0xFFFF := by
  simp only [Memory.wf, List.all_eq_true, entryLegal_range]

theorem legal_iff (c : Config) : c.legal = true ↔
    (0 < c.clkPeriod ∧ ∀ d ∈ c.durations, 0 < d ∧ d % c.clkPeriod = 0) ∧
    c.ackPoll ≤ c.ackBudget ∧ c.initLastBrightness ≤ 31 ∧
    ∀ e ∈ c.cmdTable, e.toNat ≤ 0x1FF ∨ e.toNat = 0xFFFF := by
  simp only [Config.legal, Bool.and_eq_true, timingLegal_iff, romWf_iff, Config.pollLegal, Config.initBrightnessLegal,
    decide_eq_true_eq, and_assoc]

/-- An illegal configuration is given no behaviour (R9, R183). -/
theorem step_refused_of_illegal {s : State} (h : s.cfg.legal = false) : ∃ r, step s = .refused r := by
  cases hr : configRefusal s.cfg with
  | none => simp [(configRefusal_none_iff _).1 hr] at h
  | some r => exact ⟨r, by simp [step, cycleStep, hr]⟩

/-- ATTACH is the one instruction whose meaning can be refused, and a legal table has a script. -/
theorem exec_next_of_legal {s : State} (h : s.cfg.legal = true) (i : Instr) : ∃ t, exec i s = .next t := by
  cases i with
  | attach =>
    obtain ⟨q, hq⟩ := attachScript_some h
    exact ⟨startScript q false s, by simp [exec, execAttach, hq]⟩
  | _ => exact ⟨_, rfl⟩

/-- A legal configuration never stops, whatever the mode and the input values (R9, R180). -/
theorem step_next_of_legal {s : State} (h : s.cfg.legal = true) : ∃ t, step s = .next t := by
  rw [step_eq h, cycleOn]
  have hexec : ∀ i, ∃ t, exec i s.tick = .next t := exec_next_of_legal (s := s.tick) h
  split
  · exact ⟨_, rfl⟩
  · split
    · exact hexec .attach
    · exact ⟨_, rfl⟩
    · split
      · exact hexec _
      · exact ⟨_, rfl⟩

/-- Settles O5: legality is R9's four checks, an illegal configuration is refused by `step`'s check, and in a legal one
every meaning gives a next state. -/
theorem configurationLegality : Obligations.ConfigurationLegality :=
  ⟨legal_iff, fun _ => step_refused_of_illegal, fun _ => step_next_of_legal, by decide, rfl, rfl⟩

/-- Settles O6: R10's formula is the definition of `ticks`, and each default is a literal division. -/
theorem defaultTicks : Obligations.DefaultTicks :=
  ⟨fun _ _ => rfl, by decide⟩

/-! ## Scripts as waveforms -/

/-- A script that starts from any state with no window running shows its played script: entering RUN moves no line,
leaves the inputs alone and clears the response. -/
theorem startScript_shows {s : State} (hc : s.cfg.legal = true) (haw : s.aw = false) (q : Script) (fromReq : Bool)
    (hq : Timed s.cfg q) (hn : NoReset s (scriptTicks s.cfg (playedScript s 0 q))) :
    Shows (playedScript s 0 q) (s.beginRun fromReq) (startScript q fromReq s) :=
  script_shows hc q (s.beginRun fromReq) s 0 rfl rfl ⟨rfl, rfl⟩ hq rfl haw rfl (noReset_congr hn rfl rfl)

/-- Settles O39, from `script_shows` at the state in which RUN is entered. -/
theorem scriptsRunAsTheirWaveforms : Obligations.ScriptsRunAsTheirWaveforms := by
  intro q fromReq s hc haw hq hn
  obtain ⟨during, after⟩ := startScript_shows hc haw q fromReq hq hn
  exact ⟨playedScript_windowless s 0 q, wf_length _ _, during, after⟩

end Sys2Proof.Proofs
end

section
/-! SUPPORT. One cycle by mode and by request, and the invariant over it (spec/10_state.md R33, R36, R37, R41). -/

namespace Sys2Proof.Proofs

open Sys2Proof Sys2Proof.Machine Sys2Proof.Safety Sys2Proof.Laws

/-! ## The request word -/

/-- The two bits above the brightness are those of the flags in front of it. -/
theorem reqWord_high (i : Pins) (j : Nat) :
    (reqWord i).getLsbD (5 + j) = (BitVec.ofBool i.reqUnblank ++ BitVec.ofBool i.reqBlank).getLsbD j :=
  BitVec.getLsbD_append.trans (by simp)

theorem reqWord_getLsbD_six (i : Pins) : (reqWord i).getLsbD 6 = i.reqUnblank :=
  (reqWord_high i 1).trans (by cases i.reqUnblank <;> cases i.reqBlank <;> rfl)

theorem reqWord_getLsbD_five (i : Pins) : (reqWord i).getLsbD 5 = i.reqBlank :=
  (reqWord_high i 0).trans (by cases i.reqUnblank <;> cases i.reqBlank <;> rfl)

theorem reqWord_bright (i : Pins) : (reqWord i).extractLsb' 0 5 = i.reqBright :=
  BitVec.extractLsb'_append_eq_right

/-- The script that the request inputs select in a power state (R141). -/
def requestScript (i : Pins) (s : State) : Script :=
  if i.reqUnblank = false ∨ i.reqBlank = true then offScript
  else if s.pwrState = .off then powerUpScript s.cfg s.lastBrightness s.ackEn
  else updateScript s.cfg i.reqBright s.ackEn

theorem requestScript_cases (i : Pins) (s : State) :
    ((i.reqUnblank = false ∨ i.reqBlank = true) ∧ requestScript i s = offScript) ∨
    (s.pwrState = .off ∧ requestScript i s = powerUpScript s.cfg s.lastBrightness s.ackEn) ∨
    (i.reqUnblank = true ∧ i.reqBlank = false ∧ s.pwrState = .on ∧
      requestScript i s = updateScript s.cfg i.reqBright s.ackEn) := by
  unfold requestScript
  split
  · next h => exact .inl ⟨h, rfl⟩
  · next h =>
    obtain ⟨hu, hk⟩ : i.reqUnblank = true ∧ i.reqBlank = false := by simpa using h
    cases s.pwrState with
    | off => exact .inr (.inl ⟨rfl, rfl⟩)
    | on => exact .inr (.inr ⟨hu, hk, rfl, rfl⟩)

/-- The decoded request starts the script that the dispatch selects (R72, R141). -/
theorem exec_decodeReq7 (i : Pins) (s : State) :
    exec (decodeReq7 s.pwrState (reqWord i)) s = .next (acceptRequest (requestScript i s) s) := by
  simp only [decodeReq7, requestScript, reqWord_getLsbD_six, reqWord_getLsbD_five, reqWord_bright]
  cases i.reqUnblank <;> cases i.reqBlank <;> cases s.pwrState <;> rfl

/-! ## One step by mode -/

theorem step_reset {s : State} (hc : s.cfg.legal = true) (hr : s.pins.rst = true) :
    step s = .next (State.afterReset s.cfg s.pins.cfgAckEn s.tick.inputs s.tick.cycle) := by
  rw [step_eq hc, cycleOn, if_pos hr, tick_cfg]

theorem step_boot {s : State} (hc : s.cfg.legal = true) (hm : s.mode = .boot) (hr : s.pins.rst = false) :
    step s = exec .attach s.tick := by
  simp [step_eq hc, cycleOn, hr, hm]

theorem exec_attach {s : State} {q : Script} (hq : attachScript s.cfg = some q) :
    exec .attach s = .next (startScript q false s) := by
  simp [exec, execAttach, hq]

theorem step_idle_quiet {s : State} (hc : s.cfg.legal = true) (hm : s.mode = .idle) (hr : s.pins.rst = false)
    (hv : s.pins.reqValid = false) : step s = .next s.tick.clearPulses := by
  simp [step_eq hc, cycleOn, hr, hm, hv]

theorem step_idle_decoded {s : State} (hc : s.cfg.legal = true) (hm : s.mode = .idle) (hr : s.pins.rst = false)
    (hv : s.pins.reqValid = true) : step s = exec (decodeReq7 s.pwrState (reqWord s.pins)) s.tick := by
  simp [step_eq hc, cycleOn, hr, hm, hv]

theorem step_idle_request {s : State} (hc : s.cfg.legal = true) (hm : s.mode = .idle) (hr : s.pins.rst = false)
    (hv : s.pins.reqValid = true) : step s = .next (acceptRequest (requestScript s.pins s) s.tick) :=
  (step_idle_decoded hc hm hr hv).trans (exec_decodeReq7 s.pins s.tick)

/-- All that a step without reset can do, one case for each mode and, in IDLE, with and without a request. -/
inductive Stepped (s : State) : State → Prop where
  | boot (q : Script) (hm : s.mode = .boot) (hq : attachScript s.cfg = some q) : Stepped s (startScript q false s.tick)
  | run (hm : s.mode = .run) : Stepped s (runCycle s.pins s.tick)
  | quiet (hm : s.mode = .idle) : Stepped s s.tick.clearPulses
  | request (hm : s.mode = .idle) (hv : s.pins.reqValid = true) :
      Stepped s (acceptRequest (requestScript s.pins s) s.tick)

theorem step_cases {s t : State} (h : step s = .next t) (hr : s.pins.rst = false) : Stepped s t := by
  have hc := step_legal h
  have answer : ∀ u, step s = .next u → Stepped s u → Stepped s t := fun u hu hs =>
    Host.Outcome.next.inj (hu.symm.trans h) ▸ hs
  cases hm : s.mode with
  | boot =>
    obtain ⟨q, hq⟩ := attachScript_some hc
    exact answer _ ((step_boot hc hm hr).trans (exec_attach hq)) (.boot q hm hq)
  | run => exact answer _ (step_run hc hm hr) (.run hm)
  | idle =>
    cases hv : s.pins.reqValid with
    | false => exact answer _ (step_idle_quiet hc hm hr hv) (.quiet hm)
    | true => exact answer _ (step_idle_request hc hm hr hv) (.request hm hv)

/-! ## The invariant -/

/-- In BOOT the view is that of reset, but for the values that R33 takes from outside (R40). -/
theorem boot_view {s : State} (h : Inv s) (hm : s.mode = .boot) :
    s.pwrState = .off ∧ s.reportedBrightness = 0#5 ∧ s.sckOe = true ∧ s.blOe = true ∧ s.blOut = false ∧
    s.mosiOut = false ∧ s.csOut = true ∧ s.pc = 0 := by
  obtain ⟨-, ⟨offRep, -, -, undone, rest, fresh, -⟩, -, -, hmode⟩ := h
  obtain ⟨-, -, -, hcsp, -⟩ := (modeInv_boot hm).1 hmode
  have hcsp' : (view s).csp = .notStarted := hcsp
  obtain ⟨hp, hsck, hoe, hout⟩ := undone (by simp [hcsp'])
  obtain ⟨hmosi, hcs⟩ := rest (by simp [hcsp'])
  exact ⟨hp, offRep hp, hsck, hoe, hout, hmosi, hcs, fresh hcsp'⟩

/-- The attach script keeps the invariant from the state in which BOOT starts it. -/
theorem attach_scriptOk {s : State} {q : Script} (h : Inv s) (hm : s.mode = .boot) (hq : attachScript s.cfg = some q) :
    ScriptOk s.cfg q (view (s.beginRun false)) := by
  obtain ⟨hp, hrep, hsck, hoe, hout, hmosi, hcs, hpc⟩ := boot_view h hm
  exact scriptOk_attach hq ⟨hp, hrep, hsck, hoe, hout, hmosi, hcs, rfl, hpc⟩

theorem boot_inv {s : State} {q : Script} (h : Inv s) (hm : s.mode = .boot) (hq : attachScript s.cfg = some q) :
    Inv (startScript q false s) := by
  have hok := attach_scriptOk h hm hq
  obtain ⟨hc, -, hack, hao, hmode⟩ := h
  obtain ⟨-, hw, haw, -⟩ := (modeInv_boot hm).1 hmode
  exact startScript_inv hc haw hw hack hao hok

theorem powerUpScript_inv {s : State} (h : Inv s) (hm : s.mode = .idle) :
    Inv (acceptRequest (powerUpScript s.cfg s.lastBrightness s.ackEn) s) := by
  obtain ⟨hc, hv, hack, hao, hmode⟩ := h
  obtain ⟨-, hw, haw, hdone, -⟩ := (modeInv_idle hm).1 hmode
  exact startScript_inv hc haw hw hack hao
    (scriptOk_powerUp (v := { view s with ev := false, fromReq := true }) hdone rfl hv)

theorem clearPulses_inv {s : State} (h : Inv s) (hm : s.mode = .idle) : Inv s.clearPulses := by
  obtain ⟨hc, hv, hack, hao, hmode⟩ := h
  obtain ⟨hq, hw, haw, hdone, hoe, -, -⟩ := (modeInv_idle hm).1 hmode
  exact ⟨hc, hv, hack, hao, (modeInv_idle (s := s.clearPulses) hm).2 ⟨hq, hw, haw, hdone, hoe, rfl, rfl⟩⟩

theorem request_inv {s : State} (i : Pins) (h : Inv s) (hm : s.mode = .idle) :
    Inv (acceptRequest (requestScript i s) s) := by
  rcases requestScript_cases i s with ⟨-, hq⟩ | ⟨-, hq⟩ | ⟨-, -, hp, hq⟩ <;> rw [hq]
  · exact offScript_inv h hm
  · exact powerUpScript_inv h hm
  · exact updateScript_inv _ h hm hp

/-- Each thing a step can do keeps the invariant (R41). -/
theorem inv_step {s t : State} (h : Inv s) (hst : step s = .next t) : Inv t := by
  have hc := step_legal hst
  cases hr : s.pins.rst with
  | true =>
    obtain rfl := Host.Outcome.next.inj ((step_reset hc hr).symm.trans hst)
    exact inv_reset _ _ _ _ hc
  | false =>
    cases step_cases hst hr with
    | boot q hm hq => exact boot_inv (inv_tick h) hm hq
    | run hm => exact runCycle_inv _ (inv_tick h) hm
    | quiet hm => exact clearPulses_inv (inv_tick h) hm
    | request hm hv => exact request_inv s.pins (inv_tick h) hm

/-- Settles O48, from what a step can do: each case hands over to the invariant of its script or cycle. -/
theorem stepKeepsInvariant : Obligations.StepKeepsInvariant :=
  fun _ _ => inv_step

/-- Settles O49, from `inv_reset`, of which the model's reset state is the case of the default configuration. -/
theorem resetMeetsInvariant : Obligations.ResetMeetsInvariant :=
  ⟨inv_reset, inv_reset Config.default false [] 0 (by decide)⟩

end Sys2Proof.Proofs
end

section
/-! SUPPORT. The statements about one step: reset, each mode, `advance`, the inputs it reads and the outputs
(spec/10_state.md R33 to R39). -/

namespace Sys2Proof.Proofs

open Sys2Proof Sys2Proof.Machine Sys2Proof.Safety Sys2Proof.Laws

/-! ## Reset and outputs -/

theorem initBrightness_le {c : Config} (h : c.legal = true) : c.initLastBrightness ≤ 31 := by
  obtain ⟨-, -, hinit, -⟩ := (legal_iff c).1 h
  exact hinit

/-- Settles O10: the step answers `S_reset`, whose `last_brightness` holds the parameter since a legal one fits. -/
theorem resetCycle : Obligations.ResetCycle := by
  intro s hc hr
  have hlast : (BitVec.ofNat 5 s.cfg.initLastBrightness).toNat = s.cfg.initLastBrightness := by
    have := initBrightness_le hc
    rw [BitVec.toNat_ofNat]
    omega
  exact ⟨_, step_reset hc hr, rfl, rfl, rfl, rfl, rfl, rfl, rfl, rfl, rfl, rfl, rfl, hlast, rfl, rfl, rfl, rfl, rfl,
    rfl, rfl, rfl, rfl, rfl, rfl⟩

/-- Settles O11: every value is a literal of `S_reset` in the default configuration. -/
theorem modelResetState : Obligations.ModelResetState :=
  ⟨rfl, by decide, rfl, rfl, rfl, rfl, rfl, rfl, rfl⟩

theorem pwrBit_eq (p : PwrState) : pwrBit p = decide (p = .on) := by cases p <;> rfl

/-- Settles O16: the output functions are R39's, with `busy` the complement of `req_ready` and the power state read as
its bit. -/
theorem outputFunctions : Obligations.OutputFunctions := by
  intro s
  have hbusy : (s.mode != .idle) = decide (s.mode ≠ .idle) := decide_not.symm
  refine ⟨?_, rfl, rfl⟩
  rw [outputs, hbusy, pwrBit_eq]
  rfl

/-! ## `advance` on the queue in the state -/

theorem advance_with_q (q : Script) (s : State) : advance { s with q := q } = advanceOn q s := advanceOn_q q q s

theorem advance_of_cons {s u : State} {op : MicroOp} {q : Script} (hq : s.q = op :: q)
    (h : advanceOn (op :: q) s = advanceOn q u) : advance s = advance { u with q := q } := by
  rw [advance, hq, h, advance_with_q]

/-- At the end of the script the response is set for a request and left alone otherwise (R38). -/
theorem advance_of_nil {s : State} (hq : s.q = []) :
    advance s = { s with mode := .idle, rsp := if s.fromReq then true else s.rsp } := by
  have hrsp : (s.rsp || s.fromReq) = if s.fromReq then true else s.rsp := by cases s.fromReq <;> simp
  rw [advance, hq, advanceOn, State.finish, hrsp, ← hq]

/-- Settles O15: a micro-op without time goes on with its effect on the state, which the queue field does not touch. -/
theorem advanceSteps : Obligations.AdvanceSteps := by
  intro s q
  refine ⟨advance_of_nil, fun v h => advance_of_cons (u := s.drive .bl v) h rfl,
    fun v h => advance_of_cons (u := s.drive .sck v) h rfl, fun v h => advance_of_cons (u := s.drive .mosi v) h rfl,
    fun v h => advance_of_cons (u := s.drive .cs v) h rfl, fun h => advance_of_cons (u := s.release .bl) h rfl,
    fun h => advance_of_cons (u := s.release .sck) h rfl,
    fun v h => advance_of_cons (u := s.setReg (.pwrState v)) h rfl,
    fun v h => advance_of_cons (u := s.setReg (.lastBrightness v)) h rfl,
    fun v h => advance_of_cons (u := s.setReg (.reportedBrightness v)) h rfl,
    fun v h => advance_of_cons (u := s.setReg (.cspState v)) h rfl,
    fun v h => advance_of_cons (u := s.setReg (.pc v)) h rfl,
    fun h => advance_of_cons (u := s.raiseEvent .handshake) h rfl,
    fun h => advance_of_cons (u := s.raiseEvent .ackTimeout) h rfl, fun d h => ?_, fun h => ?_⟩
  · rw [advance, h]; rfl
  · rw [advance, h]; rfl

/-- A script that starts is `advance` with the script queued (R36, R37). -/
theorem startScript_advance (q : Script) (fr : Bool) (s : State) :
    startScript q fr s = advance { s.beginRun fr with q := q } := (advance_with_q q (s.beginRun fr)).symm

/-! ## The inputs a cycle reads -/

theorem cycleOn_boot {i : Pins} {s : State} (hr : i.rst = false) (hm : s.mode = .boot) :
    cycleOn i s = exec .attach s := by
  simp [cycleOn, hr, hm]

theorem cycleOn_run {i : Pins} {s : State} (hr : i.rst = false) (hm : s.mode = .run) :
    cycleOn i s = .next (runCycle i s) := by
  simp [cycleOn, hr, hm]

theorem cycleOn_idle {i : Pins} {s : State} (hr : i.rst = false) (hm : s.mode = .idle) :
    cycleOn i s =
      if i.reqValid then exec (decodeReq7 s.pwrState (reqWord i)) s else .next s.clearPulses := by
  simp [cycleOn, hr, hm]

theorem runCycle_congr {i j : Pins} {s : State} (h : runSample i s = runSample j s) : runCycle i s = runCycle j s := by
  rw [runCycle, runCycle, h]

/-- A cycle of RUN reads `bl_in` alone, and only where a window that has seen no low samples (R34, R118). -/
theorem runSample_congr {i j : Pins} {s : State}
    (h : s.aw = true → s.awSeen = false → s.ao % ticks s.cfg s.cfg.ackPoll = 0 → i.blIn = j.blIn) :
    runSample i s = runSample j s := by
  have hseen : s.aw = true → (s.awSeen || (samplePoint s && !i.blIn)) = (s.awSeen || (samplePoint s && !j.blIn)) := by
    intro haw
    cases hs : s.awSeen with
    | true => simp
    | false =>
      cases hp : samplePoint s with
      | false => simp
      | true => rw [h haw hs (by simpa [samplePoint] using hp)]
  unfold runSample
  split
  · next haw => exact congrArg (fun b => { s.clearPulses with awSeen := b, ao := s.ao + 1 }) (hseen haw)
  · rfl

/-- Outside IDLE a cycle reads `rst`, `cfg_ack_en` and `bl_in` and nothing of a request (R37). -/
theorem cycleOn_ignores_request {s : State} {i j : Pins} (hm : s.mode ≠ .idle) (hr : i.rst = j.rst)
    (ha : i.cfgAckEn = j.cfgAckEn) (hb : i.blIn = j.blIn) : cycleOn i s = cycleOn j s := by
  cases hrst : j.rst with
  | true => simp [cycleOn, hr, ha, hrst]
  | false =>
    cases hmode : s.mode with
    | boot => rw [cycleOn_boot (hr.trans hrst) hmode, cycleOn_boot hrst hmode]
    | run =>
      rw [cycleOn_run (hr.trans hrst) hmode, cycleOn_run hrst hmode,
        runCycle_congr (runSample_congr fun _ _ _ => hb)]
    | idle => exact absurd hmode hm

/-- Settles O17: by the mode, from what a cycle of each reads. -/
theorem otherInputsIgnored : Obligations.OtherInputsIgnored := by
  intro s i j hi hj
  refine ⟨fun hm => ?_, fun hm hb => ?_, fun hm hv hw => ?_⟩
  · rw [cycleOn_boot hi hm, cycleOn_boot hj hm]
  · rw [cycleOn_run hi hm, cycleOn_run hj hm, runCycle_congr (runSample_congr hb)]
  · rw [cycleOn_idle hi hm, cycleOn_idle hj hm, ← hv]
    split
    · next h => rw [hw h]
    · rfl

/-! ## BOOT and IDLE -/

/-- Settles O12: BOOT starts the attach script, which a legal table has. -/
theorem bootStep : Obligations.BootStep := by
  refine ⟨fun s hc hm hr => ?_, fun s i j => cycleOn_ignores_request⟩
  obtain ⟨q, hq⟩ := attachScript_some hc
  exact ⟨q, hq, by rw [step_boot hc hm hr, exec_attach (s := s.tick) hq, startScript_advance]; rfl⟩

/-- Settles O13: a request starts the script that the dispatch selects, in IDLE and in no other mode. -/
theorem idleStep : Obligations.IdleStep := by
  refine ⟨fun s hc hm hr => ⟨step_idle_quiet hc hm hr, fun hv => ?_⟩,
    fun s i hm => cycleOn_ignores_request hm rfl rfl rfl, fun s => by simp [outputs]⟩
  rw [step_idle_request hc hm hr hv, acceptRequest, startScript_advance]
  rfl

/-- Settles O18: the step is the meaning of the decoded request, and of ATTACH in BOOT. -/
theorem stepRunsDecodedRequest : Obligations.StepRunsDecodedRequest := by
  refine ⟨fun s w i hc hm ⟨hr, hv, hw⟩ hd => ?_, fun s => step_boot⟩
  obtain rfl := Except.ok.inj hd
  rw [step_idle_decoded hc hm hr hv, hw]

/-! ## RUN -/

theorem endTimed_wait {s : State} (haw : s.aw = false) : endTimed s = advance s := by
  simp [endTimed, haw]

theorem runSample_wait {i : Pins} {s : State} (haw : s.aw = false) : runSample i s = s.clearPulses := by
  simp [runSample, haw]

theorem runCycle_more {i : Pins} {s : State} (hw : 1 < s.w) :
    runCycle i s = (runSample i s).setTimer (s.w - 1) := if_pos hw

theorem runCycle_last {i : Pins} {s : State} (hw : s.w ≤ 1) :
    runCycle i s = endTimed ((runSample i s).setTimer 0) := if_neg (Nat.not_lt.2 hw)

/-- A wait ends, also from a timer that already reads 0 (R34; log entry 14). -/
theorem step_wait_end {s : State} (hc : s.cfg.legal = true) (hm : s.mode = .run) (haw : s.aw = false)
    (hw : s.w ≤ 1) (hr : s.pins.rst = false) : step s = .next (advance (s.tick.clearPulses.setTimer 0)) := by
  rw [step_run hc hm hr, runCycle_last (s := s.tick) hw, runSample_wait (s := s.tick) haw]
  exact congrArg _ (endTimed_wait haw)

/-- One cycle of a window, by what it has then seen (R34). -/
theorem winLater_one {s : State} {seen : Bool}
    (h : seen = true ↔ s.awSeen = true ∨ (s.ao % ticks s.cfg s.cfg.ackPoll = 0 ∧ s.pins.blIn = false)) :
    winLater 1 s = { s.tick.clearPulses with awSeen := seen, ao := s.ao + 1 } := by
  have hseen : (winLater 1 s).awSeen = seen :=
    Bool.eq_iff_iff.2 ((winLater_awSeen 1 s).trans (by simpa [pinsAt] using h.symm))
  rw [← hseen]
  rfl

/-- The last cycle of a window, before its outcome is recorded: the timer is at 0 and it has sampled (R34). -/
def windowEnd (seen : Bool) (s : State) : State :=
  { s.clearPulses with w := 0, ao := s.ao + 1, awSeen := seen }

theorem step_window_end {s : State} {seen : Bool} (hc : s.cfg.legal = true) (hm : s.mode = .run) (haw : s.aw = true)
    (hw : s.w ≤ 1) (hr : s.pins.rst = false)
    (h : seen = true ↔ s.awSeen = true ∨ (s.ao % ticks s.cfg s.cfg.ackPoll = 0 ∧ s.pins.blIn = false)) :
    step s = .next
      (if seen then advance (recordAckOk (windowEnd seen s.tick)) else takeAckTimeout (windowEnd seen s.tick)) := by
  have hend : endTimed (windowEnd seen s.tick) =
      if seen then advance (recordAckOk (windowEnd seen s.tick)) else takeAckTimeout (windowEnd seen s.tick) :=
    if_pos haw
  rw [step_win hc hm haw hr, if_neg (Nat.not_lt.2 hw), winLater_one h, ← hend]
  rfl

theorem resume_of_run {s : State} (hm : s.mode = .run) : s.resume = s := by
  rw [State.resume, ← hm]

/-- A script put in front of the rest `rest` goes on with both (R35). -/
theorem insertScript_rest {s : State} (hm : s.mode = .run) (p rest : Script) :
    insertScript p { s with q := rest } = advanceOn (p ++ rest) s := by
  rw [insertScript_eq, resume_of_run (s := { s with q := rest }) hm, advanceOn_q]

theorem takeAckTimeout_advance {s : State} (hm : s.mode = .run) :
    takeAckTimeout s = advance { recordAckTimeout s with q := hsScript s.cfg ++ s.q } :=
  (insertScript_rest (s := recordAckTimeout s) hm _ s.q).trans (advance_with_q _ _).symm

/-- Settles O14: a wait and a window count down; a wait goes on with the queue, and a window by what it has seen. -/
theorem runStep : Obligations.RunStep := by
  intro s hc hm hr
  refine ⟨fun hw haw => step_wait_more hc hm haw hw hr, fun hw haw => step_wait_end hc hm haw hw hr,
    fun seen hseen haw => ⟨fun hw => ?_, fun hw hs => ?_, fun hw hs => ?_⟩⟩
  · rw [step_win hc hm haw hr, if_pos hw, winLater_one hseen]
    rfl
  · rw [step_window_end hc hm haw hw hr hseen, if_pos hs, hs]
    rfl
  · rw [step_window_end hc hm haw hw hr hseen, hs, if_neg Bool.false_ne_true,
      takeAckTimeout_advance (s := windowEnd false s.tick) hm]
    rfl

/-- A wait that ends in front of the script `p` inserts it in front of the rest. -/
theorem step_wait_inserts {s : State} (hc : s.cfg.legal = true) (hm : s.mode = .run) (hr : s.pins.rst = false)
    (hw : s.w ≤ 1) (haw : s.aw = false) {p rest : Script} (hq : s.q = p ++ rest) :
    step s = .next (insertScript p { s.tick.clearPulses.setTimer 0 with q := rest }) := by
  rw [step_wait_end hc hm haw hw hr, insertScript_rest (s := s.tick.clearPulses.setTimer 0) hm, ← hq]
  rfl

/-- Settles O20: HANDSHAKE and FRAME_TX are their scripts inserted, at the end of a wait and of a lost window. -/
theorem stepRunsInsertedScript : Obligations.StepRunsInsertedScript := by
  intro s rest hc hm hr hw
  refine ⟨fun haw hq => step_wait_inserts hc hm hr hw haw hq, fun a b haw hq => step_wait_inserts hc hm hr hw haw hq,
    fun haw hs hhigh => ?_⟩
  have hseen : s.awSeen = true ↔ s.awSeen = true ∨ (s.ao % ticks s.cfg s.cfg.ackPoll = 0 ∧ s.pins.blIn = false) := by
    simpa [hs] using hhigh
  rw [step_window_end hc hm haw hw hr hseen, if_neg (by simp [hs])]
  rfl

end Sys2Proof.Proofs
end

section
/-! SUPPORT. The statements about every step and every reachable state: the writers of the registers, the player's order,
the nine invariants and the widths of the counters (spec/10_state.md R24 to R29, R41, R42). -/

namespace Sys2Proof.Proofs

open Sys2Proof Sys2Proof.Machine Sys2Proof.Safety Sys2Proof.Laws

/-! ## The step that accepts a request -/

/-- What no request moves in the step that accepts it (R27, R28, R164, R169). -/
def RequestFramed (s t : State) : Prop :=
  t.sckOut = s.sckOut ∧ t.sckOe = s.sckOe ∧ t.mosiOut = s.mosiOut ∧ t.csOut = s.csOut ∧
  t.cspState = s.cspState ∧ t.pc = s.pc ∧ t.ackEn = s.ackEn ∧ t.ackStatus = s.ackStatus ∧ t.cfg = s.cfg ∧
  t.inputs = s.inputs ∧ t.cycle = s.cycle

theorem off_framed (s : State) : RequestFramed s (acceptRequest offScript s) :=
  ⟨rfl, rfl, rfl, rfl, rfl, rfl, rfl, rfl, rfl, rfl, rfl⟩

theorem powerUp_framed (s : State) :
    RequestFramed s (acceptRequest (powerUpScript s.cfg s.lastBrightness s.ackEn) s) :=
  ⟨rfl, rfl, rfl, rfl, rfl, rfl, rfl, rfl, rfl, rfl, rfl⟩

theorem update_framed (b : Bright) (s : State) :
    RequestFramed s (acceptRequest (updateScript s.cfg b s.ackEn) s) :=
  ⟨rfl, rfl, rfl, rfl, rfl, rfl, rfl, rfl, rfl, rfl, rfl⟩

theorem request_framed (i : Pins) (s : State) : RequestFramed s (acceptRequest (requestScript i s) s) := by
  rcases requestScript_cases i s with ⟨-, hq⟩ | ⟨-, hq⟩ | ⟨-, -, -, hq⟩ <;> rw [hq]
  · exact off_framed s
  · exact powerUp_framed s
  · exact update_framed _ s

/-- Settles O32: each request's script reaches its first timed micro-op, or its end, before it moves any of these. -/
theorem requestFrame : Obligations.RequestFrame := by
  intro i p w s t hd ht
  obtain rfl := Except.ok.inj hd
  rcases decodeReq7_cases p w with ⟨k, b, hi⟩ | ⟨b, hi⟩ | ⟨b, -, hi⟩ | ⟨b, -, hi⟩ <;> rw [hi] at ht <;>
    obtain rfl := Host.Outcome.next.inj ht
  · exact off_framed s
  · exact off_framed s
  · exact powerUp_framed s
  · exact update_framed b s

/-! ## What a step writes -/

/-- How the registers that outlive a script move while the script `q` runs: `last_brightness` stays, the chip is only
turned on, and for a request, and the player only goes on (R24, R25, R29). -/
structure Moves (q : Script) (s t : State) : Prop where
  last : t.lastBrightness = s.lastBrightness
  staysOn : s.pwrState = .on → t.pwrState = .on
  turnsOn : s.pwrState = .off → t.pwrState = .on → .set (.pwrState .on) ∈ q ∧ s.fromReq = true
  pc : s.pc ≤ t.pc
  started : t.cspState = .notStarted → s.cspState = .notStarted

/-- `Moves` looks at five registers of the first state and at no other field of it. -/
theorem Moves.congr {q : Script} {s u t : State} (h : Moves q u t) (hlast : u.lastBrightness = s.lastBrightness)
    (hpwr : u.pwrState = s.pwrState) (hreq : u.fromReq = s.fromReq) (hpc : u.pc = s.pc)
    (hcsp : u.cspState = s.cspState) : Moves q s t where
  last := h.last.trans hlast
  staysOn hon := h.staysOn (hpwr.trans hon)
  turnsOn hoff hon := hreq ▸ h.turnsOn (hpwr.trans hoff) hon
  pc := hpc ▸ h.pc
  started hns := hcsp ▸ h.started hns

theorem Moves.still {s t : State} (hlast : t.lastBrightness = s.lastBrightness) (hpwr : t.pwrState = s.pwrState)
    (hpc : t.pc = s.pc) (hcsp : t.cspState = s.cspState) : Moves [] s t where
  last := hlast
  staysOn hon := hpwr.trans hon
  turnsOn hoff hon := absurd (hoff.symm.trans (hpwr.symm.trans hon)) (by decide)
  pc := hpc.ge
  started hns := hcsp.symm.trans hns

theorem advanceOn_moves {q : Script} {s : State} (hq : ScriptOk s.cfg q (view s)) : Moves q s (advanceOn q s) := by
  obtain ⟨last, staysOn, turnsOn, pc, started, -⟩ := advanceOn_writes q s rfl hq
  exact ⟨last, staysOn, turnsOn, pc, started⟩

/-- The end of a timed micro-op moves the registers by what is queued; an inserted handshake adds nothing. -/
theorem endTimed_moves {s : State} (hv : (view s).Consistent s.cfg) (hq : ScriptOk s.cfg s.q (view s))
    (hwin : s.aw = true →
      s.cspState = .done ∧ ScriptOk s.cfg s.q { view s with ev := false, blOut := true, blOe := true }) :
    Moves s.q s (endTimed s) := by
  unfold endTimed
  split
  · next haw =>
    obtain ⟨hdone, hlost⟩ := hwin haw
    split
    · exact (advanceOn_moves (s := recordAckOk s) hq).congr rfl rfl rfl rfl rfl
    · have hok : ScriptOk s.cfg ((hsScript s.cfg).tail ++ s.q) { view s with ev := true } :=
        scriptOk_hs (v := view s) hdone hv hlost
      have hview : view ((recordAckTimeout s).resume.raiseEvent .handshake) = { view s with ev := true } := by
        simp [view]
      have hnot : .set (.pwrState .on) ∉ (hsScript s.cfg).tail := by simp [hsScript]
      have hmoves := advanceOn_moves (s := (recordAckTimeout s).resume.raiseEvent .handshake) (hview ▸ hok)
      rw [takeAckTimeout_eq]
      exact { hmoves with
        turnsOn := fun hoff hon =>
          (hmoves.turnsOn hoff hon).imp_left fun hmem => (List.mem_append.1 hmem).resolve_left hnot }
  · exact advanceOn_moves hq

theorem inv_run {s : State} (h : Inv s) (hm : s.mode = .run) : RunInv s := by
  obtain ⟨-, -, -, -, hmode⟩ := h
  exact (modeInv_run hm).1 hmode

theorem inv_idle {s : State} (h : Inv s) (hm : s.mode = .idle) : IdleInv s := by
  obtain ⟨-, -, -, -, hmode⟩ := h
  exact (modeInv_idle hm).1 hmode

/-- A cycle of RUN moves the registers in the last cycle of a timed micro-op only. -/
theorem runCycle_moves {s : State} (i : Pins) (h : Inv s) (hm : s.mode = .run) :
    (1 < s.w ∧ Moves [] s (runCycle i s)) ∨ (s.w ≤ 1 ∧ Moves s.q s (runCycle i s)) := by
  obtain ⟨-, -, -, -, -, hq, hwin⟩ := inv_run h hm
  obtain ⟨-, hv, -⟩ := h
  rcases Nat.lt_or_ge 1 s.w with hw | hw
  · rw [runCycle_more hw, runSample]
    refine .inl ⟨hw, ?_⟩
    split
    · exact .still rfl rfl rfl rfl
    · exact .still rfl rfl rfl rfl
  · rw [runCycle_last hw, runSample]
    refine .inr ⟨hw, ?_⟩
    split
    · have hend := endTimed_moves (s := (sampleAck i.blIn s.clearPulses).setTimer 0) hv hq fun haw =>
        let ⟨_, _, hdone, _, hlost⟩ := hwin haw
        ⟨hdone, hlost⟩
      exact hend.congr rfl rfl rfl rfl rfl
    · next haw =>
      have hend := endTimed_moves (s := s.clearPulses.setTimer 0) hv hq fun haw' => absurd haw' haw
      exact hend.congr rfl rfl rfl rfl rfl

theorem boot_moves {s : State} {q : Script} (h : Inv s) (hm : s.mode = .boot) (hq : attachScript s.cfg = some q) :
    Moves q (s.beginRun false) (startScript q false s) :=
  advanceOn_moves (s := s.beginRun false) (attach_scriptOk (s := s) h hm hq)

/-- Settles O53: no script writes `last_brightness` while it runs, and UPDATE writes it in the step that accepts it. -/
theorem lastBrightnessWriter : Obligations.LastBrightnessWriter := by
  intro s t h hst hr
  cases step_cases hst hr with
  | boot q hm hq => exact .inl (boot_moves (inv_tick h) hm hq).last
  | run hm => exact .inl ((runCycle_moves s.pins (inv_tick h) hm).elim (·.2.last) (·.2.last))
  | quiet hm => exact .inl rfl
  | request hm hv =>
    rcases requestScript_cases s.pins s with ⟨-, hq⟩ | ⟨-, hq⟩ | ⟨hu, hk, hp, hq⟩ <;> rw [hq]
    · exact .inl rfl
    · exact .inl rfl
    · exact .inr ⟨s.pins.reqBright, hm, hp, ⟨hr, hv, by rw [reqWord, hu, hk]⟩, rfl⟩

theorem ne_off_of_on {p : PwrState} (h : p = .on) : p ≠ .off := by
  rw [h]
  decide

/-- Settles O54: only OFF writes OFF, and only a running script writes ON, where its queue says so. -/
theorem powerStateWriters : Obligations.PowerStateWriters := by
  intro s t h hst hr
  cases step_cases hst hr with
  | boot q hm hq =>
    have hmoves := boot_moves (inv_tick h) hm hq
    exact ⟨fun hon hoff => absurd hoff (ne_off_of_on (hmoves.staysOn hon)),
      fun hoff hon => absurd (hmoves.turnsOn hoff hon).2 Bool.false_ne_true⟩
  | run hm =>
    rcases runCycle_moves s.pins (inv_tick h) hm with ⟨-, hmoves⟩ | ⟨hw, hmoves⟩
    · exact ⟨fun hon hoff => absurd hoff (ne_off_of_on (hmoves.staysOn hon)),
        fun hoff hon => absurd (hmoves.turnsOn hoff hon).1 List.not_mem_nil⟩
    · exact ⟨fun hon hoff => absurd hoff (ne_off_of_on (hmoves.staysOn hon)), fun hoff hon =>
        let ⟨hmem, hreq⟩ := hmoves.turnsOn hoff hon
        ⟨hm, hw, hreq, hmem⟩⟩
  | quiet hm =>
    exact ⟨fun hon hoff => absurd hoff (ne_off_of_on hon), fun hoff hon => absurd hoff (ne_off_of_on hon)⟩
  | request hm hv =>
    rcases requestScript_cases s.pins s with ⟨hoffReq, hq⟩ | ⟨hp, hq⟩ | ⟨-, -, hp, hq⟩ <;> rw [hq]
    · exact ⟨fun _ _ => ⟨hm, hv, hoffReq⟩, fun _ hon => absurd rfl (ne_off_of_on hon)⟩
    · exact ⟨fun hon _ => absurd hp (ne_off_of_on hon), fun _ hon => absurd hp (ne_off_of_on hon)⟩
    · exact ⟨fun hon hoff => absurd hoff (ne_off_of_on hon), fun hoff _ => absurd hoff (ne_off_of_on hp)⟩

/-! ## The player -/

theorem stepped_player {s t : State} (h : Inv s) (hst : Stepped s t) :
    s.pc ≤ t.pc ∧ (t.cspState = .notStarted → s.cspState = .notStarted) := by
  cases hst with
  | boot q hm hq =>
    have hmoves := boot_moves (inv_tick h) hm hq
    exact ⟨hmoves.pc, hmoves.started⟩
  | run hm =>
    rcases runCycle_moves s.pins (inv_tick h) hm with ⟨-, hmoves⟩ | ⟨-, hmoves⟩ <;>
      exact ⟨hmoves.pc, hmoves.started⟩
  | quiet hm => exact ⟨le_refl _, id⟩
  | request hm hv =>
    obtain ⟨-, -, -, -, hcsp, hpc, -⟩ := request_framed s.pins s.tick
    exact ⟨hpc.ge, fun hns => hcsp.symm.trans hns⟩

theorem endTimed_keeps (s : State) : (endTimed s).cfg = s.cfg ∧ (endTimed s).ackEn = s.ackEn := by
  unfold endTimed
  split
  · split
    · simp [advance]
    · simp [takeAckTimeout_eq]
  · simp [advance]

theorem runSample_keeps (i : Pins) (s : State) : (runSample i s).cfg = s.cfg ∧ (runSample i s).ackEn = s.ackEn := by
  unfold runSample
  split
  · exact ⟨rfl, rfl⟩
  · exact ⟨rfl, rfl⟩

theorem runCycle_keeps (i : Pins) (s : State) : (runCycle i s).cfg = s.cfg ∧ (runCycle i s).ackEn = s.ackEn := by
  obtain ⟨hcfg, hack⟩ := runSample_keeps i s
  unfold runCycle
  split
  · exact ⟨hcfg, hack⟩
  · exact (endTimed_keeps _).imp (·.trans hcfg) (·.trans hack)

/-- A step without reset writes neither the configuration nor `ack_en` (R27, R51). -/
theorem stepped_keeps {s t : State} (hst : Stepped s t) : t.cfg = s.cfg ∧ t.ackEn = s.ackEn := by
  cases hst with
  | boot q hm hq => simp [startScript_eq]
  | run hm => exact runCycle_keeps s.pins s.tick
  | quiet hm => exact ⟨rfl, rfl⟩
  | request hm hv => simp [acceptRequest, startScript_eq]

theorem consistent_pc_le {c : Config} {v : View} (h : v.Consistent c) : v.pc ≤ c.cmdTable.length := by
  obtain ⟨-, -, done, -, -, fresh, playing⟩ := h
  cases hcsp : v.csp with
  | notStarted => rw [fresh hcsp]; exact Nat.zero_le _
  | transmitting => exact (playing (.inl hcsp)).le
  | delaying => exact (playing (.inr hcsp)).le
  | done => exact (done hcsp).1.le

/-- A player that has started and whose `pc` has reached N is DONE. -/
theorem consistent_done {c : Config} {v : View} (h : v.Consistent c) (hns : v.csp ≠ .notStarted)
    (hpc : c.cmdTable.length ≤ v.pc) : v.csp = .done := by
  obtain ⟨-, -, -, -, -, -, playing⟩ := h
  cases hcsp : v.csp with
  | notStarted => exact absurd hcsp hns
  | transmitting => exact absurd hpc (playing (.inl hcsp)).not_ge
  | delaying => exact absurd hpc (playing (.inr hcsp)).not_ge
  | done => rfl

theorem inv_consistent {s : State} (h : Inv s) : (view s).Consistent s.cfg := by
  obtain ⟨-, hv, -⟩ := h
  exact hv

/-- Settles O55: `pc` and the player's start only go forward, and with `pc` at N the invariant allows DONE alone. -/
theorem playerNeverGoesBack : Obligations.PlayerNeverGoesBack := by
  intro s t h hst hr
  have hstep := step_cases hst hr
  obtain ⟨hpc, hstart⟩ := stepped_player h hstep
  obtain ⟨hcfg, -⟩ := stepped_keeps hstep
  have hv := inv_consistent h
  have hv' := hcfg ▸ inv_consistent (inv_step h hst)
  refine ⟨hpc, consistent_pc_le hv', fun hdone => ?_, mt hstart⟩
  obtain ⟨-, -, hend, -⟩ := hv
  have hns : t.cspState ≠ .notStarted := fun hns => by simp [hstart hns] at hdone
  exact consistent_done hv' hns ((hend hdone).1.ge.trans hpc)

/-! ## Reachable states -/

/-- Every reachable state meets the invariant (R41). -/
theorem reachable_inv {s : State} (h : Reachable s) : Inv s := by
  induction h with
  | reset c a inputs cycle hc => exact inv_reset c a inputs cycle hc
  | step s t _ hst ih => exact inv_step ih hst

/-- A window runs in RUN only, with the line released and at least one cycle to go. -/
theorem inv_window {s : State} (h : Inv s) (haw : s.aw = true) : s.blOe = false ∧ s.ao < windowTicks s.cfg := by
  obtain ⟨-, -, -, -, hmode⟩ := h
  cases hm : s.mode with
  | boot =>
    obtain ⟨-, -, haw', -⟩ := (modeInv_boot hm).1 hmode
    exact absurd haw (by simp [haw'])
  | idle =>
    obtain ⟨-, -, haw', -⟩ := (modeInv_idle hm).1 hmode
    exact absurd haw (by simp [haw'])
  | run =>
    obtain ⟨hw, -, -, -, -, -, hwin⟩ := (modeInv_run hm).1 hmode
    obtain ⟨-, hoe, -, hsum, -⟩ := hwin haw
    exact ⟨hoe, by omega⟩

theorem inv_timer {s : State} (h : Inv s) : s.w ≤ maxTicks s.cfg := by
  obtain ⟨-, -, -, -, hmode⟩ := h
  cases hm : s.mode with
  | boot =>
    obtain ⟨-, hw, -⟩ := (modeInv_boot hm).1 hmode
    exact hw ▸ Nat.zero_le _
  | idle =>
    obtain ⟨-, hw, -⟩ := (modeInv_idle hm).1 hmode
    exact hw ▸ Nat.zero_le _
  | run =>
    obtain ⟨-, hw, -⟩ := (modeInv_run hm).1 hmode
    exact hw

theorem ackCode_ne_reserved (a : AckStatus) : ackCode a ≠ 0b11#2 := by cases a <;> decide

/-- Settles O50: each point is a part of the invariant, but for the widths, the codes and the one writer of `ack_en`. -/
theorem reachableStates : Obligations.ReachableStates := by
  intro s hs
  have h := reachable_inv hs
  obtain ⟨-, ⟨offRep, onRep, hdone, -⟩, hack, -⟩ := reachable_inv hs
  refine ⟨fun hm => ?_, fun hm => ?_, inv_window h, ⟨by omega, by omega⟩, ackCode_ne_reserved _, hack, ⟨offRep, onRep⟩,
    fun hm => ?_, fun t hst hr => (stepped_keeps (step_cases hst hr)).2⟩
  · obtain ⟨hq, hw, haw, -⟩ := inv_idle h hm
    exact ⟨hq, hw, haw⟩
  · obtain ⟨hw, -⟩ := inv_run h hm
    exact hw
  · obtain ⟨-, -, -, hcsp, -⟩ := inv_idle h hm
    exact ⟨hcsp, (hdone hcsp).1⟩

/-- Settles O56: the bounds are parts of the invariant, and at the default timing they are literals. -/
theorem countersBounded : Obligations.CountersBounded := by
  intro s hs
  have h := reachable_inv hs
  obtain ⟨-, hv, -, hao, -⟩ := reachable_inv hs
  refine ⟨inv_timer h, hao, consistent_pc_le hv, fun hdur hclk => ?_⟩
  have hmax : maxTicks s.cfg < 2 ^ 18 := by
    simp only [maxTicks, ticks, hdur, hclk]
    decide
  have hbudget : s.cfg.ackBudget = 900000 := Option.some.inj (congrArg (·[9]?) hdur)
  have hwin : windowTicks s.cfg < 2 ^ 11 := by
    simp only [windowTicks, ticks, hbudget, hclk]
    decide
  exact ⟨(inv_timer h).trans_lt hmax, hao.trans_lt hwin⟩

end Sys2Proof.Proofs
end

section
/-! SUPPORT. The statements about the command ROM: no instruction writes it, a step runs its entries, and attach plays
them in order (spec/20_memory.md R51, R52, R60; spec/43_command_player.md R160 to R164). -/

namespace Sys2Proof.Proofs

open Sys2Proof Sys2Proof.Machine Sys2Proof.Safety Sys2Proof.Laws

/-! ## The configuration is never written -/

@[simp] theorem startScript_cfg (q : Script) (fromReq : Bool) (s : State) : (startScript q fromReq s).cfg = s.cfg :=
  advanceOn_cfg q (s.beginRun fromReq)

@[simp] theorem insertScript_cfg (q : Script) (s : State) : (insertScript q s).cfg = s.cfg :=
  advanceOn_cfg (q ++ s.q) s.resume

/-- All that an instruction can do: start a script, insert one, or leave the state alone. -/
theorem exec_cases {i : Instr} {s t : State} (h : exec i s = .next t) :
    (∃ q fromReq, t = startScript q fromReq s) ∨ (∃ q, t = insertScript q s) ∨ t = s := by
  have answer {u : State} (hu : exec i s = .next u) : t = u := Host.Outcome.next.inj (h.symm.trans hu)
  cases i with
  | setOffNotUnblanked k b => exact .inl ⟨offScript, true, answer rfl⟩
  | setOffBlanked b => exact .inl ⟨offScript, true, answer rfl⟩
  | setOnPowerUp b => exact .inl ⟨_, true, answer rfl⟩
  | setOnUpdate b => exact .inl ⟨_, true, answer rfl⟩
  | getMaxBrightness => exact .inr (.inr (answer rfl))
  | xmit d => exact .inr (.inl ⟨_, answer rfl⟩)
  | delay => exact .inr (.inl ⟨_, answer rfl⟩)
  | frameTx a b => exact .inr (.inl ⟨_, answer rfl⟩)
  | handshake => exact .inr (.inl ⟨_, answer rfl⟩)
  | attach =>
    cases hq : attachScript s.cfg with
    | some q => exact .inl ⟨q, false, answer (exec_attach hq)⟩
    | none => simp [exec, execAttach, hq] at h

/-- No instruction writes the command ROM or another parameter (R51, R60). -/
theorem exec_cfg {i : Instr} {s t : State} (h : exec i s = .next t) : t.cfg = s.cfg := by
  rcases exec_cases h with ⟨q, fromReq, rfl⟩ | ⟨q, rfl⟩ | rfl
  · exact startScript_cfg q fromReq s
  · exact insertScript_cfg q s
  · rfl

/-- No step writes it either; a reset cycle carries it over (R33, R51). -/
theorem step_cfg {s t : State} (h : step s = .next t) : t.cfg = s.cfg := by
  cases hr : s.pins.rst with
  | true =>
    obtain rfl := Host.Outcome.next.inj ((step_reset (step_legal h) hr).symm.trans h)
    rfl
  | false => exact (stepped_keeps (step_cases h hr)).1

/-- Settles O7, from what a step and what an instruction can do. -/
theorem configurationNeverChanges : Obligations.ConfigurationNeverChanges :=
  ⟨fun _ _ => step_cfg, fun _ _ _ => exec_cfg⟩

/-! ## Table entries -/

/-- An entry with bits 15:9 zero is its low nine bits (R73). -/
theorem eq_setWidth_of_high_zero {e : Cmd16} (h : e.extractLsb' 9 7 = 0#7) : e = (e.extractLsb' 0 9).setWidth 16 := by
  have hle := (extract_zero e).1 h
  apply BitVec.eq_of_toNat_eq
  simp only [BitVec.toNat_setWidth, BitVec.extractLsb'_toNat, Nat.shiftRight_zero]
  omega

/-- An entry that has a script is DELAY or XMIT, and its script sets `pc` to its index and plays it (R74, R161). -/
theorem entryScript_cases {c : Config} {n : Nat} {e : Cmd16} {p : Script} (h : entryScript c n e = some p) :
    (e = delaySentinel ∧ decodeCmd16 e = .ok .delay ∧ p = .set (.pc n) :: delayEntryScript c) ∨
    ∃ d : W9, e = d.setWidth 16 ∧ decodeCmd16 e = .ok (.xmit d) ∧ p = .set (.pc n) :: xmitEntryScript c d := by
  unfold entryScript at h
  by_cases hdelay : e = delaySentinel
  · have hd : decodeCmd16 e = .ok .delay := if_pos hdelay
    rw [hd] at h
    exact .inl ⟨hdelay, hd, (Option.some.inj h).symm⟩
  · by_cases hhigh : e.extractLsb' 9 7 = 0#7
    · have hd : decodeCmd16 e = .ok (.xmit (e.extractLsb' 0 9)) := (if_neg hdelay).trans (if_pos hhigh)
      rw [hd] at h
      exact .inr ⟨_, eq_setWidth_of_high_zero hhigh, hd, (Option.some.inj h).symm⟩
    · have hd : decodeCmd16 e = .error (.malformedEntry e) := (if_neg hdelay).trans (if_neg hhigh)
      simp [hd] at h

theorem entriesScript_cons {c : Config} {k : Nat} {e : Cmd16} {es : Memory} {q : Script}
    (h : entriesScript c k (e :: es) = some q) :
    ∃ p r, entryScript c k e = some p ∧ entriesScript c (k + 1) es = some r ∧ q = p ++ r := by
  unfold entriesScript at h
  split at h
  · next p r hp hr => exact ⟨p, r, hp, hr, (Option.some.inj h).symm⟩
  · cases h

theorem attachScript_eq {c : Config} {es : Script} (h : entriesScript c 0 c.cmdTable = some es) :
    attachScript c = some (es ++ doneScript c ++ hsScript c) := by
  simp [attachScript, h]

/-! ## A step runs a table entry -/

/-- An instruction that inserts the script `p` plays the entry `p` with `pc` at its index. -/
theorem insertScript_entry (p rest : Script) (n : Nat) (u : State) :
    insertScript p { u with pc := n, q := rest } = advanceOn (.set (.pc n) :: p ++ rest) u.resume :=
  advanceOn_q (p ++ rest) rest { u.resume with pc := n }

/-- The decoded entry, run with `pc` at its index and `rest` queued, plays the entry's script and goes on with `rest`. -/
theorem exec_entry {u : State} {n : Nat} {e : Cmd16} {i : Instr} {p : Script} (rest : Script)
    (hp : entryScript u.cfg n e = some p) (hi : decodeCmd16 e = .ok i) :
    exec i { u with pc := n, q := rest } = .next (advanceOn (p ++ rest) u.resume) := by
  rcases entryScript_cases hp with ⟨-, hd, rfl⟩ | ⟨d, -, hd, rfl⟩ <;> obtain rfl := Except.ok.inj (hi.symm.trans hd)
  · exact congrArg _ (insertScript_entry (delayEntryScript u.cfg) rest n u)
  · exact congrArg _ (insertScript_entry (xmitEntryScript u.cfg d) rest n u)

/-- Settles O19: the script that BOOT starts, and the queue that a wait leaves, begin with the entry's script. -/
theorem stepRunsTableEntry : Obligations.StepRunsTableEntry := by
  refine ⟨fun s e es i hc hm hr htable hi => ?_, fun s n e es rest i hc hm hr hw haw hes hq hi => ?_⟩
  · obtain ⟨q, hq⟩ := entriesScript_some (c := s.cfg) s.cfg.cmdTable (legal_rom hc) 0
    obtain ⟨p, rest, hp, hrest, rfl⟩ := entriesScript_cons (htable ▸ hq)
    refine ⟨rest, hrest, ?_⟩
    rw [step_boot hc hm hr, exec_attach (s := s.tick) (attachScript_eq hq), startScript_eq]
    simp only [List.append_assoc]
    exact (exec_entry (u := { s.tick.clearPulses with fromReq := false }) _ hp hi).symm
  · have hrun : (s.tick.clearPulses.setTimer 0).resume = s.tick.clearPulses.setTimer 0 := resume_of_run hm
    rw [step_wait_end hc hm haw hw hr, advance, ← hrun]
    simp only [resume_q, setTimer_q, clearPulses_q, tick_q, hq]
    exact (exec_entry (u := s.tick.clearPulses.setTimer 0) rest hes hi).symm

/-! ## Attach plays the table -/

/-- The script of a table is its entries' scripts in index order (R160, R161). -/
theorem entriesScript_parts {c : Config} {m : Memory} {k : Nat} {q : Script} (h : entriesScript c k m = some q) :
    ∃ parts : List Script, parts.length = m.length ∧ q = parts.flatten ∧
      ∀ i e, m[i]? = some e → ∃ p, entryScript c (k + i) e = some p ∧ parts[i]? = some p := by
  induction m generalizing k q with
  | nil => exact ⟨[], rfl, (Option.some.inj h).symm, by simp⟩
  | cons e es ih =>
    obtain ⟨p, r, hp, hr, rfl⟩ := entriesScript_cons h
    obtain ⟨parts, hlen, rfl, hparts⟩ := ih hr
    refine ⟨p :: parts, by simp [hlen], rfl, fun i e' he' => ?_⟩
    cases i with
    | zero =>
      obtain rfl : e = e' := Option.some.inj he'
      exact ⟨p, hp, rfl⟩
    | succ i =>
      obtain ⟨p', hp', hi⟩ := hparts i e' he'
      exact ⟨p', by rwa [Nat.add_assoc, Nat.add_comm 1 i] at hp', hi⟩

/-- Settles O30: a legal table has a script, which is its entries' scripts in order, and each is DELAY's or XMIT's. -/
theorem attachPlaysTheTable : Obligations.AttachPlaysTheTable := by
  intro c hc
  refine ⟨?_, fun i hi => List.getElem?_eq_none hi⟩
  obtain ⟨q, hq⟩ := entriesScript_some (c := c) c.cmdTable (legal_rom hc) 0
  obtain ⟨parts, hlen, rfl, hparts⟩ := entriesScript_parts hq
  refine ⟨parts, hlen, fun i hi => ?_, attachScript_eq hq⟩
  have he : romRead c.cmdTable i = some c.cmdTable[i] := List.getElem?_eq_getElem hi
  obtain ⟨p, hp, hpart⟩ := hparts i _ he
  refine ⟨_, he, ?_⟩
  rw [Nat.zero_add] at hp
  rcases entryScript_cases hp with ⟨hdelay, -, rfl⟩ | ⟨d, hxmit, -, rfl⟩
  · exact .inl ⟨hdelay, hpart⟩
  · exact .inr ⟨d, hxmit, hpart⟩

end Sys2Proof.Proofs
end

section
/-! SUPPORT. The statements about the receivers: a frame and a word of the 3-wire bus are read back from their waveforms
(spec/20_memory.md R53; spec/30_encoding.md R77, R78; spec/95_test_vectors.md V23). -/

namespace Sys2Proof.Proofs

open Sys2Proof Sys2Proof.Machine Sys2Proof.Safety Sys2Proof.Laws

/-! ## The frame -/

theorem readFrameBits_append (a b : List (Level × Nat)) :
    readFrameBits (a ++ b) = readFrameBits a ++ readFrameBits b := by
  induction a with
  | nil => rfl
  | cons p a ih =>
    obtain ⟨l, n⟩ := p
    simp only [List.cons_append, readFrameBits, ih]
    split
    · rfl
    · split <;> rfl

/-- At the default timing the low of a 1 takes 10 ticks and that of a 0 takes 30 (R77). -/
theorem readFrameBits_bitSegments (b : Bool) : readFrameBits (bitSegments Config.default b) = [b] := by
  cases b <;> decide

theorem readFrameBits_bits (g : Nat → Bool) (js : List Nat) :
    readFrameBits (js.flatMap (fun j => bitSegments Config.default (g j))) = js.map g := by
  induction js with
  | nil => rfl
  | cons j js ih => simp only [List.flatMap_cons, List.map_cons, readFrameBits_append, readFrameBits_bitSegments, ih,
      List.singleton_append]

/-- The start condition, the gap and the end of sequence carry no bit (R112, R115, R116). -/
theorem readFrameBits_frameSegments (f : Frame16) : readFrameBits (frameSegments Config.default f) = msbFirst f := by
  unfold frameSegments
  simp only [readFrameBits_append, readFrameBits_bits]
  rfl

/-- The frame's script shows the segments of R125's table, then the window if there is one (R117). -/
theorem blSegments_frameScript (c : Config) (f : Frame16) (a : Bool) (l : Lines) :
    blSegments (waveform c (frameScript c f a) l) =
      frameSegments c f ++ if a then [(.z, windowTicks c)] else [] := by
  rw [frameScript_eq, waveform_append, blSegments_append, blSegments_frameBody]
  cases a <;> rfl

/-- Settles O46: the bits are read from R125's segments, and a window is no low. -/
theorem frameReadBack : Obligations.FrameReadBack := by
  intro f a l
  rw [blSegments_frameScript, readFrameBits_append, readFrameBits_frameSegments]
  cases a <;> simp [readFrameBits]

/-! ## The word -/

/-- The lines while a bit stands on the 3-wire bus, with the clock at `sck` (R162). -/
def bitLines (l : Lines) (bit sck : Bool) : Lines :=
  { l with mosi := bit, sckOut := sck, sckOe := true }

theorem waveform_bitScript (c : Config) (bit : Bool) (l : Lines) :
    waveform c (bitScript c bit) l =
      [(bitLines l bit false, ticks c c.cspHalf), (bitLines l bit true, ticks c c.cspHalf)] := rfl

theorem finalLines_bitScript (c : Config) (bit : Bool) (l : Lines) :
    finalLines (bitScript c bit) l = bitLines l bit true := rfl

/-- The bits of a word, most significant first, between the two moves of chip-select (R162). -/
def wordBitsScript (c : Config) (d : W9) : Script :=
  [8, 7, 6, 5, 4, 3, 2, 1, 0].flatMap (fun j => bitScript c (d.getLsbD j))

theorem xmitScript_eq (c : Config) (d : W9) :
    xmitScript c d =
      .drv .cs false :: (wordBitsScript c d ++ [.drv .mosi false, .drv .cs true, .wait c.cspGap]) := rfl

/-- The last bit leaves the clock high. -/
theorem wordBitsScript_clock_high (c : Config) (d : W9) (l : Lines) :
    (finalLines (wordBitsScript c d) l).sckOut = true := rfl

/-- A word shows its bits with chip-select low, and then the gap with the data line low and chip-select high (R162). -/
theorem waveform_xmitScript (c : Config) (d : W9) (l : Lines) :
    ∃ gap : Lines, gap.mosi = false ∧ gap.sckOut = true ∧ gap.cs = true ∧
      waveform c (xmitScript c d) l =
        waveform c (wordBitsScript c d) { l with cs := false } ++ [(gap, ticks c c.cspGap)] := by
  have hclock := wordBitsScript_clock_high c d { l with cs := false }
  rw [xmitScript_eq, waveform, Lines.after, waveform_append]
  generalize finalLines (wordBitsScript c d) { l with cs := false } = last at hclock ⊢
  exact ⟨{ last with mosi := false, cs := true }, rfl, hclock, rfl, rfl⟩

/-- What a segment shows on the data, clock and chip-select lines, and for how long. -/
def busView (p : Lines × Nat) : Bool × Bool × Bool × Nat :=
  (p.1.mosi, p.1.sckOut, p.1.cs, p.2)

theorem busView_bits (c : Config) (g : Nat → Bool) (js : List Nat) {l : Lines} (hcs : l.cs = false) :
    (waveform c (js.flatMap (fun j => bitScript c (g j))) l).map busView =
      (js.map g).flatMap (fun b => [(b, false, false, ticks c c.cspHalf), (b, true, false, ticks c c.cspHalf)]) := by
  induction js generalizing l with
  | nil => rfl
  | cons j js ih =>
    have hbit : (bitLines l (g j) true).cs = false := hcs
    rw [List.flatMap_cons, waveform_append, List.map_append, waveform_bitScript, finalLines_bitScript, ih hbit]
    simp [busView, bitLines, hcs]

/-- A bit under chip-select has one rising clock edge, at which the data line holds it. -/
theorem readWordBits_bitScript (c : Config) (bit was : Bool) {l : Lines} (hcs : l.cs = false)
    (r : List (Lines × Nat)) :
    readWordBits was (waveform c (bitScript c bit) l ++ r) = bit :: readWordBits true r := by
  rw [waveform_bitScript]
  simp [readWordBits, bitLines, hcs]

theorem readWordBits_bits (c : Config) (g : Nat → Bool) (js : List Nat) (was : Bool) {l : Lines} (hcs : l.cs = false)
    {r : List (Lines × Nat)} (hr : ∀ w, readWordBits w r = []) :
    readWordBits was (waveform c (js.flatMap (fun j => bitScript c (g j))) l ++ r) = js.map g := by
  induction js generalizing l was with
  | nil => exact hr was
  | cons j js ih =>
    have hbit : (bitLines l (g j) true).cs = false := hcs
    rw [List.flatMap_cons, waveform_append, List.append_assoc, readWordBits_bitScript c (g j) was hcs,
      finalLines_bitScript, ih true hbit, List.map_cons]

/-- Settles O47: each bit shows its two half-periods and is read at the edge between them; the gap is not read. -/
theorem wordReadBack : Obligations.WordReadBack := by
  intro c d l was
  obtain ⟨gap, hmosi, hsck, hcs, hwave⟩ := waveform_xmitScript c d l
  have hgap : ∀ w, readWordBits w [(gap, ticks c c.cspGap)] = [] := by simp [readWordBits, hcs]
  refine ⟨?_, ?_, ?_⟩
  · have hbits := busView_bits c d.getLsbD [8, 7, 6, 5, 4, 3, 2, 1, 0] (l := { l with cs := false }) rfl
    rw [hwave, List.map_append]
    exact congrArg₂ (· ++ ·) hbits (by simp [hmosi, hsck, hcs])
  · rw [hwave]
    exact readWordBits_bits c d.getLsbD [8, 7, 6, 5, 4, 3, 2, 1, 0] was rfl hgap
  · rfl

end Sys2Proof.Proofs
end

section
/-! SUPPORT. The statements about the encodings: decoding and encoding undo each other in every format, and what each
table entry is (spec/30_encoding.md R70 to R80); and a bit symbol on the reset/data line (spec/41_frame_encoder.md
R113). -/

namespace Sys2Proof.Proofs

open Sys2Proof Sys2Proof.Machine Sys2Proof.Safety Sys2Proof.Laws

/-! ## The request word and its fields -/

/-- A one-bit field, as a bit and as a word of width one. -/
theorem ofBool_getLsbD {n : Nat} (w : BitVec n) (j : Nat) : BitVec.ofBool (w.getLsbD j) = w.extractLsb' j 1 := by
  ext k hk
  obtain rfl : k = 0 := Nat.lt_one_iff.1 hk
  simp

/-- Every request word is what the request inputs that offer it make (R71). -/
theorem reqWord_requestPins (w : Req7) : reqWord (requestPins w) = w := by
  simp only [reqWord, requestPins]
  rw [ofBool_getLsbD, ofBool_getLsbD,
    BitVec.extractLsb'_append_extractLsb'_eq_extractLsb' (start₁ := 5) (len₁ := 1) rfl]
  exact BitVec.extractLsb'_append_extractLsb' (w := 2) (len := 5)

/-- The request inputs that carry the three fields of a request word (R71). -/
def fieldPins (u k : Bool) (b : Bright) : Pins :=
  { quietPins with reqUnblank := u, reqBlank := k, reqBright := b }

/-- The row of R72 that the fields of a request word select. -/
def requestInstr (p : PwrState) : Bool → Bool → Bright → Instr
  | false, k, b => .setOffNotUnblanked k b
  | true, true, b => .setOffBlanked b
  | true, false, b => if p = .off then .setOnPowerUp b else .setOnUpdate b

theorem decodeReq7_reqWord (p : PwrState) (i : Pins) :
    decodeReq7 p (reqWord i) = requestInstr p i.reqUnblank i.reqBlank i.reqBright := by
  simp only [decodeReq7, reqWord_getLsbD_six, reqWord_getLsbD_five, reqWord_bright]
  cases i.reqUnblank <;> cases i.reqBlank <;> cases p <;> rfl

/-- The encoder puts the fields back where they were, in each row of R72. -/
theorem encode_requestInstr (p : PwrState) (u k : Bool) (b : Bright) :
    encode (requestInstr p u k b) = some (.req7 (BitVec.ofBool u ++ BitVec.ofBool k ++ b)) := by
  cases u <;> cases k <;> cases p <;> rfl

theorem encode_decodeReq7 (p : PwrState) (w : Req7) : encode (decodeReq7 p w) = some (.req7 w) := by
  calc encode (decodeReq7 p w)
      = encode (decodeReq7 p (reqWord (requestPins w))) := by rw [reqWord_requestPins]
    _ = some (.req7 (reqWord (requestPins w))) := by rw [decodeReq7_reqWord, encode_requestInstr, reqWord]
    _ = some (.req7 w) := by rw [reqWord_requestPins]

/-! ## Table entries by value -/

/-- R74 gives every value a row. -/
theorem entry_range (e : Cmd16) : e.toNat ≤ 0x1FF ∨ (0x200 ≤ e.toNat ∧ e.toNat ≤ 0xFFFE) ∨ e = delaySentinel := by
  have hlt : e.toNat < 0x10000 := e.isLt
  by_cases h : e.toNat = 0xFFFF
  · exact .inr (.inr (BitVec.eq_of_toNat_eq h))
  · omega

theorem ne_delaySentinel {e : Cmd16} (h : e.toNat ≤ 0xFFFE) : e ≠ delaySentinel := by
  rintro rfl
  exact absurd h (by decide)

theorem decodeCmd16_xmit {e : Cmd16} (h : e.toNat ≤ 0x1FF) : decodeCmd16 e = .ok (.xmit (e.setWidth 9)) := by
  rw [decodeCmd16, if_neg (ne_delaySentinel (h.trans (by decide))), if_pos ((extract_zero e).2 h),
    BitVec.setWidth_eq_extractLsb' (by decide)]

theorem decodeCmd16_malformed {e : Cmd16} (hlo : 0x200 ≤ e.toNat) (hhi : e.toNat ≤ 0xFFFE) :
    decodeCmd16 e = .error (.malformedEntry e) := by
  have hhigh : ¬ e.extractLsb' 9 7 = 0#7 := fun h => absurd ((extract_zero e).1 h) (by omega)
  rw [decodeCmd16, if_neg (ne_delaySentinel hhi), if_neg hhigh]

/-- The encoding of XMIT lies in XMIT's row of R74. -/
theorem xmitWord_toNat_le (d : W9) : (0#7 ++ d).toNat ≤ 0x1FF :=
  (extract_zero (0#7 ++ d)).1 BitVec.extractLsb'_append_eq_left

theorem decodeCmd16_xmitWord (d : W9) : decodeCmd16 (0#7 ++ d) = .ok (.xmit d) := by
  rw [decodeCmd16_xmit (xmitWord_toNat_le d), BitVec.setWidth_append_eq_right]

/-- An entry of the XMIT row is its low nine bits in the encoding of XMIT (R73). -/
theorem encode_xmit_setWidth {e : Cmd16} (h : e.toNat ≤ 0x1FF) : encode (.xmit (e.setWidth 9)) = some (.cmd16 e) := by
  have hsplit : e.extractLsb' 9 7 ++ e.extractLsb' 0 9 = e := BitVec.extractLsb'_append_extractLsb' (w := 7) (len := 9)
  rw [(extract_zero e).2 h, ← BitVec.setWidth_eq_extractLsb' (by decide)] at hsplit
  rw [encode, hsplit]

/-- A configuration whose table holds a malformed entry is illegal (R9). -/
theorem legal_false_of_malformed {c : Config} {e : Cmd16} (he : e ∈ c.cmdTable) (hlo : 0x200 ≤ e.toNat)
    (hhi : e.toNat ≤ 0xFFFE) : c.legal = false := by
  rw [← Bool.not_eq_true]
  intro hc
  rcases (romWf_iff _).1 (legal_rom hc) e he with h | h <;> omega

/-! ## The frame and its fields -/

/-- A frame word is its four fields in order (R75). -/
theorem frame_fields (f : Frame16) :
    f.extractLsb' 8 8 ++ BitVec.ofBool (f.getLsbD 7) ++ f.extractLsb' 5 2 ++ f.extractLsb' 0 5 = f := by
  rw [ofBool_getLsbD, BitVec.extractLsb'_append_extractLsb'_eq_extractLsb' (start₁ := 7) (len₁ := 1) rfl,
    BitVec.extractLsb'_append_extractLsb'_eq_extractLsb' (start₁ := 5) (len₁ := 2) rfl]
  exact BitVec.extractLsb'_append_extractLsb' (w := 11) (len := 5)

/-- The OR of R110 has no bit twice, so it is the fields of R75 side by side. -/
theorem frameWord_eq_fields (b : Bright) (a : Bool) :
    frameWord b a = 0x58#8 ++ BitVec.ofBool a ++ 0#2 ++ b := by
  have hfixed : frameBase ||| (if a then frameAckBit else 0#16) = (0x58#8 ++ BitVec.ofBool a ++ 0#2) ++ 0#5 := by
    cases a <;> rfl
  have hbright : b.setWidth 16 &&& brightMask = 0#11 ++ b :=
    (BitVec.and_setWidth_allOnes 11 5 (b.setWidth 16)).trans (by simp)
  rw [frameWord, hfixed, hbright]
  exact BitVec.or_append.trans (by simp)

theorem frameWord_high (b : Bright) (a : Bool) : (frameWord b a).extractLsb' 8 8 = 0x58#8 := by
  rw [frameWord_eq_fields, BitVec.extractLsb'_append_eq_of_le (by decide),
    BitVec.extractLsb'_append_eq_of_le (by decide)]
  exact BitVec.extractLsb'_append_eq_left

theorem frameWord_ack (b : Bright) (a : Bool) : (frameWord b a).getLsbD 7 = a := by
  rw [← BitVec.ofBool_eq_iff_eq, ofBool_getLsbD, frameWord_eq_fields,
    BitVec.extractLsb'_append_eq_of_le (by decide), BitVec.extractLsb'_append_eq_of_le (by decide)]
  exact BitVec.extractLsb'_append_eq_right

theorem frameWord_zeros (b : Bright) (a : Bool) : (frameWord b a).extractLsb' 5 2 = 0#2 := by
  rw [frameWord_eq_fields, BitVec.extractLsb'_append_eq_of_le (le_refl 5)]
  exact BitVec.extractLsb'_append_eq_right

theorem frameWord_bright (b : Bright) (a : Bool) : (frameWord b a).extractLsb' 0 5 = b := by
  rw [frameWord_eq_fields, BitVec.extractLsb'_append_eq_right]

theorem encode_frameTx (a : Bool) (b : Bright) : encode (.frameTx a b) = some (.frame16 (frameWord b a)) := by
  rw [frameWord_eq_fields, encode]

theorem decodeFrame16_frameWord (a : Bool) (b : Bright) : decodeFrame16 (frameWord b a) = .ok (.frameTx a b) := by
  rw [decodeFrame16, if_pos ⟨frameWord_high b a, frameWord_zeros b a⟩, frameWord_ack, frameWord_bright]

/-! ## Decoding undoes encoding -/

/-- Settles O2: in each format the decoder finds the fields that the encoder laid out, and the power state tells the two
SET_ON rows apart. -/
theorem decodeOfEncode : Obligations.DecodeOfEncode := by
  intro i p c hc hp
  have request (u k : Bool) (b : Bright) :
      decode p (.req7 (BitVec.ofBool u ++ BitVec.ofBool k ++ b)) = .ok (requestInstr p u k b) :=
    congrArg _ (decodeReq7_reqWord p (fieldPins u k b))
  cases i with
  | setOffNotUnblanked k b => exact Option.some.inj hc ▸ request false k b
  | setOffBlanked b => exact Option.some.inj hc ▸ request true true b
  | setOnPowerUp b =>
    obtain rfl : p = .off := eq_of_beq hp
    exact Option.some.inj hc ▸ request true false b
  | setOnUpdate b =>
    obtain rfl : p = .on := eq_of_beq hp
    exact Option.some.inj hc ▸ request true false b
  | getMaxBrightness => exact Option.some.inj hc ▸ rfl
  | xmit d => exact Option.some.inj hc ▸ decodeCmd16_xmitWord d
  | delay => exact Option.some.inj hc ▸ rfl
  | frameTx a b => exact Option.some.inj ((encode_frameTx a b).symm.trans hc) ▸ decodeFrame16_frameWord a b
  | handshake => cases hc
  | attach => cases hc

/-! ## Encoding undoes decoding -/

/-- What is decoded is selected by the power state, for every instruction at once (R72, R80). -/
theorem decode_selects {i : Instr} {p : PwrState} {c : Code} (h : decode p c = .ok i) : i.selectedBy p = true := by
  cases i with
  | setOnPowerUp b => exact DecodeSelects.setOnPowerUp b p c h
  | setOnUpdate b => exact DecodeSelects.setOnUpdate b p c h
  | _ => rfl

theorem encode_of_decode_port5 {i : Instr} {w : Bright} (h : decodePort5 w = .ok i) : encode i = some (.port5 w) := by
  unfold decodePort5 at h
  split at h
  · next hw =>
    obtain rfl := Except.ok.inj h
    rw [hw, encode]
  · cases h

theorem encode_of_decode_cmd16 {i : Instr} {e : Cmd16} (h : decodeCmd16 e = .ok i) : encode i = some (.cmd16 e) := by
  rcases entry_range e with hxmit | ⟨hlo, hhi⟩ | rfl
  · obtain rfl := Except.ok.inj ((decodeCmd16_xmit hxmit).symm.trans h)
    exact encode_xmit_setWidth hxmit
  · cases (decodeCmd16_malformed hlo hhi).symm.trans h
  · obtain rfl := Except.ok.inj h
    rfl

theorem encode_of_decode_frame16 {i : Instr} {f : Frame16} (h : decodeFrame16 f = .ok i) :
    encode i = some (.frame16 f) := by
  unfold decodeFrame16 at h
  split at h
  · next hf =>
    obtain rfl := Except.ok.inj h
    obtain ⟨hhigh, hzeros⟩ := hf
    have hfields := frame_fields f
    rw [hhigh, hzeros] at hfields
    rw [encode, hfields]
  · cases h

/-- Settles O3, format by format. -/
theorem encodeOfDecode : Obligations.EncodeOfDecode := by
  intro i p c h
  refine ⟨?_, decode_selects h⟩
  cases c with
  | req7 w =>
    obtain rfl := Except.ok.inj h
    exact encode_decodeReq7 p w
  | port5 w => exact encode_of_decode_port5 h
  | cmd16 e => exact encode_of_decode_cmd16 h
  | frame16 f => exact encode_of_decode_frame16 h

/-! ## Entries, fixed words, the frame's shape and the bit symbol -/

/-- Settles O4: the three ranges of R74, and a malformed entry makes the configuration illegal. -/
theorem entryDecoding : Obligations.EntryDecoding := by
  refine ⟨fun e he => ?_, fun e he => decodeCmd16_xmit he, fun e hlo hhi =>
    ⟨decodeCmd16_malformed hlo hhi, fun s he => step_refused_of_illegal (legal_false_of_malformed he hlo hhi)⟩⟩
  obtain rfl : e = delaySentinel := BitVec.eq_of_toNat_eq he
  rfl

/-- Settles O1: the decoder evaluated on the twelve fixed words. -/
theorem specWordsDecode : Obligations.SpecWordsDecode := by
  unfold Obligations.SpecWordsDecode
  decide

/-- Settles O9, field by field. -/
theorem frameShape : Obligations.FrameShape :=
  fun b a => ⟨encode_frameTx a b, frameWord_high b a, frameWord_ack b a, frameWord_zeros b a, frameWord_bright b a⟩

/-- Settles O45, from the symbol's segments and its length. -/
theorem symbolWaveform : Obligations.SymbolWaveform :=
  fun c l bit => ⟨blSegments_symScript c bit l, symScript_ticks c bit⟩

end Sys2Proof.Proofs
end

section
/-! SUPPORT. The statements about the handshake: how it starts, the lengths of the scripts, and the reset/data line of a
handshake and of the two operations (spec/40_handshake.md R100, R103; spec/41_frame_encoder.md R117 to R125;
spec/42_power_arbiter.md R143, R144, R149; spec/43_command_player.md R168). -/

namespace Sys2Proof.Proofs

open Sys2Proof Sys2Proof.Machine Sys2Proof.Safety Sys2Proof.Laws

/-! ## The lengths of the scripts -/

/-- The handshake is its event, which takes no cycle, and then its body. -/
theorem hsScript_eq (c : Config) : hsScript c = .ev .handshake :: hsBody c := rfl

theorem hsScript_ticks (c : Config) : scriptTicks c (hsScript c) = handshakeTicks c :=
  hsBody_ticks c

theorem frameScript_ticks (c : Config) (f : Frame16) (a : Bool) :
    scriptTicks c (frameScript c f a) = frameTicks c + if a then windowTicks c else 0 := by
  rw [frameScript_eq, scriptTicks_append, frameBody_ticks]
  cases a <;> rfl

theorem bitScript_ticks (c : Config) (bit : Bool) :
    scriptTicks c (bitScript c bit) = ticks c c.cspHalf + ticks c c.cspHalf := rfl

/-- A bit takes two half-periods, and a word nine bits and the gap (R162, R168). -/
theorem xmitScript_ticks (c : Config) (d : W9) :
    scriptTicks c (xmitScript c d) = 18 * ticks c c.cspHalf + ticks c c.cspGap := by
  have hbits : scriptTicks c (wordBitsScript c d) = 9 * (ticks c c.cspHalf + ticks c c.cspHalf) :=
    flatMap_ticks c _ _ (fun j => bitScript_ticks c (d.getLsbD j)) _
  rw [xmitScript_eq, scriptTicks, scriptTicks_append, hbits]
  simp only [scriptTicks]
  omega

theorem setWidth_ne_delaySentinel (d : W9) : d.setWidth 16 ≠ delaySentinel := by
  apply ne_delaySentinel
  rw [BitVec.toNat_setWidth]
  omega

theorem entryScript_ticks {c : Config} {n : Nat} {e : Cmd16} {q : Script} (h : entryScript c n e = some q) :
    scriptTicks c q = entryTicks c e := by
  rcases entryScript_cases h with ⟨rfl, -, rfl⟩ | ⟨d, rfl, -, rfl⟩
  · rfl
  · exact (xmitScript_ticks c d).trans (if_neg (setWidth_ne_delaySentinel d)).symm

theorem entriesScript_ticks {c : Config} {m : Memory} {k : Nat} {q : Script} (h : entriesScript c k m = some q) :
    scriptTicks c q = tableTicks c m := by
  induction m generalizing k q with
  | nil =>
    obtain rfl : [] = q := Option.some.inj h
    rfl
  | cons e es ih =>
    obtain ⟨p, r, hp, hr, rfl⟩ := entriesScript_cons h
    rw [scriptTicks_append, entryScript_ticks hp, ih hr, tableTicks]

/-- The end of the player takes no cycle (R164). -/
theorem doneScript_ticks (c : Config) : scriptTicks c (doneScript c) = 0 := rfl

theorem attachScript_ticks {c : Config} {q : Script} (h : attachScript c = some q) :
    scriptTicks c q = tableTicks c c.cmdTable + handshakeTicks c := by
  unfold attachScript at h
  split at h
  · next es hes =>
    obtain rfl := Option.some.inj h
    rw [scriptTicks_append, scriptTicks_append, entriesScript_ticks hes, doneScript_ticks, hsScript_ticks, Nat.add_zero]
  · cases h

/-- Settles O37, script by script. -/
theorem scriptDurations : Obligations.ScriptDurations :=
  fun c => ⟨hsScript_ticks c, frameScript_ticks c, fun _ _ _ => entryScript_ticks, fun _ => attachScript_ticks⟩

/-- Settles O38: the formulas evaluated at the default timing. -/
theorem defaultDurations : Obligations.DefaultDurations := by
  unfold Obligations.DefaultDurations
  decide

/-! ## The handshake -/

/-- Settles O28: `advance` runs the event and the first drive, and stops at the hard-reset wait. -/
theorem handshakeStarts : Obligations.HandshakeStarts :=
  fun _ => rfl

/-- The handshake on the reset/data line: low, high, low (R100, R103). -/
def handshakeSegments (c : Config) : List (Level × Nat) :=
  [(.low, ticks c c.hsResetLow), (.high, ticks c c.hsHigh), (.low, ticks c c.hsDetect)]

theorem blSegments_hsScript (c : Config) (l : Lines) :
    blSegments (waveform c (hsScript c) l) = handshakeSegments c := rfl

/-- Settles O44, from the handshake's segments; its last micro-op drives the line high. -/
theorem handshakeWaveform : Obligations.HandshakeWaveform :=
  fun c l => ⟨blSegments_hsScript c l, rfl⟩

/-! ## The two operations -/

/-- What follows a frame on the reset/data line when its window would begin in the `m`-th cycle from now: nothing
without acknowledgements, else the released line and, where no low is sampled, a handshake (R117, R119, R120). -/
def ackSegments (s : State) (a : Bool) (m : Nat) : List (Level × Nat) :=
  if a then (.z, windowTicks s.cfg) :: if AckSeen s m then [] else handshakeSegments s.cfg else []

theorem blSegments_ackScript (s : State) (m : Nat) (a : Bool) (l : Lines) :
    blSegments (waveform s.cfg (playedScript s m (ackScript a ++ [.drv .bl true])) l) = ackSegments s a m := by
  cases a with
  | false => rfl
  | true =>
    show blSegments (waveform s.cfg (playedScript s m [.rel .bl, .ackwin, .drv .bl true]) l) = _
    simp only [playedScript, ackSegments, if_true]
    split
    · rfl
    · rfl

/-- A frame as it is played shows the segments of R125's table and then those of its acknowledgement. -/
theorem blSegments_playedFrame (s : State) (n : Nat) (f : Frame16) (a : Bool) (l : Lines) :
    blSegments (waveform s.cfg (playedScript s n (frameScript s.cfg f a)) l) =
      frameSegments s.cfg f ++ ackSegments s a (n + frameTicks s.cfg) := by
  have hwin : .ackwin ∉ frameBody s.cfg f := fun h => ((frameBody_lineOnly s.cfg f).windowless _ h).1 rfl
  rw [frameScript_eq, playedScript_append s n _ _ hwin, frameBody_ticks, waveform_append, blSegments_append,
    blSegments_frameBody, blSegments_ackScript]

/-- The status writes in front of the frame of an UPDATE are not seen on the line (R144). -/
theorem blSegments_playedUpdate (s : State) (n : Nat) (b : Bright) (a : Bool) (l : Lines) :
    blSegments (waveform s.cfg (playedScript s n (updateScript s.cfg b a)) l) =
      frameSegments s.cfg (frameWord b a) ++ ackSegments s a (n + frameTicks s.cfg) :=
  blSegments_playedFrame s n (frameWord b a) a l

/-- A POWER_UP shows its handshake and then its frame; the status writes between are not seen on the line (R143). -/
theorem blSegments_playedPowerUp (s : State) (n : Nat) (b : Bright) (a : Bool) (l : Lines) :
    blSegments (waveform s.cfg (playedScript s n (powerUpScript s.cfg b a)) l) =
      handshakeSegments s.cfg ++ frameSegments s.cfg (frameWord b a) ++
        ackSegments s a (n + handshakeTicks s.cfg + frameTicks s.cfg) := by
  have hwin : .ackwin ∉ hsScript s.cfg := by simp [hsScript]
  rw [powerUpScript, List.append_assoc, playedScript_append s n _ _ hwin, hsScript_ticks, waveform_append,
    blSegments_append, blSegments_hsScript, List.append_assoc]
  exact congrArg (handshakeSegments s.cfg ++ ·) (blSegments_playedFrame s (n + handshakeTicks s.cfg) _ a _)

/-- Settles O43, from the two operations as they are played with the state's `ack_en`. -/
theorem operationWaveforms : Obligations.OperationWaveforms :=
  fun s n b l => ⟨blSegments_playedUpdate s n b s.ackEn l, blSegments_playedPowerUp s n s.lastBrightness s.ackEn l⟩

end Sys2Proof.Proofs
end

section
/-! SUPPORT. The statements about the frame: its value, how its script starts, and the reset/data line of a frame with
and without its window (spec/41_frame_encoder.md R110 to R125; spec/95_test_vectors.md S3, V21, V22). -/

namespace Sys2Proof.Proofs

open Sys2Proof Sys2Proof.Machine Sys2Proof.Safety Sys2Proof.Laws

/-! ## The frame value -/

/-- The mask keeps all bits of a 5-bit operand (R76). -/
theorem setWidth_and_brightMask (b : Bright) : b.setWidth 16 &&& brightMask = b.setWidth 16 := by
  have hlt : (b.setWidth 16).toNat < 2 ^ 5 := by
    rw [BitVec.toNat_setWidth]
    omega
  apply BitVec.eq_of_toNat_eq
  rw [BitVec.toNat_and]
  exact (Nat.and_two_pow_sub_one_eq_mod _ 5).trans (Nat.mod_eq_of_lt hlt)

/-- The brightness is the low five bits, so the fields above it count as they stand (R75, R110). -/
theorem frameWord_toNat (b : Bright) (a : Bool) :
    (frameWord b a).toNat = 0x5800 + (if a then 128 else 0) + b.toNat := by
  rw [frameWord_eq_fields, BitVec.toNat_append, ← Nat.shiftLeft_add_eq_or_of_lt b.isLt]
  cases a <;> rfl

/-- Settles O8: the formula is the definition of `frameWord`; its value in numbers follows from the fields of R75. -/
theorem frameValue : Obligations.FrameValue :=
  ⟨fun b a => ⟨rfl, setWidth_and_brightMask b, frameWord_toNat b a⟩, by decide⟩

/-! ## How a frame starts -/

/-- Settles O27: `advance` runs the first drive and stops at the start condition's wait. -/
theorem frameStarts : Obligations.FrameStarts :=
  fun _ _ _ => rfl

/-- An UPDATE starts with the frame of its `b`: the rest of it is queued, its start condition is timed, and the line is
driven high (R112, R144). -/
theorem exec_setOnUpdate_frame {b : Bright} {s t : State} (h : exec (.setOnUpdate b) s = .next t) :
    t.q = (frameScript s.cfg (frameWord b s.ackEn) s.ackEn).drop 2 ∧ t.w = ticks s.cfg s.cfg.feStart ∧
    t.blOut = true ∧ t.blOe = true := by
  obtain rfl := Host.Outcome.next.inj h
  exact ⟨rfl, rfl, rfl, rfl⟩

/-- Settles O31: what an UPDATE starts depends on `b`, the configuration and `ack_en` alone. -/
theorem updatesAreIdempotent : Obligations.UpdatesAreIdempotent := by
  intro b s s' t t' hcfg hack ht ht'
  obtain ⟨hq, hw, hout, hoe⟩ := exec_setOnUpdate_frame ht
  obtain ⟨hq', hw', hout', hoe'⟩ := exec_setOnUpdate_frame ht'
  rw [hcfg, hack] at hq
  rw [hcfg] at hw
  exact ⟨hq.trans hq'.symm, hw.trans hw'.symm, hout.trans hout'.symm, hoe.trans hoe'.symm⟩

/-! ## The lines that a frame does not move -/

/-- The levels of the 3-wire bus. -/
def busLines (l : Lines) : Bool × Bool × Bool × Bool :=
  (l.sckOut, l.sckOe, l.mosi, l.cs)

/-- No micro-op of the script moves the 3-wire bus. -/
def KeepsBus (q : Script) : Prop :=
  ∀ op ∈ q, ∀ l : Lines, busLines (l.after op) = busLines l

theorem KeepsBus.append {p q : Script} (hp : KeepsBus p) (hq : KeepsBus q) : KeepsBus (p ++ q) :=
  List.forall_mem_append.2 ⟨hp, hq⟩

theorem keepsBus_flatMap {α : Type} {g : α → Script} (h : ∀ x, KeepsBus (g x)) (xs : List α) :
    KeepsBus (xs.flatMap g) := by
  intro op hop
  obtain ⟨x, -, hx⟩ := List.mem_flatMap.1 hop
  exact h x op hx

theorem keepsBus_symScript (c : Config) (bit : Bool) : KeepsBus (symScript c bit) := by
  cases bit <;> simp [KeepsBus, symScript, Lines.after, busLines]

theorem keepsBus_frameBody (c : Config) (f : Frame16) : KeepsBus (frameBody c f) := by
  have hbits : ∀ js : List Nat, KeepsBus (js.flatMap fun j => symScript c (f.getLsbD j)) :=
    keepsBus_flatMap fun j => keepsBus_symScript c (f.getLsbD j)
  refine ((((KeepsBus.append ?_ (hbits _)).append ?_).append (hbits _)).append ?_) <;>
    simp [KeepsBus, Lines.after, busLines]

theorem keepsBus_frameScript (c : Config) (f : Frame16) (a : Bool) : KeepsBus (frameScript c f a) := by
  rw [frameScript_eq]
  refine (keepsBus_frameBody c f).append ?_
  cases a <;> simp [KeepsBus, ackScript, Lines.after, busLines]

theorem busLines_finalLines {q : Script} (h : KeepsBus q) (l : Lines) : busLines (finalLines q l) = busLines l := by
  induction q generalizing l with
  | nil => rfl
  | cons op q ih =>
    obtain ⟨hop, hq⟩ := List.forall_mem_cons.1 h
    exact (ih hq (l.after op)).trans (hop l)

theorem busLines_waveform (c : Config) {q : Script} (h : KeepsBus q) (l : Lines) :
    ∀ p ∈ waveform c q l, busLines p.1 = busLines l := by
  induction q generalizing l with
  | nil => simp [waveform]
  | cons op q ih =>
    obtain ⟨hop, hq⟩ := List.forall_mem_cons.1 h
    have hrest : ∀ p ∈ waveform c q (l.after op), busLines p.1 = busLines l :=
      fun p hp => (ih hq (l.after op) p hp).trans (hop l)
    cases op with
    | wait d => exact List.forall_mem_cons.2 ⟨rfl, hrest⟩
    | ackwin => exact List.forall_mem_cons.2 ⟨rfl, hrest⟩
    | _ => exact hrest

/-! ## A frame without a window -/

/-- A frame without a window ends with the line driven high and the bus as it was (R121). -/
theorem finalLines_frameScript (c : Config) (f : Frame16) (l : Lines) :
    finalLines (frameScript c f false) l = { l with blOut := true, blOe := true } := by
  have hbus := busLines_finalLines (keepsBus_frameBody c f) l
  simp only [busLines, Prod.mk.injEq] at hbus
  obtain ⟨hsck, hsckOe, hmosi, hcs⟩ := hbus
  rw [frameScript_eq, finalLines_append]
  show Lines.mk true true (finalLines (frameBody c f) l).sckOut _ _ _ = _
  rw [hsck, hsckOe, hmosi, hcs]

/-- The segments of R125's table up to the data byte: the start condition, the address byte and the gap. -/
def addressSegments (c : Config) (f : Frame16) : List (Level × Nat) :=
  [(.high, ticks c c.feStart)]
  ++ (List.range 8).flatMap (fun j => bitSegments c (f.getLsbD (15 - j)))
  ++ [(.low, ticks c c.feGapLow), (.high, ticks c c.feGapHigh)]

/-- The segments of R125's table from the data byte on. -/
def dataSegments (c : Config) (f : Frame16) : List (Level × Nat) :=
  (List.range 8).flatMap (fun j => bitSegments c (f.getLsbD (7 - j))) ++ [(.low, ticks c c.feEos)]

theorem frameSegments_split (c : Config) (f : Frame16) :
    frameSegments c f = addressSegments c f ++ dataSegments c f :=
  List.append_assoc _ _ _

theorem bitSegments_length (c : Config) (bit : Bool) : (bitSegments c bit).length = 2 := by
  cases bit <;> rfl

theorem addressSegments_length (c : Config) (f : Frame16) : (addressSegments c f).length = 19 := by
  simp [addressSegments, List.length_flatMap, bitSegments_length]

/-- The `j`-th bit of the address byte starts `j` bits after the start condition (R125). -/
theorem segmentTicks_take_address (c : Config) (f : Frame16) (r : List (Level × Nat)) {j : Nat} (hj : j ≤ 8) :
    segmentTicks ((addressSegments c f ++ r).take (1 + 2 * j)) =
      ticks c c.feStart + j * (ticks c c.feShort + ticks c c.feLong) := by
  rw [addressSegments, List.append_assoc, List.append_assoc, Nat.add_comm 1, List.singleton_append,
    List.take_succ_cons, segmentTicks_cons,
    segmentTicks_bits c (fun j => f.getLsbD (15 - j)) _ _ j (by simpa using hj)]

theorem segmentTicks_addressSegments (c : Config) (f : Frame16) :
    segmentTicks (addressSegments c f) =
      ticks c c.feStart + 8 * (ticks c c.feShort + ticks c c.feLong) + ticks c c.feGapLow + ticks c c.feGapHigh := by
  have hlen : ((List.range 8).flatMap fun j => bitSegments c (f.getLsbD (15 - j))).length = 2 * 8 := by
    simp [List.length_flatMap, bitSegments_length]
  have hbits := segmentTicks_bits c (fun j => f.getLsbD (15 - j)) (List.range 8) [] 8 (by simp)
  rw [List.append_nil, List.take_of_length_le hlen.le] at hbits
  rw [addressSegments, segmentTicks_append, segmentTicks_append, hbits]
  simp [segmentTicks, Nat.add_assoc]

/-- The `j`-th bit of the data byte starts `j` bits after the gap (R125). -/
theorem segmentTicks_take_data (c : Config) (f : Frame16) {j : Nat} (hj : j ≤ 8) :
    segmentTicks ((frameSegments c f).take (19 + 2 * j)) =
      ticks c c.feStart + 8 * (ticks c c.feShort + ticks c c.feLong) + ticks c c.feGapLow + ticks c c.feGapHigh
        + j * (ticks c c.feShort + ticks c c.feLong) := by
  rw [frameSegments_split, ← addressSegments_length c f, List.take_length_add_append, segmentTicks_append,
    segmentTicks_addressSegments, dataSegments,
    segmentTicks_bits c (fun j => f.getLsbD (7 - j)) _ _ j (by simpa using hj)]

/-- Settles O40: the script shows the segments of R125's table and moves no other line; the offsets are sums over the
table. -/
theorem frameWaveform : Obligations.FrameWaveform := by
  intro c f l
  have hsegs : blSegments (waveform c (frameScript c f false) l) = frameSegments c f := by
    simpa using blSegments_frameScript c f false l
  refine ⟨hsegs, fun p hp => ?_, finalLines_frameScript c f l, fun j hj => ?_, fun j hj => ?_⟩
  · simpa only [busLines, Prod.mk.injEq] using busLines_waveform c (keepsBus_frameScript c f false) l p hp
  · rw [hsegs, frameSegments_split]
    exact segmentTicks_take_address c f _ hj
  · rw [hsegs]
    exact segmentTicks_take_data c f hj

/-- Settles O41: R125's table evaluated at the default timing, with the bits of 0x5814. -/
theorem frameExample : Obligations.FrameExample := by
  intro l
  rw [blSegments_frameScript]
  decide

/-! ## A frame with a window -/

/-- A script that ends by driving the line high leaves it so as it is played, whatever its windows see (R35, R121). -/
theorem finalLines_played_drive_high (s : State) (n : Nat) (q : Script) (l : Lines) :
    (finalLines (playedScript s n (q ++ [.drv .bl true])) l).blOut = true ∧
    (finalLines (playedScript s n (q ++ [.drv .bl true])) l).blOe = true := by
  induction q generalizing n l with
  | nil => exact ⟨rfl, rfl⟩
  | cons op q ih =>
    cases op with
    | ackwin =>
      rw [List.cons_append, playedScript]
      split
      · exact ih _ _
      · exact ih _ (finalLines (hsScript s.cfg) l)
    | _ => exact ih _ _

/-- Settles O42: the frame as it is played with a window, and its closing drive. -/
theorem ackFrameWaveform : Obligations.AckFrameWaveform := by
  intro s n f l
  refine ⟨?_, finalLines_played_drive_high s n _ l⟩
  rw [blSegments_playedFrame, List.append_assoc]
  rfl

end Sys2Proof.Proofs
end

section
/-! SUPPORT. The statements about whole operations: an UPDATE and a POWER_UP, cycle by cycle from their acceptance to their
response (spec/41_frame_encoder.md R117 to R125; spec/42_power_arbiter.md R143 to R149). -/

namespace Sys2Proof.Proofs

open Sys2Proof Sys2Proof.Machine Sys2Proof.Safety Sys2Proof.Laws

/-! ## The cycles an operation takes -/

theorem timed_append {c : Config} {p q : Script} (hp : Timed c p) (hq : Timed c q) : Timed c (p ++ q) :=
  fun d hd => (List.mem_append.1 hd).elim (hp d) (hq d)

theorem lineOnly_timed {c : Config} {q : Script} (h : LineOnly c q) : Timed c q :=
  fun d hd => (h.windowless _ hd).2 d rfl

theorem frameScript_timed (c : Config) (f : Frame16) (a : Bool) : Timed c (frameScript c f a) := by
  rw [frameScript_eq]
  refine timed_append (lineOnly_timed (frameBody_lineOnly c f)) ?_
  cases a <;> simp [Timed, ackScript]

theorem hsScript_timed (c : Config) : Timed c (hsScript c) :=
  timed_append (p := [.ev .handshake]) (by simp [Timed]) (lineOnly_timed (hsBody_lineOnly c))

theorem updateScript_timed (c : Config) (b : Bright) (a : Bool) : Timed c (updateScript c b a) :=
  timed_append (by simp [Timed]) (frameScript_timed c _ a)

theorem powerUpScript_timed (c : Config) (b : Bright) (a : Bool) : Timed c (powerUpScript c b a) :=
  timed_append (timed_append (hsScript_timed c) (by simp [Timed])) (frameScript_timed c _ a)

/-- Both operations end by driving the line high (R121). -/
theorem updateScript_drive_high (c : Config) (b : Bright) (a : Bool) :
    ∃ p, updateScript c b a = p ++ [.drv .bl true] :=
  ⟨_, (List.append_assoc _ _ _).symm⟩

theorem powerUpScript_drive_high (c : Config) (b : Bright) (a : Bool) :
    ∃ p, powerUpScript c b a = p ++ [.drv .bl true] :=
  ⟨_, (List.append_assoc _ _ _).symm⟩

/-- What follows a frame takes the cycles of its acknowledgement (R117, R119, R120, R149). -/
theorem playedAck_ticks {s : State} {m : Nat} {r : AckStatus} (hr : AckResult s m r) :
    scriptTicks s.cfg (playedScript s m (ackScript s.ackEn ++ [.drv .bl true])) = ackTicks s.cfg r := by
  cases r with
  | none =>
    have hack : s.ackEn = false := hr
    rw [hack]
    rfl
  | ok =>
    obtain ⟨hack, hseen⟩ := hr
    rw [hack]
    show scriptTicks s.cfg (playedScript s m [.rel .bl, .ackwin, .drv .bl true]) = _
    simp only [playedScript, if_pos hseen]
    rfl
  | timeout =>
    obtain ⟨hack, hseen⟩ := hr
    rw [hack]
    show scriptTicks s.cfg (playedScript s m [.rel .bl, .ackwin, .drv .bl true]) = _
    simp only [playedScript, if_neg hseen, scriptTicks, scriptTicks_append, hsScript_ticks]
    rfl

theorem playedFrame_ticks {s : State} {n : Nat} {r : AckStatus} (f : Frame16)
    (hr : AckResult s (n + frameTicks s.cfg) r) :
    scriptTicks s.cfg (playedScript s n (frameScript s.cfg f s.ackEn)) = frameTicks s.cfg + ackTicks s.cfg r := by
  have hwin : .ackwin ∉ frameBody s.cfg f := fun h => ((frameBody_lineOnly s.cfg f).windowless _ h).1 rfl
  rw [frameScript_eq, playedScript_append s n _ _ hwin, scriptTicks_append, frameBody_ticks, playedAck_ticks hr]

/-- The status writes take no cycle (R144, R149). -/
theorem playedUpdate_ticks {s : State} {n : Nat} {r : AckStatus} (b : Bright)
    (hr : AckResult s (n + frameTicks s.cfg) r) :
    scriptTicks s.cfg (playedScript s n (updateScript s.cfg b s.ackEn)) = frameTicks s.cfg + ackTicks s.cfg r :=
  playedFrame_ticks (frameWord b s.ackEn) hr

theorem playedPowerUp_ticks {s : State} {n : Nat} {r : AckStatus} (b : Bright)
    (hr : AckResult s (n + handshakeTicks s.cfg + frameTicks s.cfg) r) :
    scriptTicks s.cfg (playedScript s n (powerUpScript s.cfg b s.ackEn)) =
      handshakeTicks s.cfg + (frameTicks s.cfg + ackTicks s.cfg r) := by
  have hwin : .ackwin ∉ hsScript s.cfg := by simp [hsScript]
  rw [powerUpScript, List.append_assoc, playedScript_append s n _ _ hwin, scriptTicks_append, hsScript_ticks]
  exact congrArg (handshakeTicks s.cfg + ·) (playedFrame_ticks (frameWord b s.ackEn) hr)

/-! ## From the acceptance to the response -/

/-- An UPDATE is accepted: the word decodes to SET_ON.UPDATE in power state ON (R72, R144). -/
theorem step_accepts_update {s : State} {b : Bright} (hc : s.cfg.legal = true) (hm : s.mode = .idle)
    (hp : s.pwrState = .on) (ho : Offers s (BitVec.ofBool true ++ BitVec.ofBool false ++ b)) :
    step s = .next (startScript (updateScript s.cfg b s.ackEn) true s.tick) :=
  stepRunsDecodedRequest.1 s _ (.setOnUpdate b) hc hm ho (decodeOfEncode _ _ _ rfl (by simp [Instr.selectedBy, hp]))

/-- A POWER_UP is accepted: the same word decodes to SET_ON.POWER_UP in power state OFF (R72, R143). -/
theorem step_accepts_powerUp {s : State} {b : Bright} (hc : s.cfg.legal = true) (hm : s.mode = .idle)
    (hp : s.pwrState = .off) (ho : Offers s (BitVec.ofBool true ++ BitVec.ofBool false ++ b)) :
    step s = .next (startScript (powerUpScript s.cfg s.lastBrightness s.ackEn) true s.tick) :=
  stepRunsDecodedRequest.1 s _ (.setOnPowerUp b) hc hm ho (decodeOfEncode _ _ _ rfl (by simp [Instr.selectedBy, hp]))

/-- The six line registers from the cycle after the acceptance of a request to its response: the waveform of its script
as it is played, and at the response the script's last levels, which a script that ends by driving the line high leaves
there. `D` is the number of cycles from the one to the other. -/
theorem accepted_lines {s u : State} {q : Script} {D k : Nat} (hc : s.cfg.legal = true) (haw : s.aw = false)
    (hstep : step s = .next (startScript q true s.tick)) (hq : Timed s.cfg q) (hhigh : ∃ p, q = p ++ [.drv .bl true])
    (hD : D = 1 + scriptTicks s.cfg (playedScript s 1 q)) (hn : NoReset s D) (hk : 0 < k)
    (hu : runFor k s = .next u) :
    (k < D → (expand (waveform s.cfg (playedScript s 1 q) (linesOf s)))[k - 1]? = some (linesOf u)) ∧
    (k = D → linesOf u = finalLines (playedScript s 1 q) (linesOf s) ∧ u.blOut = true ∧ u.blOe = true) := by
  obtain ⟨j, rfl⟩ : ∃ j, k = j + 1 := ⟨k - 1, by omega⟩
  have hstart : SameInputs (s.tick.beginRun true) (State.tick^[1] s) := ⟨rfl, rfl⟩
  obtain ⟨during, t, ht, -, -, -, hlines⟩ :=
    script_shows hc q (s.tick.beginRun true) s 1 rfl rfl hstart hq rfl haw rfl (noReset_shift (hD ▸ hn) hstart)
  rw [runFor_succ j hstep] at hu
  refine ⟨fun hlt => ?_, fun heq => ?_⟩
  · obtain ⟨v, hv, -, -, hvl⟩ := during j (by show j < scriptTicks s.cfg _; omega)
    obtain rfl : v = u := Host.Outcome.next.inj (hv.symm.trans hu)
    exact hvl
  · obtain rfl : j = scriptTicks s.cfg (playedScript s 1 q) := by omega
    obtain rfl : t = u := Host.Outcome.next.inj (ht.symm.trans hu)
    obtain ⟨p, rfl⟩ := hhigh
    obtain ⟨hout, hoe⟩ := finalLines_played_drive_high s 1 p (linesOf s)
    exact ⟨hlines, (congrArg Lines.blOut hlines).trans hout, (congrArg Lines.blOe hlines).trans hoe⟩

/-- How an acknowledgement ends, counted from a later state with the same input values to come. -/
theorem ackResult_shift {s t : State} {n m : Nat} {r : AckStatus} (hcfg : t.cfg = s.cfg) (hack : t.ackEn = s.ackEn)
    (hin : SameInputs t (State.tick^[n] s)) (h : AckResult s (n + m) r) : AckResult t m r := by
  have hseen : AckSeen t m ↔ AckSeen s (n + m) := by
    simp only [AckSeen, hcfg, pinsAt_of_sameInputs hin, Nat.add_assoc]
  cases r with
  | none => exact hack.trans h
  | ok =>
    obtain ⟨hen, hlow⟩ := h
    exact ⟨hack.trans hen, hseen.2 hlow⟩
  | timeout =>
    obtain ⟨hen, hhigh⟩ := h
    exact ⟨hack.trans hen, mt hseen.1 hhigh⟩

/-- A frame in the middle of a run: it starts in the `n`-th cycle, in the state `t`. -/
theorem frame_runs_after {s t : State} {n j : Nat} {r : AckStatus} {f : Frame16} (hc : s.cfg.legal = true)
    (hstart : runFor n s = .next (advanceOn (frameScript s.cfg f s.ackEn) t)) (hin : SameInputs t (State.tick^[n] s))
    (hcfg : t.cfg = s.cfg) (hack : t.ackEn = s.ackEn) (hm : t.mode = .run) (haw : t.aw = false) (hrsp : t.rsp = false)
    (hhs : t.evHs = false) (hto : t.evTo = false) (hr : AckResult s (n + frameTicks s.cfg) r)
    (hn : NoReset s (n + frameTicks s.cfg + ackTicks s.cfg r)) (hj : j ≤ frameTicks s.cfg + ackTicks s.cfg r) :
    ∃ u, runFor (n + j) s = .next u ∧ FrameAt t r j u := by
  rw [Nat.add_assoc] at hn
  rw [← hcfg, ← hack] at hstart
  rw [runFor_add n j hstart]
  rw [← hcfg] at hc hr hn hj
  exact frame_runs f hc hm haw hrsp hhs hto r (ackResult_shift hcfg hack hin (hcfg ▸ hr)) (noReset_shift hn hin) j hj

/-- The mode, the pulses and `ack_status` of a request's frame that starts in the `n`-th cycle, by the number of the
cycle. -/
theorem frameAt_shifted {s u : State} {c : Config} {r : AckStatus} {j : Nat} (h : FrameAt s r j u) (hcfg : s.cfg = c)
    (hreq : s.fromReq = true) (n : Nat) :
    (u.mode = if n + j = n + frameTicks c + ackTicks c r then .idle else .run) ∧
    u.rsp = decide (n + j = n + frameTicks c + ackTicks c r) ∧
    (u.evTo = true ↔ r = .timeout ∧ n + j = n + frameTicks c + windowTicks c) ∧
    (u.evHs = true ↔ r = .timeout ∧ n + j = n + frameTicks c + windowTicks c) ∧
    (u.ackStatus = if r ≠ .none ∧ n + frameTicks c + windowTicks c ≤ n + j then r else s.ackStatus) := by
  subst hcfg
  simp only [Nat.add_assoc, Nat.add_left_cancel_iff, Nat.add_le_add_iff_left]
  exact ⟨h.mode, by rw [h.rsp, hreq, Bool.and_true], h.evTo, h.evHs, h.ackStatus⟩

/-! ## UPDATE -/

/-- The state in which the frame of an UPDATE starts: both brightness registers are written (R144). -/
def updateFrameStart (b : Bright) (s : State) : State :=
  ((s.tick.beginRun true).setReg (.reportedBrightness b)).setReg (.lastBrightness b)

/-- Settles O33: the accepting step writes the registers and starts the frame, whose cycles `frame_runs` gives. -/
theorem updateOperation : Obligations.UpdateOperation := by
  intro s b r hc hm haw hp ho hr hn k hk hkD
  have hstep := step_accepts_update hc hm hp ho
  obtain ⟨j, rfl⟩ : ∃ j, k = 1 + j := ⟨k - 1, by omega⟩
  have hstart : runFor 1 s =
      .next (advanceOn (frameScript s.cfg (frameWord b s.ackEn) s.ackEn) (updateFrameStart b s)) := runFor_succ 0 hstep
  obtain ⟨u, hu, hf⟩ := frame_runs_after (j := j) hc hstart ⟨rfl, rfl⟩ rfl rfl rfl haw rfl rfl rfl hr hn (by omega)
  obtain ⟨mode, rsp, evTo, evHs, ackStatus⟩ := frameAt_shifted hf rfl rfl 1
  have hlines := accepted_lines hc haw hstep (updateScript_timed s.cfg b s.ackEn) (updateScript_drive_high s.cfg b s.ackEn)
    (by rw [playedUpdate_ticks b hr, Nat.add_assoc]) hn hk hu
  exact ⟨u, hu, hf.rep, hf.last, hf.pwr.trans hp, hf.ackEn, hf.csp, hf.pc, mode, rsp, evTo, evHs, ackStatus, hlines⟩

/-! ## POWER_UP -/

/-- The state in which the handshake of a POWER_UP starts, with its event raised (R143). -/
def powerUpStart (s : State) : State :=
  (s.tick.beginRun true).raiseEvent .handshake

/-- The status writes between the handshake and the frame of a POWER_UP (R143). -/
def powerUpStatus (l : Bright) (s : State) : State :=
  (s.setReg (.reportedBrightness l)).setReg (.pwrState .on)

/-- The handshake of a POWER_UP moves lines alone, and leaves a state in which the status is written and the frame
starts. -/
theorem powerUp_handshake {s : State} (hc : s.cfg.legal = true) (haw : s.aw = false)
    (hstep : step s = .next (startScript (powerUpScript s.cfg s.lastBrightness s.ackEn) true s.tick))
    (hn : NoReset s (1 + handshakeTicks s.cfg)) :
    (∀ j, j < handshakeTicks s.cfg → ∃ u, runFor (1 + j) s = .next u ∧ Calm j (powerUpStart s) u) ∧
    ∃ e, Calm (handshakeTicks s.cfg) (powerUpStart s) e ∧ SameInputs e (State.tick^[1 + handshakeTicks s.cfg] s) ∧
      runFor (1 + handshakeTicks s.cfg) s = .next
        (advanceOn (frameScript s.cfg (frameWord s.lastBrightness s.ackEn) s.ackEn) (powerUpStatus s.lastBrightness e)) := by
  set rest : Script := [.set (.reportedBrightness s.lastBrightness), .set (.pwrState .on)] ++
    frameScript s.cfg (frameWord s.lastBrightness s.ackEn) s.ackEn
  have hin : SameInputs (powerUpStart s) (State.tick^[1] s) := ⟨rfl, rfl⟩
  have hrun : ∀ j, runFor (1 + j) s = runFor j (advanceOn (hsBody s.cfg ++ rest) (powerUpStart s)) := by
    intro j
    rw [Nat.add_comm, runFor_succ j hstep]
    rfl
  have hbody := hsBody_lineOnly s.cfg
  obtain ⟨hend, hduring⟩ := play_windowless hc (hsBody s.cfg) rest (powerUpStart s) rfl hbody.windowless rfl haw
    (by rw [hsBody_ticks]; exact noReset_shift hn hin)
  obtain ⟨hall, hcalm, hins⟩ := lineOnly_runs hc (hsBody s.cfg) rest (powerUpStart s) (powerUpStart s) 0 rfl hbody
    (calm_self rfl haw rfl)
  rw [hsBody_ticks] at hend hduring hcalm hins
  simp only [Nat.zero_add] at hall hcalm
  refine ⟨fun j hj => ?_, effectOf (hsBody s.cfg) rest (powerUpStart s), hcalm, sameInputs_shift hin hins, ?_⟩
  · rw [hrun]
    exact hduring _ hall j hj
  · rw [hrun, hend]
    rfl

theorem handshakeTicks_pos {c : Config} (hc : c.legal = true) : 0 < handshakeTicks c := by
  have : 1 ≤ ticks c c.hsHigh := ticks_pos hc (by simp [Config.durations])
  unfold handshakeTicks
  omega

/-- Settles O34: the handshake and then the frame of the remembered brightness, each over its own cycles. -/
theorem powerUpOperation : Obligations.PowerUpOperation := by
  intro s b r hc hm haw hp ho hr hn k hk hkD
  have hstep := step_accepts_powerUp hc hm hp ho
  have hH := handshakeTicks_pos hc
  obtain ⟨hduring, e, he, hein, hend⟩ := powerUp_handshake hc haw hstep (noReset_mono (by omega) hn)
  have hlines := fun u (hu : runFor k s = .next u) => accepted_lines hc haw hstep
    (powerUpScript_timed s.cfg s.lastBrightness s.ackEn) (powerUpScript_drive_high s.cfg s.lastBrightness s.ackEn)
    (D := 1 + handshakeTicks s.cfg + frameTicks s.cfg + ackTicks s.cfg r)
    (by rw [playedPowerUp_ticks s.lastBrightness hr]; omega) hn hk hu
  rcases Nat.lt_or_ge (handshakeTicks s.cfg) k with hlt | hge
  · obtain ⟨j, rfl⟩ : ∃ j, k = 1 + handshakeTicks s.cfg + j := ⟨k - (1 + handshakeTicks s.cfg), by omega⟩
    have hquiet : decide (handshakeTicks s.cfg = 0) = false := decide_eq_false hH.ne'
    obtain ⟨u, hu, hf⟩ := frame_runs_after (j := j) hc hend hein he.cfg he.ackEn he.mode he.aw he.rsp
      (he.evHs.trans (by rw [hquiet, Bool.false_and])) (he.evTo.trans (by rw [hquiet, Bool.false_and])) hr hn (by omega)
    obtain ⟨mode, rsp, evTo, evHs, ackStatus⟩ :=
      frameAt_shifted (c := s.cfg) hf he.cfg he.fromReq (1 + handshakeTicks s.cfg)
    have hnot : ¬ 1 + handshakeTicks s.cfg + j ≤ handshakeTicks s.cfg := by omega
    rw [if_neg hnot, if_neg hnot]
    refine ⟨u, hu, hf.rep, hf.pwr, hf.last.trans he.last, hf.ackEn.trans he.ackEn, hf.csp.trans he.csp, hf.pc.trans he.pc,
      fun hj => ?_, mode, rsp, evTo, evHs.trans ?_, ackStatus.trans ?_, hlines u hu⟩
    · obtain rfl : j = 0 := by omega
      obtain rfl := Host.Outcome.next.inj (hend.symm.trans hu)
      rfl
    · exact (or_iff_right (by omega)).symm
    · exact congrArg _ he.ackStatus
  · obtain ⟨j, rfl⟩ : ∃ j, k = 1 + j := ⟨k - 1, by omega⟩
    obtain ⟨u, hu, hcalm⟩ := hduring j (by omega)
    rw [if_pos hge, if_pos hge]
    refine ⟨u, hu, hcalm.rep, hcalm.pwr.trans hp, hcalm.last, hcalm.ackEn, hcalm.csp, hcalm.pc, fun hj => by omega, ?_, ?_,
      ?_, ?_, ?_, hlines u hu⟩
    · rw [if_neg (by omega)]
      exact hcalm.mode
    · rw [decide_eq_false (by omega)]
      exact hcalm.rsp
    · have hto : u.evTo = false := hcalm.evTo.trans (Bool.and_false _)
      rw [hto]
      exact iff_of_false Bool.false_ne_true (by omega)
    · have hhs : u.evHs = decide (j = 0) := hcalm.evHs.trans (Bool.and_true _)
      rw [hhs, decide_eq_true_iff]
      omega
    · rw [if_neg (by omega)]
      exact hcalm.ackStatus

end Sys2Proof.Proofs
end

section
/-! SUPPORT. The statements about the requests and the constant port, and the round trip UPDATE, OFF, SET_ON
(spec/42_power_arbiter.md R141 to R148, R207; spec/90_conflicts.md C2). -/

namespace Sys2Proof.Proofs

open Sys2Proof Sys2Proof.Machine Sys2Proof.Safety Sys2Proof.Laws

/-! ## Requests in one step -/

/-- Settles O22: the start runs the event and the first drive, and stops at the hard-reset wait. -/
theorem powerUpStarts : Obligations.PowerUpStarts :=
  fun _ _ => rfl

/-- Settles O23: the start runs the two status writes and the first drive, and stops at the wait of the start condition. -/
theorem updateStarts : Obligations.UpdateStarts :=
  fun _ _ => rfl

/-- Settles O24: the meaning is the state itself, and the port is a literal of `outputs`. -/
theorem maxBrightnessPort : Obligations.MaxBrightnessPort :=
  fun _ => ⟨rfl, rfl⟩

/-- The OFF script has no timed micro-op, so its start is also its end: the line is low, the status is written and the
block is IDLE with its response (R142). -/
theorem startScript_offScript (s : State) :
    startScript offScript true s = { s with
      blOut := false, blOe := true, reportedBrightness := 0#5, pwrState := .off
      evHs := false, evTo := false, rsp := true, mode := .idle, q := [], fromReq := true } := rfl

/-- The request word with `unblank` 0 or `blank` 1 selects OFF in either power state (R141). -/
theorem step_accepts_off {s : State} {w : Req7} (hc : s.cfg.legal = true) (hm : s.mode = .idle) (ho : Offers s w)
    (hw : w.getLsbD 6 = false ∨ w.getLsbD 5 = true) : step s = .next (startScript offScript true s.tick) := by
  obtain ⟨hr, hv, rfl⟩ := ho
  rw [reqWord_getLsbD_six, reqWord_getLsbD_five] at hw
  have hoff : requestScript s.pins s = offScript := if_pos hw
  rw [step_idle_request hc hm hr hv, acceptRequest, hoff]

/-- Settles O21: both meanings start the OFF script, and so does the step that accepts either word. -/
theorem offRequests : Obligations.OffRequests := by
  intro s
  have hexec := congrArg (Host.Outcome.next (φ := Fault) (ρ := Refusal)) (startScript_offScript s)
  refine ⟨fun _ _ => hexec, fun _ => hexec, fun w hc hm ho hw => ?_⟩
  have htick : s.tick.mode = .idle := hm
  rw [step_accepts_off hc hm ho hw, startScript_offScript, ← htick]

/-! ## The input values of a later cycle -/

theorem exec_sameInputs {i : Instr} {s t : State} (h : exec i s = .next t) : SameInputs t s := by
  rcases exec_cases h with ⟨q, fromReq, rfl⟩ | ⟨q, rfl⟩ | rfl
  · exact (advanceOn_sameInputs q (s.beginRun fromReq)).trans ⟨rfl, rfl⟩
  · exact (advanceOn_sameInputs (q ++ s.q) s.resume).trans ⟨rfl, rfl⟩
  · exact ⟨rfl, rfl⟩

theorem endTimed_sameInputs (s : State) : SameInputs (endTimed s) s := by
  unfold endTimed
  split
  · split
    · exact (advanceOn_sameInputs _ (recordAckOk s)).trans ⟨rfl, rfl⟩
    · exact (advanceOn_sameInputs _ (recordAckTimeout s).resume).trans ⟨rfl, rfl⟩
  · exact advanceOn_sameInputs _ s

theorem runSample_sameInputs (i : Pins) (s : State) : SameInputs (runSample i s) s := by
  unfold runSample
  split
  · exact ⟨rfl, rfl⟩
  · exact ⟨rfl, rfl⟩

theorem runCycle_sameInputs (i : Pins) (s : State) : SameInputs (runCycle i s) s := by
  unfold runCycle
  split
  · exact runSample_sameInputs i s
  · exact (endTimed_sameInputs _).trans (runSample_sameInputs i s)

/-- A step uses up the input values of one cycle, whatever else it does. -/
theorem step_sameInputs {s t : State} (h : step s = .next t) : SameInputs t s.tick := by
  cases hr : s.pins.rst with
  | true =>
    obtain rfl := Host.Outcome.next.inj ((step_reset (step_legal h) hr).symm.trans h)
    exact ⟨rfl, rfl⟩
  | false =>
    cases step_cases h hr with
    | boot q hm hq => exact exec_sameInputs (exec_attach (s := s.tick) hq)
    | run hm => exact runCycle_sameInputs s.pins s.tick
    | quiet hm => exact ⟨rfl, rfl⟩
    | request hm hv => exact exec_sameInputs (exec_decodeReq7 s.pins s.tick)

theorem runFor_sameInputs {n : Nat} {s t : State} (h : runFor n s = .next t) : SameInputs t (State.tick^[n] s) := by
  induction n generalizing s with
  | zero =>
    obtain rfl := Host.Outcome.next.inj h
    exact ⟨rfl, rfl⟩
  | succ n ih =>
    cases hs : step s with
    | next u =>
      rw [runFor_succ n hs] at h
      exact (ih h).trans (sameInputs_tick_iter n (step_sameInputs hs))
    | fault r => cases r
    | refused r =>
      rw [runFor_step, hs] at h
      cases h

/-- What is offered `n` cycles from now is offered in the state of that cycle. -/
theorem offers_later {s t : State} {n : Nat} {w : Req7} (h : runFor n s = .next t) (hr : (pinsAt s n).rst = false)
    (hv : (pinsAt s n).reqValid = true) (hw : reqWord (pinsAt s n) = w) : Offers t w := by
  have hpins : t.pins = pinsAt s n := pinsAt_of_sameInputs (runFor_sameInputs h) 0
  rw [Offers, hpins]
  exact ⟨hr, hv, hw⟩

/-! ## The round trip -/

/-- A frame starts: the line is high, the start condition is timed and the rest is queued (R111, R112). -/
theorem advanceOn_frameScript (c : Config) (f : Frame16) (a : Bool) (s : State) :
    advanceOn (frameScript c f a) s = { s with
      blOut := true, blOe := true, w := ticks s.cfg c.feStart, q := (frameScript c f a).drop 2 } := rfl

/-- An UPDATE reaches the start of the frame of its `b` in the cycle after its acceptance (R144). -/
theorem update_reaches_frame {s : State} {b : Bright} (hc : s.cfg.legal = true) (hm : s.mode = .idle)
    (hp : s.pwrState = .on) (ho : Offers s (BitVec.ofBool true ++ BitVec.ofBool false ++ b)) :
    runFor 1 s = .next (advanceOn (frameScript s.cfg (frameWord b s.ackEn) s.ackEn) (updateFrameStart b s)) :=
  runFor_succ 0 (step_accepts_update hc hm hp ho)

/-- The block in power state OFF and IDLE, with no window running, `b` remembered, and the configuration and `ack_en` of
`s`. -/
structure OffWith (b : Bright) (s o : State) : Prop where
  cfg : o.cfg = s.cfg
  ackEn : o.ackEn = s.ackEn
  mode : o.mode = .idle
  aw : o.aw = false
  pwr : o.pwrState = .off
  last : o.lastBrightness = b

/-- An OFF accepted in the response cycle of an UPDATE leaves the block OFF in the next, with the brightness of the UPDATE
remembered (R142, R148). -/
theorem off_after_update {s : State} {b : Bright} {r : AckStatus} {off : Req7} {D : Nat} (hc : s.cfg.legal = true)
    (hm : s.mode = .idle) (haw : s.aw = false) (hp : s.pwrState = .on)
    (ho : Offers s (BitVec.ofBool true ++ BitVec.ofBool false ++ b)) (hr : AckResult s (1 + frameTicks s.cfg) r)
    (hD : D = 1 + frameTicks s.cfg + ackTicks s.cfg r) (hoff : off.getLsbD 6 = false ∨ off.getLsbD 5 = true)
    (hv : (pinsAt s D).reqValid = true) (hw : reqWord (pinsAt s D) = off) (hn : NoReset s (D + 1)) :
    ∃ o, runFor (D + 1) s = .next o ∧ OffWith b s o := by
  obtain ⟨d, hd, hf⟩ := frame_runs_after hc (update_reaches_frame hc hm hp ho) ⟨rfl, rfl⟩ rfl rfl rfl haw rfl rfl rfl hr
    (noReset_mono (by omega) hn) le_rfl
  rw [← Nat.add_assoc, ← hD] at hd
  obtain ⟨-, -, hdaw⟩ := hf.line rfl
  have hdm : d.mode = .idle := hf.mode.trans (if_pos rfl)
  have hstep := step_accepts_off (hf.cfg.symm ▸ hc) hdm (offers_later hd (hn D (Nat.lt_succ_self D)) hv hw) hoff
  refine ⟨startScript offScript true d.tick, (runFor_add D 1 hd).trans (runFor_succ 0 hstep), ?_⟩
  rw [startScript_offScript]
  exact ⟨hf.cfg, hf.ackEn, rfl, hdaw, rfl, hf.last⟩

/-- A POWER_UP reaches the start of the frame of the remembered brightness as its handshake ends, with the status written;
its own `b'` plays no part (R143, R207). -/
theorem powerUp_reaches_frame {s : State} {b' : Bright} (hc : s.cfg.legal = true) (hm : s.mode = .idle)
    (haw : s.aw = false) (hp : s.pwrState = .off) (ho : Offers s (BitVec.ofBool true ++ BitVec.ofBool false ++ b'))
    (hn : NoReset s (1 + handshakeTicks s.cfg)) :
    ∃ e, runFor (1 + handshakeTicks s.cfg) s =
        .next (advanceOn (frameScript s.cfg (frameWord s.lastBrightness s.ackEn) s.ackEn) e) ∧
      e.cfg = s.cfg ∧ e.pwrState = .on ∧ e.reportedBrightness = s.lastBrightness ∧
      e.lastBrightness = s.lastBrightness := by
  obtain ⟨-, e, he, -, hend⟩ := powerUp_handshake hc haw (step_accepts_powerUp hc hm hp ho) hn
  exact ⟨powerUpStatus s.lastBrightness e, hend, he.cfg, rfl, rfl, he.last⟩

/-- Settles O36: OFF keeps the remembered brightness, so the POWER_UP that follows it sends the frame of `b` again, and its
handshakes are those of `powerUpOperation`. -/
theorem roundTrip : Obligations.RoundTrip := by
  intro s b b' r off D hc hm haw hp ho hr hD hoff hv hw hv' hw' hn
  obtain ⟨o, hrun, h⟩ := off_after_update hc hm haw hp ho hr hD hoff hv hw (noReset_mono (by omega) hn)
  have hoc : o.cfg.legal = true := h.cfg.symm ▸ hc
  have hin : SameInputs o (State.tick^[D + 1] s) := runFor_sameInputs hrun
  have hoo := offers_later hrun (hn (D + 1) (by omega)) hv' hw'
  have hcycles (j : Nat) : runFor (D + 2 + j) s = runFor (1 + j) o := by
    rw [← runFor_add (D + 1) (1 + j) hrun]
    exact congrArg (runFor · s) (by omega)
  refine ⟨?_, fun r' hr' hn' j hj => ?_⟩
  · obtain ⟨e, hlast, hecfg, hepwr, herep, helast⟩ := powerUp_reaches_frame hoc h.mode h.aw h.pwr hoo
      (noReset_shift (noReset_mono (by rw [h.cfg]; omega) hn) hin)
    rw [h.cfg, h.ackEn, h.last] at hlast
    refine ⟨_, _, update_reaches_frame hc hm hp ho, (hcycles _).trans hlast, ?_⟩
    rw [advanceOn_frameScript, advanceOn_frameScript]
    exact ⟨rfl, congrArg (ticks · s.cfg.feStart) (hecfg.trans h.cfg).symm, rfl, rfl, rfl, hepwr, herep.trans h.last,
      helast.trans h.last⟩
  · have hack : AckResult o (1 + handshakeTicks o.cfg + frameTicks o.cfg) r' := by
      refine ackResult_shift h.cfg h.ackEn hin (n := D + 1) ?_
      rw [h.cfg]
      convert hr' using 1
      omega
    have hreset : NoReset o (1 + handshakeTicks o.cfg + frameTicks o.cfg + ackTicks o.cfg r') :=
      noReset_shift (noReset_mono (by rw [h.cfg]; omega) hn') hin
    obtain ⟨x, hx, -, -, -, -, -, -, -, -, hrsp, -, hhs, -⟩ := powerUpOperation o b' r' hoc h.mode h.aw h.pwr hoo hack hreset
      (1 + j) (by omega) (by rw [h.cfg]; omega)
    rw [h.cfg] at hrsp hhs
    refine ⟨x, (hcycles j).trans hx, fun hne => hhs.trans ?_, fun heq => hhs.trans ?_, hrsp.trans ?_⟩
    · rw [or_iff_left fun hto => hne hto.1]
      omega
    · rw [and_iff_right heq]
      omega
    · rw [decide_eq_decide]
      omega

end Sys2Proof.Proofs
end

section
/-! SUPPORT. The statements about the command player: how its entries and ATTACH start, who holds the lines, and the whole
attach sequence (spec/43_command_player.md R160 to R169; spec/10_state.md R37; spec/70_reset_and_hazards.md R202,
R203, R211). -/

namespace Sys2Proof.Proofs

open Sys2Proof Sys2Proof.Machine Sys2Proof.Safety Sys2Proof.Laws

/-! ## How an entry starts -/

/-- Settles O25: `advance` runs the player's state, chip-select and the first bit, and stops at its first half-period. -/
theorem xmitStarts : Obligations.XmitStarts :=
  fun _ _ => rfl

/-- Settles O26: `advance` runs the player's state and stops at the pause. -/
theorem delayStarts : Obligations.DelayStarts :=
  fun _ => rfl

/-! ## How ATTACH starts -/

theorem decodeCmd16_setWidth (d : W9) : decodeCmd16 (d.setWidth 16) = .ok (.xmit d) := by
  have hle : (d.setWidth 16).toNat ≤ 0x1FF := by
    rw [BitVec.toNat_setWidth]
    omega
  rw [decodeCmd16_xmit hle, BitVec.setWidth_setWidth_of_le d (by decide), BitVec.setWidth_eq]

theorem entryScript_xmit (c : Config) (n : Nat) (d : W9) :
    entryScript c n (d.setWidth 16) = some (.set (.pc n) :: xmitEntryScript c d) := by
  simp only [entryScript, decodeCmd16_setWidth]

theorem entryScript_delay (c : Config) (n : Nat) :
    entryScript c n delaySentinel = some (.set (.pc n) :: delayEntryScript c) := rfl

/-- With an empty table the player is done at once, with `pc` at 0 (R167). -/
theorem exec_attach_empty {s : State} (h : s.cfg.cmdTable = []) :
    exec .attach s = .next (startScript (.rel .sck :: .set (.pc 0) :: .set (.cspState .done) :: hsScript s.cfg) false s) := by
  have hentries : entriesScript s.cfg 0 s.cfg.cmdTable = some [] := by rw [h]; rfl
  rw [exec_attach (attachScript_eq hentries), doneScript, h]
  rfl

/-- Else the script of entry 0 starts, in front of some rest (R160, R161). -/
theorem exec_attach_cons {s : State} {e : Cmd16} {es : Memory} {p : Script} (hc : s.cfg.legal = true)
    (h : s.cfg.cmdTable = e :: es) (hp : entryScript s.cfg 0 e = some p) :
    ∃ r, exec .attach s = .next (startScript (p ++ r) false s) := by
  obtain ⟨q, hq⟩ := entriesScript_some (c := s.cfg) s.cfg.cmdTable (legal_rom hc) 0
  obtain ⟨p', r, hp', -, rfl⟩ := entriesScript_cons (h ▸ hq)
  obtain rfl : p = p' := Option.some.inj (hp.symm.trans hp')
  rw [exec_attach (attachScript_eq hq)]
  simp only [List.append_assoc]
  exact ⟨_, rfl⟩

/-- Settles O29: by the table's first entry, `advance` runs the start of the handshake, of an XMIT or of a DELAY. -/
theorem attachStarts : Obligations.AttachStarts := by
  refine fun s hc => ⟨exec_attach_empty, fun d es h => ?_, fun es h => ?_⟩
  · obtain ⟨r, hr⟩ := exec_attach_cons hc h (entryScript_xmit s.cfg 0 d)
    exact ⟨(xmitScript s.cfg d).drop 4 ++ r, hr⟩
  · obtain ⟨r, hr⟩ := exec_attach_cons hc h (entryScript_delay s.cfg 0)
    exact ⟨r, hr⟩

/-! ## Who holds the lines -/

/-- The block drives the reset/data line outside a window. -/
theorem inv_driven {s : State} (h : Inv s) (haw : s.aw = false) : s.blOe = true := by
  cases hm : s.mode with
  | boot =>
    obtain ⟨-, -, -, hoe, -⟩ := boot_view h hm
    exact hoe
  | idle =>
    obtain ⟨-, -, -, -, hoe, -⟩ := inv_idle h hm
    exact hoe
  | run =>
    obtain ⟨-, -, -, -, hoe, -⟩ := inv_run h hm
    exact hoe haw

theorem pinLevel_eq_z (out oe : Bool) : pinLevel out oe = .z ↔ oe = false := by
  cases out <;> cases oe <;> decide

/-- Settles O52: each point is a part of the invariant, read at the pins. -/
theorem lineOwnership : Obligations.LineOwnership := by
  intro s hs
  have h := reachable_inv hs
  obtain ⟨-, -, hdone, hplay, hbus, -⟩ := inv_consistent h
  refine ⟨(pinLevel_eq_z _ _).trans ⟨fun hoe => ?_, fun haw => (inv_window h haw).1⟩, fun hd => ?_, fun hnd => ?_⟩
  · refine Bool.of_not_eq_false fun haw => ?_
    exact Bool.false_ne_true (hoe.symm.trans (inv_driven h haw))
  · have hsck : s.sckOe = false := (hdone hd).2
    obtain ⟨hmosi, hcs⟩ : s.mosiOut = false ∧ s.csOut = true := hbus (by simp [view, hd])
    exact ⟨(pinLevel_eq_z _ _).2 hsck, by simp [lineLevel, hmosi, pinLevel], by simp [lineLevel, hcs, pinLevel]⟩
  · obtain ⟨hoff, hsck, hoe, hout⟩ : s.pwrState = .off ∧ s.sckOe = true ∧ s.blOe = true ∧ s.blOut = false := hplay hnd
    exact ⟨by simp [lineLevel, hoe, hout, pinLevel], fun hz => by simp [(pinLevel_eq_z _ _).1 hz] at hsck, hoff⟩

/-! ## The player over its cycles -/

/-- The state `s` with the player's registers at `n` and `x` (R29). -/
def withPlayer (n : Nat) (x : CspState) (s : State) : State :=
  (s.setReg (.pc n)).setReg (.cspState x)

/-- A busy state `u` without pulses whose registers are those of `s`, but for the player's, which stand at `n` and `x`;
lines, timer and queue are free. -/
def PlayerAt (s : State) (n : Nat) (x : CspState) (u : State) : Prop :=
  Calm 1 (withPlayer n x s) u

theorem PlayerAt.quiet {s u : State} {n : Nat} {x : CspState} (h : PlayerAt s n x u) : u.evHs = false ∧ u.evTo = false :=
  ⟨h.evHs, h.evTo⟩

theorem playerAt_withPlayer {s u : State} {n : Nat} {x : CspState} (h : PlayerAt s n x u) (m : Nat) (y : CspState) :
    PlayerAt s m y (withPlayer m y u) :=
  ⟨h.mode, h.aw, h.rsp, h.evHs, h.evTo, h.fromReq, h.pwr, h.last, h.rep, h.ackEn, h.ackStatus, rfl, rfl, h.cfg⟩

theorem PlayerAt.release_sck {s u : State} {n : Nat} {x : CspState} (h : PlayerAt s n x u) :
    PlayerAt s n x (u.release .sck) :=
  ⟨h.mode, h.aw, h.rsp, h.evHs, h.evTo, h.fromReq, h.pwr, h.last, h.rep, h.ackEn, h.ackStatus, h.csp, h.pc, h.cfg⟩

/-- Later cycles in which no pulse lasts are alike. -/
theorem calm_one {s u : State} {k : Nat} (h : Calm (1 + k) s u) : Calm 1 s u :=
  have hk : decide (1 + k = 0) = false := decide_eq_false (by omega)
  { h with evHs := h.evHs.trans (by rw [hk]; rfl), evTo := h.evTo.trans (by rw [hk]; rfl) }

/-- The player plays an entry: it is busy, and no pulse is raised (R161). -/
def Playing (s u : State) : Prop :=
  ∃ n x, x ≠ .done ∧ PlayerAt s n x u

/-- An entry is its two register writes and then line moves (R161 to R163). -/
theorem entryScript_shape {c : Config} {n : Nat} {e : Cmd16} {p : Script} (h : entryScript c n e = some p) :
    ∃ x q, x ≠ .done ∧ LineOnly c q ∧ p = .set (.pc n) :: .set (.cspState x) :: q := by
  rcases entryScript_cases h with ⟨-, -, rfl⟩ | ⟨d, -, -, rfl⟩
  · exact ⟨.delaying, _, by decide, delay_lineOnly c, rfl⟩
  · exact ⟨.transmitting, _, by decide, xmit_lineOnly c d, rfl⟩

theorem entryScript_windowless {c : Config} {n : Nat} {e : Cmd16} {p : Script} (h : entryScript c n e = some p) :
    Windowless c p := by
  obtain ⟨x, q, -, hq, rfl⟩ := entryScript_shape h
  have hset : ∀ r : RegWrite, MicroOp.set r ≠ .ackwin ∧ ∀ d, MicroOp.set r = .wait d → d ∈ c.durations := by simp
  exact List.forall_mem_cons.2 ⟨hset _, List.forall_mem_cons.2 ⟨hset _, hq.windowless⟩⟩

theorem entriesScript_windowless {c : Config} {m : Memory} {k : Nat} {q : Script} (h : entriesScript c k m = some q) :
    Windowless c q := by
  induction m generalizing k q with
  | nil =>
    obtain rfl : [] = q := Option.some.inj h
    simp [Windowless]
  | cons e es ih =>
    obtain ⟨p, r, hp, hr, rfl⟩ := entriesScript_cons h
    exact List.forall_mem_append.2 ⟨entryScript_windowless hp, ih hr⟩

theorem entry_plays {c : Config} (hc : c.legal = true) {n : Nat} {e : Cmd16} {p : Script}
    (h : entryScript c n e = some p) (r : Script) {s₀ s : State} {m : Nat} {x : CspState} (hcfg : s₀.cfg = c)
    (hs : PlayerAt s₀ m x s) :
    AllAt (fun _ => Playing s₀) p r s ∧ ∃ y, PlayerAt s₀ n y (effectOf p r s) := by
  obtain ⟨y, q, hy, hq, rfl⟩ := entryScript_shape h
  obtain ⟨during, after, -⟩ :=
    lineOnly_runs hc q r (withPlayer n y s) (withPlayer n y s₀) 1 (hs.cfg.trans hcfg) hq (playerAt_withPlayer hs n y)
  exact ⟨AllAt_mono (fun _ _ hu => ⟨n, y, hy, calm_one hu⟩) q r _ during, y, calm_one after⟩

/-- Entry after entry, the player is busy, and no pulse is raised (R160, R161). -/
theorem entries_play {c : Config} (hc : c.legal = true) {t : Memory} {k : Nat} {q : Script}
    (h : entriesScript c k t = some q) (r : Script) {s₀ s : State} {m : Nat} {x : CspState} (hcfg : s₀.cfg = c)
    (hs : PlayerAt s₀ m x s) :
    AllAt (fun _ => Playing s₀) q r s ∧ ∃ n y, PlayerAt s₀ n y (effectOf q r s) := by
  induction t generalizing k q s m x with
  | nil =>
    obtain rfl : [] = q := Option.some.inj h
    exact ⟨trivial, m, x, hs⟩
  | cons e es ih =>
    obtain ⟨p, q', hp, hq', rfl⟩ := entriesScript_cons h
    have hwin : .ackwin ∉ p := fun hmem => (entryScript_windowless hp _ hmem).1 rfl
    obtain ⟨hentry, y, hy⟩ := entry_plays hc hp (q' ++ r) hcfg hs
    obtain ⟨hrest, hend⟩ := ih hq' hy
    rw [effectOf_append p q' r s hwin]
    exact ⟨allAt_append p q' r _ s c (hs.cfg.trans hcfg) hwin hentry hrest, hend⟩

/-! ## The handshake over its cycles -/

/-- The handshake's body as the end of a script: only the line moves, and at its end it is high. -/
theorem hsBody_runs {s : State} (hc : s.cfg.legal = true) (hm : s.mode = .run) (haw : s.aw = false) (hrsp : s.rsp = false)
    (hn : NoReset s (handshakeTicks s.cfg)) :
    (∀ j, j < handshakeTicks s.cfg → ∃ u, runFor j (advanceOn (hsBody s.cfg) s) = .next u ∧ Calm j s u) ∧
    ∃ e, runFor (handshakeTicks s.cfg) (advanceOn (hsBody s.cfg) s) = .next e.finish ∧
      Calm (handshakeTicks s.cfg) s e ∧ linesOf e = { linesOf s with blOut := true, blOe := true } := by
  have hbody := hsBody_lineOnly s.cfg
  have hwin : .ackwin ∉ hsBody s.cfg := fun hmem => (hbody.windowless _ hmem).1 rfl
  obtain ⟨hend, hduring⟩ := play_windowless hc (hsBody s.cfg) [] s rfl hbody.windowless hm haw
    (by rw [hsBody_ticks]; exact hn)
  obtain ⟨hall, hcalm, -⟩ := lineOnly_runs hc (hsBody s.cfg) [] s s 0 rfl hbody (calm_self hm haw hrsp)
  rw [List.append_nil, hsBody_ticks] at hend hduring
  rw [hsBody_ticks] at hcalm
  simp only [Nat.zero_add] at hall hcalm
  exact ⟨fun j hj => hduring _ hall j hj, _, hend, hcalm, linesOf_effect _ [] s hwin⟩

/-! ## ATTACH -/

/-- The state in which ATTACH starts its script (R37). -/
def attachStart (s : State) : State :=
  s.tick.beginRun false

/-- From BOOT the player plays the table, and then the handshake starts with the clock released and the player DONE
(R160, R164). -/
theorem attach_plays {s : State} (hc : s.cfg.legal = true) (hm : s.mode = .boot) (haw : s.aw = false)
    (hn : NoReset s (1 + tableTicks s.cfg s.cfg.cmdTable)) :
    (∀ j, j < tableTicks s.cfg s.cfg.cmdTable → ∃ u, runFor (1 + j) s = .next u ∧ Playing (attachStart s) u) ∧
    ∃ d, PlayerAt (attachStart s) s.cfg.cmdTable.length .done d ∧ d.sckOe = false ∧
      runFor (1 + tableTicks s.cfg s.cfg.cmdTable) s =
        .next (advanceOn (hsBody s.cfg) (d.raiseEvent .handshake)) := by
  obtain ⟨q, hq⟩ := entriesScript_some (c := s.cfg) s.cfg.cmdTable (legal_rom hc) 0
  set r : Script := doneScript s.cfg ++ hsScript s.cfg
  have hstep : step s = .next (advanceOn (q ++ r) (attachStart s)) := by
    rw [step_boot hc hm (hn 0 (by omega)), exec_attach (s := s.tick) (attachScript_eq hq), List.append_assoc]
    rfl
  have hrun (j : Nat) : runFor (1 + j) s = runFor j (advanceOn (q ++ r) (attachStart s)) := by
    rw [Nat.add_comm, runFor_succ j hstep]
  have hstart : PlayerAt (attachStart s) (attachStart s).pc (attachStart s).cspState (attachStart s) :=
    ⟨rfl, haw, rfl, rfl, rfl, rfl, rfl, rfl, rfl, rfl, rfl, rfl, rfl, rfl⟩
  have hin : SameInputs (attachStart s) (State.tick^[1] s) := ⟨rfl, rfl⟩
  obtain ⟨hend, hduring⟩ := play_windowless hc q r (attachStart s) rfl (entriesScript_windowless hq) rfl haw
    (by rw [entriesScript_ticks hq]; exact noReset_shift hn hin)
  obtain ⟨hall, n, y, hlast⟩ := entries_play (s₀ := attachStart s) hc hq r rfl hstart
  rw [entriesScript_ticks hq] at hend hduring
  refine ⟨fun j hj => ?_, withPlayer s.cfg.cmdTable.length .done ((effectOf q r (attachStart s)).release .sck),
    playerAt_withPlayer hlast.release_sck _ _, rfl, ?_⟩
  · rw [hrun]
    exact hduring _ hall j hj
  · rw [hrun, hend]
    rfl

/-- Settles O35: the player over its cycles, the handshake over its own, and the end of the script. -/
theorem attachOperation : Obligations.AttachOperation := by
  intro s hc hm haw hn
  have hH := handshakeTicks_pos hc
  obtain ⟨hplay, d, hd, hsck, hstart⟩ := attach_plays hc hm haw (noReset_mono (by omega) hn)
  have hcfg : (d.raiseEvent .handshake).cfg = s.cfg := hd.cfg
  have hin : SameInputs (d.raiseEvent .handshake) (State.tick^[1 + tableTicks s.cfg s.cfg.cmdTable] s) :=
    (advanceOn_sameInputs _ _).symm.trans (runFor_sameInputs hstart)
  obtain ⟨hshake, e, hend, he, hlines⟩ := hsBody_runs (s := d.raiseEvent .handshake) (hcfg.symm ▸ hc) hd.mode hd.aw hd.rsp
    (hcfg.symm ▸ noReset_shift hn hin)
  rw [hcfg] at hshake hend he
  refine ⟨fun k hk hkD => ?_, e.finish, by rw [runFor_add _ _ hstart]; exact hend, ?_⟩
  · rcases Nat.lt_or_ge k (1 + tableTicks s.cfg s.cfg.cmdTable) with hlt | hge
    · obtain ⟨j, rfl⟩ : ∃ j, k = 1 + j := ⟨k - 1, by omega⟩
      obtain ⟨u, hu, n, x, hx, hat⟩ := hplay j (by omega)
      obtain ⟨hhs, hto⟩ := hat.quiet
      have hcsp : u.cspState ≠ .done := hat.csp.trans_ne hx
      exact ⟨u, hu, hat.mode, hat.rsp, hto, iff_of_false (by simp [hhs]) (by omega), iff_of_false hcsp (by omega)⟩
    · obtain ⟨j, rfl⟩ : ∃ j, k = 1 + tableTicks s.cfg s.cfg.cmdTable + j :=
        ⟨k - (1 + tableTicks s.cfg s.cfg.cmdTable), by omega⟩
      obtain ⟨u, hu, hcalm⟩ := hshake j (by omega)
      have hhs : u.evHs = decide (j = 0) := hcalm.evHs.trans (Bool.and_true _)
      have hto : u.evTo = false := hcalm.evTo.trans (by simp [hd.quiet.2])
      refine ⟨u, by rw [runFor_add _ _ hstart]; exact hu, hcalm.mode, hcalm.rsp, hto, ?_, ?_⟩
      · rw [hhs, decide_eq_true_iff]
        omega
      · exact iff_of_true (hcalm.csp.trans hd.csp) hge
  · have hquiet : decide (handshakeTicks s.cfg = 0) = false := decide_eq_false hH.ne'
    have hrsp : e.finish.rsp = false := by
      show (e.rsp || e.fromReq) = false
      rw [he.rsp, he.fromReq.trans hd.fromReq]
      rfl
    exact ⟨rfl, hrsp, he.evHs.trans (by rw [hquiet, Bool.false_and]), he.evTo.trans (by rw [hquiet, Bool.false_and]),
      he.csp.trans hd.csp, he.pc.trans hd.pc, (congrArg Lines.sckOe hlines).trans hsck, congrArg Lines.blOut hlines,
      congrArg Lines.blOe hlines, he.pwr.trans hd.pwr, he.last.trans hd.last, he.rep.trans hd.rep,
      he.ackStatus.trans hd.ackStatus, he.ackEn.trans hd.ackEn⟩

end Sys2Proof.Proofs
end

section
/-! SUPPORT. The statement about the pulses: which of them can stand in one cycle (spec/60_exceptions.md R185). -/

namespace Sys2Proof.Proofs

open Sys2Proof Sys2Proof.Machine Sys2Proof.Safety Sys2Proof.Laws

theorem inv_boot {s : State} (h : Inv s) (hm : s.mode = .boot) : BootInv s := by
  obtain ⟨-, -, -, -, hmode⟩ := h
  exact (modeInv_boot hm).1 hmode

/-- Settles O51: the invariant of each mode leaves one kind of pulse, none in BOOT, the response in IDLE and the events
in RUN, where a timeout has its handshake. -/
theorem pulsesNeverCollide : Obligations.PulsesNeverCollide := by
  intro s hs
  have h := reachable_inv hs
  cases hm : s.mode with
  | boot =>
    obtain ⟨-, -, -, -, -, hto, hrsp⟩ := inv_boot h hm
    simp [hto, hrsp]
  | idle =>
    obtain ⟨-, -, -, -, -, hhs, hto⟩ := inv_idle h hm
    simp [hhs, hto]
  | run =>
    obtain ⟨-, -, hrsp, htimeout, -⟩ := inv_run h hm
    simpa [hrsp] using htimeout

end Sys2Proof.Proofs
end
